-- ==== Sys2Proof/Word.lean ====
section
/-! DEFINITION. The word types of the block: 32-bit registers and bus data, 20-bit bus byte addresses
(00_scope.md R9), channel numbers 0..7. -/

namespace Sys2Proof

/-- A register or a word of bus data (`XLEN` = 32, 00_scope.md R9). -/
abbrev Word := BitVec 32

/-- One byte. -/
abbrev Byte := BitVec 8

/-- A bus byte address (`ALEN` = 20, 00_scope.md R9). -/
abbrev Addr := BitVec 20

/-- A channel number 0..NCH-1; NCH = 8 is fixed (00_scope.md R9). -/
abbrev Chan := Fin 8

/-- `NONE`, the "no index" result (00_scope.md R9, 30_encoding.md R205). -/
def noneWord : Word := 0xFFFFFFFF#32

end Sys2Proof
end

