-- ==== Sys2Proof/Config.lean ====
section
/-! DEFINITION. What an implementation fixes (00_scope.md R9) and the free values. -/

namespace Sys2Proof

/-- The parameters of a build (00_scope.md R9, 93_implementation_defined.md section 4). The state carries one value of
this type, which no step changes, so that a statement about every state is a statement about every build (log 3). -/
structure Params where
  /-- `CAP`: samples each channel holds. -/
  cap : Nat
  /-- `TOKCAP`: token records each channel holds. -/
  tokcap : Nat
  /-- `HAS_OW`: presence of the 1-Wire helper commands. -/
  hasOw : Bool
  /-- `I2C_STOP_EDGE_CHECK`: the stop test also requires SCL high at the SDA rise (90_conflicts.md C4). -/
  stopEdgeCheck : Bool
deriving DecidableEq, Repr

/-- The reference values of 00_scope.md R9. -/
def Params.reference : Params :=
  { cap := 65536, tokcap := 4096, hasOw := true, stopEdgeCheck := true }

/-- The ranges of 00_scope.md R9. -/
abbrev Params.legal (p : Params) : Prop :=
  (1 ≤ p.cap ∧ p.cap ≤ 2 ^ 30) ∧ (1 ≤ p.tokcap ∧ p.tokcap ≤ 4096)

/-- FREE VALUE (logs 5, 6 and 7): the word an unspecified read returns, one for each such read
(93_implementation_defined.md V1 and V2: "any value"). It has no body. -/
opaque Config.unspecifiedWord : Nat → Word

/-- FREE VALUE (log 26): what a host program's `rd` puts in its variable when the block gives no answer, one for each such
read (70_reset_and_hazards.md R700 and 30_encoding.md R232 give no value). It has no body, and the step does not use it. -/
opaque Config.unansweredWord : Nat → Word

/-- `PDE_BASE`, left to the platform (00_scope.md R9, 20_memory.md R158): no rule of the block depends on it, and no
definition of the step uses it. It has no body (log 16). -/
opaque Config.pdeBase : Nat

end Sys2Proof
end

