-- ==== Sys2Proof/Syntax.lean ====
section
/-! DEFINITION. The command set PDE-1 with option OW: one constructor per row of spec/opcode_table.json
(30_encoding.md R203). Each carries its CH field, bits 11:8 of the command word. Where the spec marks CH "ignored" the
field is still part of the word, so that no bit of an encoding is lost. -/

namespace Sys2Proof

inductive Instr where
  /-- 0x00, 40_command_cycle.md R255. CH ignored. -/
  | nop (ch : BitVec 4)
  /-- 0x01, 41_sample_buffer.md R286. -/
  | set (ch : BitVec 4)
  /-- 0x02, 41_sample_buffer.md R287. -/
  | clr (ch : BitVec 4)
  /-- 0x03, 41_sample_buffer.md R288. -/
  | setr (ch : BitVec 4)
  /-- 0x04, 41_sample_buffer.md R289. -/
  | clrr (ch : BitVec 4)
  /-- 0x05, 41_sample_buffer.md R290. -/
  | get (ch : BitVec 4)
  /-- 0x06, 41_sample_buffer.md R291. -/
  | length (ch : BitVec 4)
  /-- 0x07, 41_sample_buffer.md R292. -/
  | chreset (ch : BitVec 4)
  /-- 0x08, 41_sample_buffer.md R293. -/
  | nfe (ch : BitVec 4)
  /-- 0x09, 41_sample_buffer.md R294. -/
  | nre (ch : BitVec 4)
  /-- 0x0A, 41_sample_buffer.md R295. -/
  | nmp (ch : BitVec 4)
  /-- 0x0B, 41_sample_buffer.md R296. CH ignored. -/
  | blbegin (ch : BitVec 4)
  /-- 0x0C, 41_sample_buffer.md R297. CH ignored. -/
  | bldata (ch : BitVec 4)
  /-- 0x10, 42_decode_common.md R340. -/
  | decode (ch : BitVec 4)
  /-- 0x11, 44_uart.md R380. -/
  | decUart (ch : BitVec 4)
  /-- 0x12, 45_i2c.md R420. -/
  | decI2c (ch : BitVec 4)
  /-- 0x13, 46_spi.md R470. -/
  | decSpi (ch : BitVec 4)
  /-- 0x14, 42_decode_common.md R341. -/
  | decClk (ch : BitVec 4)
  /-- 0x15, 47_onewire.md R505. Not part of option OW. -/
  | decOw (ch : BitVec 4)
  /-- 0x18, 43_clock.md R361. -/
  | clkfreq (ch : BitVec 4)
  /-- 0x19, 43_clock.md R362. -/
  | clktol (ch : BitVec 4)
  /-- 0x20, 47_onewire.md R501. Option OW. -/
  | owByte (ch : BitVec 4)
  /-- 0x21, 47_onewire.md R502. Option OW. -/
  | owPres (ch : BitVec 4)
  /-- 0x22, 47_onewire.md R503. Option OW. -/
  | owRst (ch : BitVec 4)
deriving DecidableEq, Repr

/-- The CH field of the command word (30_encoding.md R200). -/
def Instr.ch : Instr → BitVec 4
  | .nop ch => ch
  | .set ch => ch
  | .clr ch => ch
  | .setr ch => ch
  | .clrr ch => ch
  | .get ch => ch
  | .length ch => ch
  | .chreset ch => ch
  | .nfe ch => ch
  | .nre ch => ch
  | .nmp ch => ch
  | .blbegin ch => ch
  | .bldata ch => ch
  | .decode ch => ch
  | .decUart ch => ch
  | .decI2c ch => ch
  | .decSpi ch => ch
  | .decClk ch => ch
  | .decOw ch => ch
  | .clkfreq ch => ch
  | .clktol ch => ch
  | .owByte ch => ch
  | .owPres ch => ch
  | .owRst ch => ch

/-- Whether the command uses CH as the channel it acts on (30_encoding.md R202 and the CH column of R203). -/
def Instr.usesCh : Instr → Bool
  | .nop _ => false
  | .blbegin _ => false
  | .bldata _ => false
  | .set _ => true
  | .clr _ => true
  | .setr _ => true
  | .clrr _ => true
  | .get _ => true
  | .length _ => true
  | .chreset _ => true
  | .nfe _ => true
  | .nre _ => true
  | .nmp _ => true
  | .decode _ => true
  | .decUart _ => true
  | .decI2c _ => true
  | .decSpi _ => true
  | .decClk _ => true
  | .decOw _ => true
  | .clkfreq _ => true
  | .clktol _ => true
  | .owByte _ => true
  | .owPres _ => true
  | .owRst _ => true

/-- Whether the command exists only when `HAS_OW` = 1 (the option column of 30_encoding.md R203). -/
def Instr.isOw : Instr → Bool
  | .owByte _ => true
  | .owPres _ => true
  | .owRst _ => true
  | .nop _ => false
  | .set _ => false
  | .clr _ => false
  | .setr _ => false
  | .clrr _ => false
  | .get _ => false
  | .length _ => false
  | .chreset _ => false
  | .nfe _ => false
  | .nre _ => false
  | .nmp _ => false
  | .blbegin _ => false
  | .bldata _ => false
  | .decode _ => false
  | .decUart _ => false
  | .decI2c _ => false
  | .decSpi _ => false
  | .decClk _ => false
  | .decOw _ => false
  | .clkfreq _ => false
  | .clktol _ => false

end Sys2Proof
end

