-- ==== Sys2Proof/WellFormed.lean ====
section
/-! DEFINITION. Which instructions a build has. The types of Instr's fields hold every other bound of the encoding. -/

namespace Sys2Proof

/-- 30_encoding.md R206 point 3: the three OW commands are legal only when `HAS_OW` = 1. -/
def Instr.wf (hasOw : Bool) (i : Instr) : Bool :=
  hasOw || !i.isOw

end Sys2Proof
end

