-- ==== Sys2Proof/Decode.lean ====
section
/-! DEFINITION. The command word, read (30_encoding.md R200 to R206) and written. -/

namespace Sys2Proof

/-- Why a word is no command (30_encoding.md R206). The engine aborts with `EBADOP` for each of them. -/
inductive DecodeError where
  /-- Point 2: one of bits 31:12 is 1. -/
  | reservedBits
  /-- Point 1: OPCODE is not in the table. -/
  | reservedOpcode (op : Byte)
  /-- Point 3: an OW opcode and `HAS_OW` = 0. -/
  | optionAbsent
deriving DecidableEq, Repr

/-- `OPCODE`, bits 7:0 (30_encoding.md R200). -/
def opcodeField (w : Word) : Byte := w.extractLsb' 0 8

/-- `CH`, bits 11:8 (30_encoding.md R200). -/
def chField (w : Word) : BitVec 4 := w.extractLsb' 8 4

/-- Bits 31:12, which must be 0 (30_encoding.md R200). -/
def reservedField (w : Word) : BitVec 20 := w.extractLsb' 12 20

/-- The opcode map (30_encoding.md R203): the command an OPCODE names, on the CH field `ch`. -/
def opcodeMap (op : Byte) (ch : BitVec 4) : Option Instr :=
  match op.toNat with
  | 0x00 => some (.nop ch)
  | 0x01 => some (.set ch)
  | 0x02 => some (.clr ch)
  | 0x03 => some (.setr ch)
  | 0x04 => some (.clrr ch)
  | 0x05 => some (.get ch)
  | 0x06 => some (.length ch)
  | 0x07 => some (.chreset ch)
  | 0x08 => some (.nfe ch)
  | 0x09 => some (.nre ch)
  | 0x0A => some (.nmp ch)
  | 0x0B => some (.blbegin ch)
  | 0x0C => some (.bldata ch)
  | 0x10 => some (.decode ch)
  | 0x11 => some (.decUart ch)
  | 0x12 => some (.decI2c ch)
  | 0x13 => some (.decSpi ch)
  | 0x14 => some (.decClk ch)
  | 0x15 => some (.decOw ch)
  | 0x18 => some (.clkfreq ch)
  | 0x19 => some (.clktol ch)
  | 0x20 => some (.owByte ch)
  | 0x21 => some (.owPres ch)
  | 0x22 => some (.owRst ch)
  | _ => none

/-- The command a word is, or why it is illegal (30_encoding.md R206), in a build with or without option OW. -/
def decode (hasOw : Bool) (w : Word) : Except DecodeError Instr :=
  if reservedField w = 0 then
    match opcodeMap (opcodeField w) (chField w) with
    | some i => if i.wf hasOw then .ok i else .error .optionAbsent
    | none => .error (.reservedOpcode (opcodeField w))
  else .error .reservedBits

/-- The OPCODE of a command (30_encoding.md R203). -/
def opcodeOf : Instr → Byte
  | .nop _ => 0x00
  | .set _ => 0x01
  | .clr _ => 0x02
  | .setr _ => 0x03
  | .clrr _ => 0x04
  | .get _ => 0x05
  | .length _ => 0x06
  | .chreset _ => 0x07
  | .nfe _ => 0x08
  | .nre _ => 0x09
  | .nmp _ => 0x0A
  | .blbegin _ => 0x0B
  | .bldata _ => 0x0C
  | .decode _ => 0x10
  | .decUart _ => 0x11
  | .decI2c _ => 0x12
  | .decSpi _ => 0x13
  | .decClk _ => 0x14
  | .decOw _ => 0x15
  | .clkfreq _ => 0x18
  | .clktol _ => 0x19
  | .owByte _ => 0x20
  | .owPres _ => 0x21
  | .owRst _ => 0x22

/-- `enc(op, c)`: the command word (30_encoding.md R200). -/
def encode (i : Instr) : Word :=
  ((0#20 ++ i.ch : BitVec 24) ++ opcodeOf i : BitVec 32)

/-- The instruction the decoder reads from a row's bits `w`, numbered as spec/opcode_table.json numbers them, in the
reference build (`HAS_OW` = 1). A command is one 32-bit bus word, so bits above `nbits` are 0. -/
def decodeTableWord (nbits w : Nat) : Option Instr :=
  (decode Params.reference.hasOw (BitVec.ofNat 32 (w % 2 ^ nbits))).toOption

end Sys2Proof
end

