-- ==== Sys2Proof/Machine/State.lean ====
section
/-! DEFINITION. The state of the block (10_state.md R50 to R82) as plain data, and the state after reset. -/

namespace Sys2Proof.Machine

/-- The codes of STATUS.ERR (60_exceptions.md R600). Codes 9 to 15 are never written, so they are no constructor. -/
inductive ErrCode where
  /-- 0: the last command completed without error, or none has run since reset. -/
  | ok
  /-- 1: illegal command word. -/
  | ebadop
  /-- 2: CH >= NCH in a command that uses CH. -/
  | ebadch
  /-- 3: an illegal configuration. -/
  | ecfg
  /-- 4: no clock source bound. -/
  | enoclk
  /-- 5: sample index out of range, or an empty range. -/
  | eidx
  /-- 6: token memory full. -/
  | etokovf
  /-- 7: ambiguous 1-Wire bit timing. -/
  | eowambig
  /-- 8: the 1-Wire decode entry point, which the source leaves unimplemented. -/
  | enotimpl
deriving DecidableEq, Repr

/-- The fields of `STATUS` that hold something (10_state.md R56); the reserved bits read 0 and hold nothing (R64). -/
structure Status where
  busy : Bool
  done : Bool
  found : Bool
  lowrate : Bool
  coll : Bool
  err : ErrCode
deriving DecidableEq, Repr

/-- The fields of `CFG[c]` (10_state.md R65); the reserved bits read 0 and hold nothing (R64). -/
structure Cfg where
  /-- bits 2:0, R66. -/
  proto : BitVec 3
  /-- bits 5:4, R67. -/
  parity : BitVec 2
  /-- bit 6, R68. -/
  ninebit : Bool
  /-- bit 7, R68. -/
  twostop : Bool
  /-- bit 8, R69. -/
  cpha : Bool
  /-- bit 9, R69. -/
  cpol : Bool
  /-- bits 15:12, R69. -/
  clksrc : BitVec 4
deriving DecidableEq, Repr

/-- A token record: four 32-bit words (30_encoding.md R220). -/
structure Token where
  word0 : Word
  word1 : Word
  word2 : Word
  word3 : Word
deriving DecidableEq, Repr

/-- What one channel owns beside its samples (10_state.md R50). `TOKCNT[c]` is the number of records in `tokens`, the
records `TOK[c][0..TOKCNT[c]-1]` in append order (R73, R76; log 9). -/
structure Channel where
  cfg : Cfg
  baud : Word
  rate : Word
  len : Word
  tokens : List Token
deriving DecidableEq, Repr

/-- The sample store (10_state.md R75) as a list of (address, byte) pairs: the address is a sample index and bit c of
its byte is `B[c][index]`, the layout of the bulk load (41_sample_buffer.md R297, "bit b of each byte belongs to
channel b"; log 8). An index that is not listed reads 0 in every channel. -/
abbrev Memory := List Host.Cell

/-- The canonical form of the sample store: addresses strictly rising, and no entry equal to what an unlisted address
reads as. -/
abbrev Memory.wf (m : Memory) : Prop :=
  m.Pairwise (fun p q => p.1 < q.1) ∧ ∀ p ∈ m, p.2 ≠ 0#8

/-- What the engine copies when a command is issued (40_command_cycle.md R251, 10_state.md R79). -/
structure Engine where
  cw : Word
  a0 : Word
  a1 : Word
deriving DecidableEq, Repr

/-- No command is running (10_state.md R82, "engine transient state: none"; log 10). -/
def Engine.idle : Engine := { cw := 0, a0 := 0, a1 := 0 }

/-- Why the bus port answers ERR (20_memory.md R157). The spec has the model report ERR to the host as a bus fault
(60_exceptions.md R610); since R150 has the bus go on with the next transaction, the report is the port's response and
the step answers a next state (log 4). No step ever ends in a `Fault`. -/
inductive Fault where
  /-- Raised by the bus port: a[1:0] is not 0 (R153). Safe: the spec's own response. -/
  | misaligned
  /-- Raised by the bus port: no register and no token window is at this address (R155). Safe: the spec's own response. -/
  | unlisted
  /-- Raised by the bus port: a write to a token window (R156). Safe: the spec's own response. -/
  | tokenWrite
  /-- Raised by the bus port: a read of a token record at t >= TOKCAP (R156). Safe: the spec's own response. -/
  | tokenRecord
deriving DecidableEq, Repr

/-- Why the model has no meaning for an instruction. -/
inductive Refusal where
  /-- Raised by exec's arm for an instruction without a meaning, by its mnemonic. Safe: nothing is claimed of it. No
  arm of this model is of that kind. -/
  | notModelled (mnemonic : String)
deriving DecidableEq, Repr

/-- The bus port's answer to a transaction (20_memory.md R150). -/
inductive Response where
  /-- OK, with the word read. -/
  | data (v : Word)
  /-- OK, to a write. -/
  | done
  /-- ERR, which the model reports as a bus fault; the data of a read is 0. -/
  | err (why : Fault)
deriving DecidableEq, Repr

/-- One thing that comes from outside the block or moves the engine. The list of them in the state says what happens
next, and so stands for every host and every command latency (log 1). -/
inductive Input where
  /-- `MemRead(a, 4)` (20_memory.md R150). -/
  | read (a : Addr)
  /-- `MemWrite(a, 4, v)` (20_memory.md R150). -/
  | write (a : Addr) (v : Word)
  /-- The engine's turn: a running command completes (40_command_cycle.md R257). -/
  | engine
  /-- The level of the `rst_n` pin (00_scope.md R8, log 11). -/
  | rstN (level : Bool)
deriving DecidableEq, Repr

structure State where
  /-- The build's parameters (00_scope.md R9). MODEL's own field; no step changes it (log 3). -/
  params : Params
  /-- The level of `rst_n`: false holds the block in reset (70_reset_and_hazards.md R700). -/
  rstN : Bool
  /-- What comes from outside, in order. MODEL's own field (log 1). -/
  inputs : List Input
  /-- The bus port's last answer, if it has given one (20_memory.md R150). -/
  resp : Option Response
  /-- How many unspecified reads there have been. MODEL's own field (log 7). -/
  freeCount : Nat
  /-- `CTRL.IE` (10_state.md R55). -/
  ie : Bool
  /-- `STATUS` (10_state.md R56). -/
  status : Status
  /-- `CMD` readback (10_state.md R57). -/
  cmd : Word
  /-- `ARG0` (10_state.md R58). -/
  arg0 : Word
  /-- `ARG1` (10_state.md R59). -/
  arg1 : Word
  /-- `RES0` (10_state.md R60). -/
  res0 : Word
  /-- `RES1` (10_state.md R61). -/
  res1 : Word
  /-- `ERRCMD` (10_state.md R62). -/
  errcmd : Word
  /-- `BLPTR` (10_state.md R63). -/
  blptr : Word
  /-- The channels' registers and token memories (10_state.md R65 to R76). -/
  chans : Vector Channel 8
  /-- The sample stores `B[c]` (10_state.md R75). -/
  samples : Memory
  /-- What the engine captured at issue (10_state.md R79). -/
  engine : Engine
deriving DecidableEq, Repr

/-- 10_state.md R82, row STATUS. -/
def Status.reset : Status :=
  { busy := false, done := false, found := false, lowrate := false, coll := false, err := .ok }

/-- 10_state.md R82, row CFG: 0x0000_F020. -/
def Cfg.reset : Cfg :=
  { proto := 0, parity := 2, ninebit := false, twostop := false, cpha := false, cpol := false, clksrc := 0xF }

/-- 10_state.md R82, rows CFG, BAUD, RATE, LEN, TOKCNT and TOK. -/
def Channel.reset : Channel :=
  { cfg := Cfg.reset, baud := 9600, rate := 0, len := 0, tokens := [] }

/-- The reset state of a build (10_state.md R82), with `rst_n` high, nothing to come from outside and no answer given. -/
def State.resetOf (p : Params) : State :=
  { params := p
    rstN := true
    inputs := []
    resp := none
    freeCount := 0
    ie := false
    status := Status.reset
    cmd := 0
    arg0 := 0
    arg1 := 0
    res0 := 0
    res1 := 0
    errcmd := 0
    blptr := 0
    chans := Vector.replicate 8 Channel.reset
    samples := []
    engine := Engine.idle }

/-- The machine right after reset, in the reference build (10_state.md R82, 70_reset_and_hazards.md R700). -/
def State.reset : State := State.resetOf Params.reference

end Sys2Proof.Machine
end

