-- ==== Sys2Proof/Machine/Operands.lean ====
section
/-! DEFINITION. Operand forms: how the captured ARG0 and ARG1 are read (30_encoding.md R204), the integer operators of
00_scope.md R14, and the fields of `CFG[c]` (10_state.md R65). -/

namespace Sys2Proof.Machine

/-- `zext_32` (00_scope.md R12). -/
def zext (w : Word) : Nat := w.toNat

/-- `sext_32` (00_scope.md R12). -/
def sext (w : Word) : Int := w.toInt

/-- Operand kind byte: bits 7:0 (30_encoding.md R204). -/
def byteOperand (w : Word) : Byte := w.extractLsb' 0 8

/-- Operand kind mode: bit 0 (30_encoding.md R204). -/
def modeOperand (w : Word) : Bool := w.getLsbD 0

/-- A non-negative integer stored in a 32-bit register (00_scope.md R12: modulo 2^32). -/
def storeNat (n : Nat) : Word := BitVec.ofNat 32 n

/-- An integer stored in a 32-bit register (00_scope.md R12: modulo 2^32). -/
def storeInt (n : Int) : Word := BitVec.ofInt 32 n

/-- An index result: the index, or NONE (30_encoding.md R205). -/
def indexResult : Option Nat → Word
  | some j => storeNat j
  | none => noneWord

/-- `ceil_div(a, b)` (00_scope.md R14), for b > 0. -/
def ceilDiv (a b : Nat) : Nat := (a + b - 1) / b

/-- The number whose bit i is `f i`, for i below `n`: the first bit read is bit 0. -/
def lsbFirst (f : Nat → Bool) : Nat → Nat
  | 0 => 0
  | n + 1 => lsbFirst f n + (f n).toNat * 2 ^ n

/-- The number whose bits are listed from the most significant one. -/
def msbFirst (bits : List Bool) : Nat :=
  bits.foldl (fun v b => 2 * v + b.toNat) 0

/-- `popcount(v[n-1:0])` (00_scope.md R14). -/
def popcountBelow (v : Nat) : Nat → Nat
  | 0 => 0
  | n + 1 => popcountBelow v n + (v.testBit n).toNat

/-- RATE and BAUD are legal from 1 to 2^31-1 (10_state.md R71, R72). -/
def legalRate (w : Word) : Bool :=
  decide (1 ≤ zext w) && decide (zext w ≤ 2 ^ 31 - 1)

/-- The channel a 4-bit field names: 0..NCH-1, or none for NCH or more (30_encoding.md R202 for CH, 10_state.md R69 for
CLKSRC). -/
def channelOf (f : BitVec 4) : Option Chan :=
  if h : f.toNat < 8 then some ⟨f.toNat, h⟩ else none

/-- The fields of a word written to `CFG[c]`; reserved bits are ignored (10_state.md R64, R65). -/
def Cfg.ofWord (w : Word) : Cfg :=
  { proto := w.extractLsb' 0 3
    parity := w.extractLsb' 4 2
    ninebit := w.getLsbD 6
    twostop := w.getLsbD 7
    cpha := w.getLsbD 8
    cpol := w.getLsbD 9
    clksrc := w.extractLsb' 12 4 }

/-- The word a read of `CFG[c]` returns; reserved bits read 0 (10_state.md R64, R65). -/
def Cfg.toWord (f : Cfg) : Word :=
  (0#16 ++ f.clksrc ++ 0#2 ++ BitVec.ofBool f.cpol ++ BitVec.ofBool f.cpha ++ BitVec.ofBool f.twostop
    ++ BitVec.ofBool f.ninebit ++ f.parity ++ 0#1 ++ f.proto : BitVec 32)

/-- `getSPIMode()`: CFG[c][9:8] = CPOL, CPHA (10_state.md R69). -/
def Cfg.spiMode (f : Cfg) : BitVec 2 := BitVec.ofBool f.cpol ++ BitVec.ofBool f.cpha

/-- The two parity checks of 44_uart.md R388. -/
inductive Parity where
  | even
  | odd
deriving DecidableEq, Repr

/-- The UART's parity mode: None with NINEBIT = 1, else PARITY 0 Even, 1 Odd, 2 None (10_state.md R67). PARITY = 3 is
stopped by a check before this is used (40_command_cycle.md R252). -/
def Cfg.uartParity (f : Cfg) : Option Parity :=
  if f.ninebit then none
  else if f.parity = 0 then some .even
  else if f.parity = 1 then some .odd
  else none

/-- `CHSTAT.HASCLK` (10_state.md R74): PROTO is I2C or SPI. -/
def Cfg.hasClk (f : Cfg) : Bool := f.proto == 2 || f.proto == 3

/-- `CFG[c].CLKSRC`: the clock channel, or none when unbound (10_state.md R69). -/
def Cfg.clock (f : Cfg) : Option Chan := channelOf f.clksrc

end Sys2Proof.Machine
end

