-- ==== Sys2Proof/Machine/Flags.lean ====
section
/-! DEFINITION. `STATUS`, `CTRL` and `irq`: the bits of each and every rule that sets or clears one. -/

namespace Sys2Proof.Machine

/-- The code in STATUS.ERR (60_exceptions.md R600). -/
def ErrCode.code : ErrCode → BitVec 4
  | .ok => 0
  | .ebadop => 1
  | .ebadch => 2
  | .ecfg => 3
  | .enoclk => 4
  | .eidx => 5
  | .etokovf => 6
  | .eowambig => 7
  | .enotimpl => 8

/-- The word a read of `STATUS` returns (10_state.md R56). -/
def Status.toWord (f : Status) : Word :=
  (0#20 ++ f.err.code ++ 0#3 ++ BitVec.ofBool f.coll ++ BitVec.ofBool f.lowrate ++ BitVec.ofBool f.found
    ++ BitVec.ofBool f.done ++ BitVec.ofBool f.busy : BitVec 32)

/-- The issue of a command (40_command_cycle.md R250): BUSY set; DONE, FOUND, LOWRATE and ERR cleared; COLL kept. -/
def Status.issue (f : Status) : Status :=
  { f with busy := true, done := false, found := false, lowrate := false, err := .ok }

/-- Completion (40_command_cycle.md R254). -/
def Status.finish (found lowrate : Bool) (f : Status) : Status :=
  { f with busy := false, done := true, found := found, lowrate := lowrate, err := .ok }

/-- Abort (60_exceptions.md R605). -/
def Status.abort (e : ErrCode) (f : Status) : Status :=
  { f with busy := false, done := true, found := false, lowrate := false, err := e }

/-- A host write to `STATUS`: DONE (bit 1) and COLL (bit 4) are write 1 to clear, every other bit is ignored
(10_state.md R56). -/
def Status.hostWrite (v : Word) (f : Status) : Status :=
  { f with done := f.done && !v.getLsbD 1, coll := f.coll && !v.getLsbD 4 }

/-- The word a read of `CTRL` returns: IE in bit 0, SRST and the reserved bits read 0 (10_state.md R55). -/
def ctrlWord (ie : Bool) : Word := (0#31 ++ BitVec.ofBool ie : BitVec 32)

/-- `irq` = CTRL.IE and STATUS.DONE, at every instant (60_exceptions.md R620). -/
def State.irq (s : State) : Bool := s.ie && s.status.done

end Sys2Proof.Machine
end

