-- ==== Sys2Proof/Machine/Ops.lean ====
section
/-! DEFINITION. The named operations: the sample store, the channels' registers, the edge searches, token emission, the
command cycle (issue, checks, completion) and taking an error (abort). -/

namespace Sys2Proof.Machine

/-! ## The sample store as memory -/

/-- The byte at an address; an unlisted address reads 0 (10_state.md R75: every sample is 0 after reset). -/
def Memory.read : Memory → Nat → Byte
  | [], _ => 0
  | (k, v) :: m, a => if a = k then v else Memory.read m a

/-- `m` without any entry at `a`. -/
def Memory.erase (m : Memory) (a : Nat) : Memory := m.filter (fun p => !(p.1 == a))

/-- The entry (a, v) put before the first entry at a higher address. -/
def Memory.insert : Memory → Nat → Byte → Memory
  | [], a, v => [(a, v)]
  | (k, w) :: m, a, v => if a < k then (a, v) :: (k, w) :: m else (k, w) :: Memory.insert m a v

/-- Write one byte. Writing what an unlisted address reads as removes the entry, so the canonical form is kept. -/
def Memory.write (m : Memory) (a : Nat) (v : Byte) : Memory :=
  if v = 0 then m.erase a else (m.erase a).insert a v

/-- The byte `x` with bit `c` set to `v`. -/
def setBit (x : Byte) (c : Chan) (v : Bool) : Byte :=
  if v then x ||| BitVec.twoPow 8 c else x &&& ~~~(BitVec.twoPow 8 c)

/-- `B[c][i] <- v`. -/
def Memory.setSample (m : Memory) (c : Chan) (i : Nat) (v : Bool) : Memory :=
  m.write i (setBit (m.read i) c v)

/-- `B[c][i] <- v` for the `n` indices from `lo` (41_sample_buffer.md R288, R289). -/
def Memory.fill (c : Chan) (v : Bool) : Nat → Nat → Memory → Memory
  | _, 0, m => m
  | lo, n + 1, m => Memory.fill c v (lo + 1) n (m.setSample c lo v)

/-- `B[c][i] <- 0` for every i (41_sample_buffer.md R292). -/
def Memory.clearChan (c : Chan) (m : Memory) : Memory :=
  m.filterMap (fun p => let x := setBit p.2 c false
    if x = 0 then none else some (p.1, x))

/-! ## Channels and samples of the state -/

/-- The registers and tokens of channel `c`. -/
def State.chan (s : State) (c : Chan) : Channel := s.chans[c]

/-- Replace the registers and tokens of channel `c`. -/
def State.setChan (s : State) (c : Chan) (x : Channel) : State := { s with chans := s.chans.set c x }

/-- `f` on every channel. -/
def mapChans (f : Channel → Channel) (v : Vector Channel 8) : Vector Channel 8 :=
  #v[f v[0], f v[1], f v[2], f v[3], f v[4], f v[5], f v[6], f v[7]]

/-- `LEN[c]` (10_state.md R70). -/
def State.len (s : State) (c : Chan) : Nat := zext (s.chan c).len

/-- `TOKCNT[c]` (10_state.md R73). -/
def State.tokcnt (s : State) (c : Chan) : Nat := (s.chan c).tokens.length

/-- `RATE[c]` as an integer (10_state.md R72). -/
def State.rate (s : State) (c : Chan) : Nat := zext (s.chan c).rate

/-- `B[c][i]` as the sample store holds it (10_state.md R75). -/
def State.bit (s : State) (c : Chan) (i : Nat) : Bool := (s.samples.read i).getLsbD c

/-- `get(c, i)`: `B[c][i]` for i below CAP, else 0 (00_scope.md R13). -/
def State.get (s : State) (c : Chan) (i : Nat) : Bool :=
  decide (i < s.params.cap) && s.bit c i

/-- `LEN[c] <- max(LEN[c], i)` (10_state.md R70). -/
def State.extendLen (s : State) (c : Chan) (i : Nat) : State :=
  s.setChan c { s.chan c with len := storeNat (max (s.len c) i) }

/-- `wr(c, i, v)` (41_sample_buffer.md R284), for i below CAP. -/
def State.wr (s : State) (c : Chan) (i : Nat) (v : Bool) : State :=
  ({ s with samples := s.samples.setSample c i v }).extendLen c i

/-- The ranged write of samples lo..hi, both ends included (41_sample_buffer.md R288, R289), for lo <= hi < CAP. -/
def State.wrRange (s : State) (c : Chan) (lo hi : Nat) (v : Bool) : State :=
  ({ s with samples := Memory.fill c v lo (hi + 1 - lo) s.samples }).extendLen c hi

/-! ## Edge search -/

/-- The least k with `p k` among the `n` indices from `lo`. -/
def firstFrom (p : Nat → Bool) : Nat → Nat → Option Nat
  | _, 0 => none
  | lo, n + 1 => if p lo then some lo else firstFrom p (lo + 1) n

/-- The least k with from <= k < L and `p k`. -/
def firstIn (p : Nat → Bool) (lo L : Nat) : Option Nat := firstFrom p lo (L - lo)

/-- The search both edge functions make below LEN[c]: the first sample at the level `before` at or after `start`, then
the first later sample at the other level (41_sample_buffer.md R280, R281). -/
def State.edgeFrom (s : State) (c : Chan) (before : Bool) (start : Nat) : Option Nat :=
  match firstIn (fun k => s.get c k == before) start (s.len c) with
  | none => none
  | some i => firstIn (fun k => s.get c k == !before) (i + 1) (s.len c)

/-- `nfe(c, from)` for from >= 0 (41_sample_buffer.md R280). -/
def State.nfeNat (s : State) (c : Chan) (start : Nat) : Option Nat := s.edgeFrom c true start

/-- `nre(c, from)` for from >= 0 (41_sample_buffer.md R281). -/
def State.nreNat (s : State) (c : Chan) (start : Nat) : Option Nat := s.edgeFrom c false start

/-- `nfe(c, from)` (41_sample_buffer.md R280): NONE at once for a negative start. -/
def State.nfe (s : State) (c : Chan) (start : Int) : Option Nat :=
  if start < 0 then none else s.nfeNat c start.toNat

/-- `nre(c, from)` (41_sample_buffer.md R281): NONE at once for a negative start. -/
def State.nre (s : State) (c : Chan) (start : Int) : Option Nat :=
  if start < 0 then none else s.nreNat c start.toNat

/-- A high pulse: its rising edge, its falling edge and its midpoint (41_sample_buffer.md R282). -/
structure Pulse where
  rise : Nat
  fall : Nat
  mid : Nat
deriving DecidableEq, Repr

/-- `pulse(c, from)` (41_sample_buffer.md R282). -/
def State.pulse (s : State) (c : Chan) (start : Int) : Option Pulse :=
  match s.nre c start with
  | none => none
  | some r =>
    match s.nfeNat c r with
    | none => none
    | some f => some { rise := r, fall := f, mid := r + (f - r) / 2 }

/-- `period(c)` (43_clock.md R360): the gap between the first two rising edges from index 0. -/
def State.period (s : State) (c : Chan) : Option Nat :=
  match s.nreNat c 0 with
  | none => none
  | some r1 =>
    match s.nreNat c r1 with
    | none => none
    | some r2 => some (r2 - r1)

/-! ## The command cycle -/

/-- The results a body names at `finish` (40_command_cycle.md R254). A register the body does not name is kept. -/
structure Results where
  res0 : Option Word
  res1 : Option Word
  found : Bool
  lowrate : Bool
deriving DecidableEq, Repr

/-- A body that names no result. -/
def Results.none : Results := { res0 := Option.none, res1 := Option.none, found := false, lowrate := false }

/-- A search's results (30_encoding.md R205). -/
def Results.search (r0 : Word) (r1 : Option Word) (found : Bool) : Results :=
  { res0 := some r0, res1 := r1, found := found, lowrate := false }

/-- A decode's results: it names only LOWRATE (42_decode_common.md R330, R337). -/
def Results.decoded (low : Bool) : Results :=
  { res0 := Option.none, res1 := Option.none, found := false, lowrate := low }

/-- The outcome of a command. -/
abbrev Result := Host.Outcome State Fault Refusal

/-- Issue of the word `w` (40_command_cycle.md R250) with the operand capture (R251). -/
def State.issue (s : State) (w : Word) : State :=
  { s with cmd := w, status := s.status.issue, engine := { cw := w, a0 := s.arg0, a1 := s.arg1 } }

/-- `finish` (40_command_cycle.md R254). Nothing of the engine's transient state survives (10_state.md R79). -/
def State.finish (s : State) (r : Results) : State :=
  { s with
    res0 := r.res0.getD s.res0
    res1 := r.res1.getD s.res1
    status := s.status.finish r.found r.lowrate
    engine := Engine.idle }

/-- TAKING AN ERROR: `raise E` (60_exceptions.md R605). STATUS.ERR gets the code, ERRCMD the captured command word;
FOUND and LOWRATE are cleared, BUSY falls and DONE rises. There is no handler and no return instruction (R609): the
block is idle again, and the next accepted `CMD` write clears ERR. -/
def State.raise (s : State) (e : ErrCode) : State :=
  { s with
    status := s.status.abort e
    errcmd := s.engine.cw
    engine := Engine.idle }

/-- A command that completes. -/
def complete (s : State) (r : Results) : Result := .next (s.finish r)

/-- A command that aborts. -/
def abort (s : State) (e : ErrCode) : Result := .next (s.raise e)

/-- Check 1 for an illegal word (40_command_cycle.md R252): the engine found no command in the word it captured. -/
def execIllegal (s : State) : Result := abort s .ebadop

/-- Check 2 (40_command_cycle.md R252): CH names a channel, else EBADCH. -/
def withChannel (ch : BitVec 4) (s : State) (k : Chan → Result) : Result :=
  match channelOf ch with
  | some c => k c
  | none => abort s .ebadch

/-- Check 1 for an OW command (40_command_cycle.md R252, 30_encoding.md R206 point 3). -/
def withOw (s : State) (k : Result) : Result :=
  if s.params.hasOw then k else abort s .ebadop

/-- Check 4 on RATE (40_command_cycle.md R252). -/
def withRate (c : Chan) (s : State) (k : Result) : Result :=
  if legalRate (s.chan c).rate then k else abort s .ecfg

/-- Check 5 (40_command_cycle.md R252): the clock source of channel `c`, else ENOCLK. -/
def withClock (c : Chan) (s : State) (k : Chan → Result) : Result :=
  match (s.chan c).cfg.clock with
  | some d => k d
  | none => abort s .enoclk

/-- Check 6 for one index (40_command_cycle.md R252). -/
def withIndex (i : Nat) (s : State) (k : Result) : Result :=
  if i < s.params.cap then k else abort s .eidx

/-- Check 6 for a range (40_command_cycle.md R252). -/
def withRange (lo hi : Nat) (s : State) (k : Result) : Result :=
  if lo ≤ hi ∧ hi < s.params.cap then k else abort s .eidx

/-! ## Tokens -/

/-- The KIND codes of 30_encoding.md R221 that a command emits, and I_RSTART, which none does (R222). -/
inductive Kind where
  | uStart
  | uData
  | uParOk
  | uParBad
  | uStop
  | uStop1
  | uStop2
  | iStart
  | iRstart
  | iStop
  | iRead
  | iWrite
  | iAck
  | iNak
  | iByte
  | iAddr
  | iErr
  | sWord
deriving DecidableEq, Repr

/-- The KIND codes (30_encoding.md R221). -/
def Kind.code : Kind → Nat
  | .uStart => 0x01
  | .uData => 0x02
  | .uParOk => 0x03
  | .uParBad => 0x04
  | .uStop => 0x05
  | .uStop1 => 0x06
  | .uStop2 => 0x07
  | .iStart => 0x10
  | .iRstart => 0x11
  | .iStop => 0x12
  | .iRead => 0x13
  | .iWrite => 0x14
  | .iAck => 0x15
  | .iNak => 0x16
  | .iByte => 0x17
  | .iAddr => 0x18
  | .iErr => 0x19
  | .sWord => 0x20

/-- The arguments of one `emit` on a channel (42_decode_common.md R331). -/
structure Emit where
  kind : Kind
  nbits : Nat
  value : Nat
  first : Nat
  last : Nat
deriving DecidableEq, Repr

/-- The record an `emit` appends (42_decode_common.md R331), with the end collapsed to the start when it lies below it
(R332). -/
def Emit.record (t : Emit) : Token :=
  { word0 := storeNat (t.kind.code + 256 * t.nbits + 65536 * t.value)
    word1 := storeNat t.first
    word2 := storeNat (if t.last < t.first then t.first else t.last)
    word3 := 0 }

/-- KIND, word 0 bits 7:0 (30_encoding.md R220). -/
def Token.kindCode (t : Token) : Nat := (t.word0.extractLsb' 0 8).toNat

/-- NBITS, word 0 bits 11:8 (30_encoding.md R220). -/
def Token.nbits (t : Token) : Nat := (t.word0.extractLsb' 8 4).toNat

/-- VALUE, word 0 bits 24:16 (30_encoding.md R220). -/
def Token.value (t : Token) : Nat := (t.word0.extractLsb' 16 9).toNat

/-- A body part-way: it goes on, or it has raised an error. -/
inductive Progress where
  | going (s : State)
  | aborted (s : State) (e : ErrCode)
deriving DecidableEq, Repr

/-- `emit` (42_decode_common.md R331): ETOKOVF when the token memory is full (R333). -/
def State.emit (s : State) (c : Chan) (t : Emit) : Progress :=
  if s.params.tokcap ≤ s.tokcnt c then .aborted s .etokovf
  else .going (s.setChan c { s.chan c with tokens := (s.chan c).tokens ++ [t.record] })

/-- A list of `emit`s in order, up to the first that overflows (42_decode_common.md R333). -/
def State.emitAll (c : Chan) : List Emit → State → Progress
  | [], s => .going s
  | t :: ts, s =>
    match s.emit c t with
    | .going s' => State.emitAll c ts s'
    | .aborted s' e => .aborted s' e

/-- A frame's tokens, all or none (44_uart.md R390): room for the whole frame is checked first. -/
def State.emitFrame (s : State) (c : Chan) (ts : List Emit) : Progress :=
  if s.params.tokcap < s.tokcnt c + ts.length then .aborted s .etokovf else State.emitAll c ts s

/-- A list of frames in order, up to the first that does not fit. -/
def State.emitFrames (c : Chan) : List (List Emit) → State → Progress
  | [], s => .going s
  | f :: fs, s =>
    match s.emitFrame c f with
    | .going s' => State.emitFrames c fs s'
    | .aborted s' e => .aborted s' e

/-- How a decode's body ends (40_command_cycle.md R253): `finish` with LOWRATE, or the error it raised. -/
def endDecode (low : Bool) : Progress → Result
  | .going s => complete s (Results.decoded low)
  | .aborted s e => abort s e

end Sys2Proof.Machine
end

