-- ==== Sys2Proof/Machine/Bus.lean ====
section
/-! DEFINITION. The bus slave port: the address map (20_memory.md R155), reads, writes, the soft reset, and the pin
`rst_n`. -/

namespace Sys2Proof.Machine

/-- What is at a listed address (20_memory.md R155). -/
inductive Reg where
  | id
  | params
  | capr
  | tokcapr
  | ctrl
  | status
  | cmd
  | arg0
  | arg1
  | res0
  | res1
  | errcmd
  | blptr
  | cfg (c : Chan)
  | baud (c : Chan)
  | rate (c : Chan)
  | len (c : Chan)
  | tokcnt (c : Chan)
  | chstat (c : Chan)
  /-- Word `w` of token record `t` of channel `c`. -/
  | tok (c : Chan) (t : Nat) (w : Fin 4)
deriving DecidableEq, Repr

/-- The global registers in address order from 0x0_0000 (20_memory.md R155). -/
def globalRegs : List Reg :=
  [.id, .params, .capr, .tokcapr, .ctrl, .status, .cmd, .arg0, .arg1, .res0, .res1, .errcmd, .blptr]

/-- The registers of channel `c` in address order from 0x0_0100 + 0x20·c (20_memory.md R155). -/
def channelRegs (c : Chan) : List Reg :=
  [.cfg c, .baud c, .rate c, .len c, .tokcnt c, .chstat c]

/-- The listed thing at a byte address, or why the port answers ERR (20_memory.md R153, R155 to R157). -/
def regAt (tokcap : Nat) (a : Addr) : Except Fault Reg :=
  let x := a.toNat
  if x % 4 ≠ 0 then .error .misaligned
  else if x < 0x100 then
    match globalRegs[x / 4]? with
    | some r => .ok r
    | none => .error .unlisted
  else if x < 0x200 then
    match (channelRegs (Fin.ofNat 8 ((x - 0x100) / 0x20)))[(x % 0x20) / 4]? with
    | some r => .ok r
    | none => .error .unlisted
  else if x < 0x10000 then .error .unlisted
  else if x < 0x90000 then
    if (x % 0x10000) / 16 < tokcap then
      .ok (.tok (Fin.ofNat 8 (x / 0x10000 - 1)) ((x % 0x10000) / 16) (Fin.ofNat 4 ((x % 16) / 4)))
    else .error .tokenRecord
  else .error .unlisted

/-- The address lies in a token window (20_memory.md R156). -/
def inTokenWindow (a : Addr) : Bool := decide (0x10000 ≤ a.toNat) && decide (a.toNat < 0x90000)

/-- The byte address of a listed thing (20_memory.md R155). -/
def Reg.addr : Reg → Addr
  | .id => 0x00000
  | .params => 0x00004
  | .capr => 0x00008
  | .tokcapr => 0x0000C
  | .ctrl => 0x00010
  | .status => 0x00014
  | .cmd => 0x00018
  | .arg0 => 0x0001C
  | .arg1 => 0x00020
  | .res0 => 0x00024
  | .res1 => 0x00028
  | .errcmd => 0x0002C
  | .blptr => 0x00030
  | .cfg c => BitVec.ofNat 20 (0x100 + 0x20 * c.val)
  | .baud c => BitVec.ofNat 20 (0x100 + 0x20 * c.val + 0x04)
  | .rate c => BitVec.ofNat 20 (0x100 + 0x20 * c.val + 0x08)
  | .len c => BitVec.ofNat 20 (0x100 + 0x20 * c.val + 0x0C)
  | .tokcnt c => BitVec.ofNat 20 (0x100 + 0x20 * c.val + 0x10)
  | .chstat c => BitVec.ofNat 20 (0x100 + 0x20 * c.val + 0x14)
  | .tok c t w => BitVec.ofNat 20 (0x10000 * (c.val + 1) + 16 * t + 4 * w.val)

/-- `ID` (10_state.md R51). -/
def idWord : Word := 0x50444531#32

/-- `PARAMS` (10_state.md R52, R82). -/
def Params.word (p : Params) : Word :=
  (0#26 ++ BitVec.ofBool p.stopEdgeCheck ++ BitVec.ofBool p.hasOw ++ 8#4 : BitVec 32)

/-- `CHSTAT[c]` (10_state.md R74): HASCLK in bit 0, TOKFULL in bit 1. -/
def State.chstat (s : State) (c : Chan) : Word :=
  (0#30 ++ BitVec.ofBool (s.tokcnt c == s.params.tokcap) ++ BitVec.ofBool (s.chan c).cfg.hasClk : BitVec 32)

/-- Word `w` of a token record (30_encoding.md R220). -/
def Token.word (t : Token) (w : Fin 4) : Word :=
  match w with
  | 0 => t.word0
  | 1 => t.word1
  | 2 => t.word2
  | 3 => t.word3

/-- The value a read of a listed thing returns, or none where the spec leaves the value unspecified: a token record at or
above TOKCNT (10_state.md R76). -/
def State.regValue (s : State) : Reg → Option Word
  | .id => some idWord
  | .params => some (Params.word s.params)
  | .capr => some (storeNat s.params.cap)
  | .tokcapr => some (storeNat s.params.tokcap)
  | .ctrl => some (ctrlWord s.ie)
  | .status => some s.status.toWord
  | .cmd => some s.cmd
  | .arg0 => some s.arg0
  | .arg1 => some s.arg1
  | .res0 => some s.res0
  | .res1 => some s.res1
  | .errcmd => some s.errcmd
  | .blptr => some s.blptr
  | .cfg c => some (s.chan c).cfg.toWord
  | .baud c => some (s.chan c).baud
  | .rate c => some (s.chan c).rate
  | .len c => some (s.chan c).len
  | .tokcnt c => some (storeNat (s.tokcnt c))
  | .chstat c => some (s.chstat c)
  | .tok c t w => ((s.chan c).tokens[t]?).map (fun r => r.word w)

/-- The running command may be changing it, so a read while BUSY = 1 is unspecified (70_reset_and_hazards.md R712). -/
def Reg.volatile : Reg → Bool
  | .res0 => true
  | .res1 => true
  | .errcmd => true
  | .blptr => true
  | .len _ => true
  | .tokcnt _ => true
  | .chstat _ => true
  | .tok _ _ _ => true
  | .id => false
  | .params => false
  | .capr => false
  | .tokcapr => false
  | .ctrl => false
  | .status => false
  | .cmd => false
  | .arg0 => false
  | .arg1 => false
  | .cfg _ => false
  | .baud _ => false
  | .rate _ => false

/-- What a read of a listed thing returns now, or none when it is unspecified. -/
def State.readNow (s : State) (r : Reg) : Option Word :=
  if s.status.busy && r.volatile then none else s.regValue r

/-- The data the host sees with an answer: 0 with ERR (20_memory.md R150), and no data, given as 0, with an OK to a
write. -/
def Response.readData : Response → Word
  | .data v => v
  | .done => 0
  | .err _ => 0

/-- The port's answer is `r`. -/
def State.respond (s : State) (r : Response) : State := { s with resp := some r }

/-- `MemRead(a, 4)` (20_memory.md R150). No read changes the block (R160). An unspecified word is a free value, one for
each such read (logs 5, 6 and 7). -/
def State.busRead (s : State) (a : Addr) : State :=
  match regAt s.params.tokcap a with
  | .error f => s.respond (.err f)
  | .ok r =>
    match s.readNow r with
    | some v => s.respond (.data v)
    | none =>
      ({ s with freeCount := s.freeCount + 1 }).respond (.data (Config.unspecifiedWord s.freeCount))

/-- Every piece of state of the block takes its reset value (10_state.md R82). The model's own fields and the pin are no
state of the block and are kept (log 17). -/
def State.blockReset (s : State) : State :=
  { State.resetOf s.params with rstN := s.rstN, inputs := s.inputs, resp := s.resp, freeCount := s.freeCount }

/-- A host write that the engine accepts only when BUSY = 0; else it is ignored and sets COLL
(70_reset_and_hazards.md R710). -/
def State.whenIdle (s : State) (t : State) : State :=
  if s.status.busy then { s with status := { s.status with coll := true } } else t

/-- A host write to a listed register (20_memory.md R161; read-only registers ignore it, 10_state.md R64). -/
def State.writeReg (s : State) (r : Reg) (v : Word) : State :=
  match r with
  | .ctrl => if v.getLsbD 1 then s.blockReset else { s with ie := v.getLsbD 0 }
  | .status => { s with status := s.status.hostWrite v }
  | .cmd => s.whenIdle (s.issue v)
  | .arg0 => s.whenIdle { s with arg0 := v }
  | .arg1 => s.whenIdle { s with arg1 := v }
  | .cfg c => s.whenIdle (s.setChan c { s.chan c with cfg := Cfg.ofWord v })
  | .baud c => s.whenIdle (s.setChan c { s.chan c with baud := v })
  | .rate c => s.whenIdle (s.setChan c { s.chan c with rate := v })
  | .id => s
  | .params => s
  | .capr => s
  | .tokcapr => s
  | .res0 => s
  | .res1 => s
  | .errcmd => s
  | .blptr => s
  | .len _ => s
  | .tokcnt _ => s
  | .chstat _ => s
  | .tok _ _ _ => s

/-- `MemWrite(a, 4, v)` (20_memory.md R150). A write to a token window answers ERR and changes nothing (R156). -/
def State.busWrite (s : State) (a : Addr) (v : Word) : State :=
  match regAt s.params.tokcap a with
  | .error f => s.respond (.err f)
  | .ok r => if inTokenWindow a then s.respond (.err .tokenWrite) else (s.writeReg r v).respond .done

/-- The block while `rst_n` = 0 (70_reset_and_hazards.md R700): every piece of its state at its reset value, no bus
transaction answered (log 11). -/
def State.heldReset (s : State) : State := { s.blockReset with resp := none }

/-- The pin `rst_n` takes a level. Low resets the block (70_reset_and_hazards.md R700, R702). -/
def State.setRstN (s : State) (level : Bool) : State :=
  if s.rstN && level then s else { s.heldReset with rstN := level }

/-- Byte `k` of a word, byte 0 the least significant (20_memory.md R152). -/
def wordByte (w : Word) (k : Fin 4) : Byte := w.extractLsb' (8 * k.val) 8

/-- The block's bus address in the host's address space (20_memory.md R158, log 16). -/
def hostAddress (a : Addr) : Nat := Config.pdeBase + a.toNat

end Sys2Proof.Machine
end

