-- ==== Sys2Proof/Machine/Clock.lean ====
section
/-! DEFINITION. The clock measurement commands (43_clock.md R360 to R363). -/

namespace Sys2Proof.Machine

/-- RATE/T to the nearest integer, halves up (43_clock.md R361). -/
def roundedFrequency (rate T : Nat) : Nat := (2 * rate + T) / (2 * T)

/-- `CLKFREQ cN` (43_clock.md R361). -/
def execClkfreq (ch : BitVec 4) (s : State) : Result :=
  withChannel ch s fun c =>
    withRate c s <|
      match s.period c with
      | none => complete s (Results.search noneWord (some noneWord) false)
      | some T => complete s (Results.search (storeNat (roundedFrequency (s.rate c) T)) (some (storeNat T)) true)

/-- FREQ - RATE/(T+1) in Q32.32, to the nearest 2^-32 with halves up (43_clock.md R362). `/` is the floor, also of a
negative dividend, since the divisor is positive (00_scope.md R14). -/
def tolerance (rate T : Nat) : Int :=
  let D : Int := T + 1
  let X : Int := roundedFrequency rate T * D - rate
  (2 * X * 2 ^ 32 + D) / (2 * D)

/-- The tolerance of channel `c`, or -1.0 when there is no period (43_clock.md R362). -/
def State.toleranceOf (s : State) (c : Chan) : Int :=
  match s.period c with
  | none => -(2 ^ 32)
  | some T => tolerance (s.rate c) T

/-- `CLKTOL cN` (43_clock.md R362). RES1:RES0 is the 64-bit two's complement of the tolerance. -/
def execClktol (ch : BitVec 4) (s : State) : Result :=
  withChannel ch s fun c =>
    withRate c s <|
      complete s (Results.search (storeInt (s.toleranceOf c)) (some (storeInt (s.toleranceOf c / 2 ^ 32)))
        (s.period c).isSome)

end Sys2Proof.Machine
end

