-- ==== Sys2Proof/Machine/Control.lean ====
section
/-! DEFINITION. The command that only completes: `NOP` (40_command_cycle.md R255). -/

namespace Sys2Proof.Machine

/-- `NOP` (40_command_cycle.md R255). CH is ignored. -/
def execNop (s : State) : Result := complete s Results.none

end Sys2Proof.Machine
end

