-- ==== Sys2Proof/Machine/I2c.lean ====
section
/-! DEFINITION. The I2C decoder (45_i2c.md R420 to R436). Channel c is SDA, channel k is SCL. As in Uart.lean, the machine
lists the tokens and they are then emitted in order (log 14). -/

namespace Sys2Proof.Machine

/-- The four states of the machine (10_state.md R80, 45_i2c.md R423). -/
inductive I2cState where
  | awaitStart
  | readAddress
  | readByte
  | awaitStop
deriving DecidableEq, Repr

/-- The machine's variables (45_i2c.md R423). -/
structure I2cMachine where
  state : I2cState
  /-- The index from which the next start is searched. -/
  n : Nat
  /-- The SCL position after the last bit read. -/
  cur : Nat
  /-- Whether the last acknowledge bit was ACK. -/
  ack : Bool
deriving DecidableEq, Repr

/-- 45_i2c.md R423: initial state AwaitStart. -/
def I2cMachine.start : I2cMachine := { state := .awaitStart, n := 0, cur := 0, ack := false }

/-- What one turn of the machine does: the tokens it emits, and how it goes on, or none when the decode ends. -/
structure I2cTurn where
  tokens : List Emit
  next : Option I2cMachine
deriving DecidableEq, Repr

/-- A token of the I2C decoder. -/
def i2cToken (kind : Kind) (value first last : Nat) : Emit :=
  { kind := kind, nbits := 0, value := value, first := first, last := last }

/-- A bit read on an SCL pulse, with the pulse's edges (45_i2c.md R425). -/
structure I2cBit where
  bit : Bool
  rise : Nat
  fall : Nat
deriving DecidableEq, Repr

/-- `readbit` from `cur` (45_i2c.md R425). The cursor goes to the bit's falling edge. -/
def State.i2cReadBit (s : State) (c k : Chan) (cur : Nat) : Option I2cBit :=
  match s.pulse k cur with
  | none => none
  | some p => some { bit := s.get c p.mid, rise := p.rise, fall := p.fall }

/-- `n` bits in order from `cur`, or none when one of them cannot be read (45_i2c.md R431). -/
def State.i2cReadBits (s : State) (c k : Chan) : Nat → Nat → Option (List I2cBit)
  | 0, _ => some []
  | n + 1, cur =>
    match s.i2cReadBit c k cur with
    | none => none
    | some b =>
      match State.i2cReadBits s c k n b.fall with
      | none => none
      | some bs => some (b :: bs)

/-- The rising edge of the first bit of a list. -/
def firstRise (bs : List I2cBit) : Nat := (bs.head?.map I2cBit.rise).getD 0

/-- The falling edge of the last bit of a list. -/
def lastFall (bs : List I2cBit) : Nat := (bs.getLast?.map I2cBit.fall).getD 0

/-- The number the bits make, the first one the most significant (45_i2c.md R426, R429). -/
def i2cValue (bs : List I2cBit) : Nat := msbFirst (bs.map I2cBit.bit)

/-- The acknowledge bit after `head`, whose tokens are already emitted (45_i2c.md R428). -/
def State.i2cAck (s : State) (c k : Chan) (m : I2cMachine) (cur : Nat) (head : List Emit) : I2cTurn :=
  match s.i2cReadBit c k cur with
  | none => { tokens := head, next := none }
  | some a =>
    { tokens := head ++ [i2cToken (if a.bit then .iNak else .iAck) 0 a.rise a.fall]
      next := some { m with state := .awaitStop, cur := a.fall, ack := !a.bit } }

/-- AwaitStart (45_i2c.md R424). -/
def State.i2cAwaitStart (s : State) (c k : Chan) (m : I2cMachine) : I2cTurn :=
  match firstIn (fun p => s.get c p && s.get k p) m.n (s.len c) with
  | none => { tokens := [], next := none }
  | some p =>
    match s.nfeNat c p with
    | none => { tokens := [], next := none }
    | some f =>
      if s.get k f then
        { tokens := [i2cToken .iStart 0 f f], next := some { m with state := .readAddress, cur := f } }
      else { tokens := [], next := some { m with n := f + 1 } }

/-- ReadAddress (45_i2c.md R426 to R428): 7 address bits, the direction bit, the acknowledge bit. R/W = 1 is read; the
rule is marked there as general knowledge (log 15). -/
def State.i2cReadAddress (s : State) (c k : Chan) (m : I2cMachine) : I2cTurn :=
  match s.i2cReadBits c k 7 m.cur with
  | none => { tokens := [], next := none }
  | some bs =>
    match s.i2cReadBit c k (lastFall bs) with
    | none => { tokens := [], next := none }
    | some d =>
      s.i2cAck c k m d.fall
        [i2cToken .iAddr (i2cValue bs) (firstRise bs) (lastFall bs),
         i2cToken (if d.bit then .iRead else .iWrite) 0 d.rise d.fall]

/-- ReadByte (45_i2c.md R429): 8 data bits, the first the most significant, then the acknowledge bit. -/
def State.i2cReadByte (s : State) (c k : Chan) (m : I2cMachine) : I2cTurn :=
  match s.i2cReadBits c k 8 m.cur with
  | none => { tokens := [], next := none }
  | some bs => s.i2cAck c k m (lastFall bs) [i2cToken .iByte (i2cValue bs) (firstRise bs) (lastFall bs)]

/-- `stop_found(cur)` with the half period `half` (45_i2c.md R432): the SDA rise and the point of the test. -/
def State.i2cStopFound (s : State) (c k : Chan) (half cur : Nat) : Option (Nat × Nat) :=
  match s.nreNat k cur with
  | none => none
  | some cr =>
    match s.nreNat c cr with
    | none => none
    | some dr =>
      let q := dr + half + 1
      if s.get c q && s.get k q && (!s.params.stopEdgeCheck || s.get k dr) then some (dr, q) else none

/-- AwaitStop (45_i2c.md R430). -/
def State.i2cAwaitStop (s : State) (c k : Chan) (half : Nat) (m : I2cMachine) : I2cTurn :=
  match s.i2cStopFound c k half m.cur with
  | some (dr, q) => { tokens := [i2cToken .iStop 0 dr dr], next := some { m with state := .awaitStart, n := q } }
  | none =>
    if m.ack then { tokens := [], next := some { m with state := .readByte } }
    else { tokens := [i2cToken .iErr 0 m.cur m.cur], next := some { m with state := .awaitStart, n := m.cur } }

/-- One turn of the machine (45_i2c.md R423). -/
def State.i2cTurn (s : State) (c k : Chan) (half : Nat) (m : I2cMachine) : I2cTurn :=
  match m.state with
  | .awaitStart => s.i2cAwaitStart c k m
  | .readAddress => s.i2cReadAddress c k m
  | .readByte => s.i2cReadByte c k m
  | .awaitStop => s.i2cAwaitStop c k half m

/-- The tokens the machine emits from `m`, in at most `fuel` turns. -/
def State.i2cRun (s : State) (c k : Chan) (half : Nat) : Nat → I2cMachine → List Emit
  | 0, _ => []
  | fuel + 1, m =>
    let t := s.i2cTurn c k half m
    match t.next with
    | none => t.tokens
    | some m' => t.tokens ++ State.i2cRun s c k half fuel m'

/-- A bound on the machine's turns (45_i2c.md R435; log 13). -/
def State.i2cFuel (s : State) (c k : Chan) : Nat := 2 * (s.len c + s.len k) + 2

/-- The tokens of a decode of data channel `c` on clock `k`; none without a clock period (45_i2c.md R422). -/
def State.i2cTokens (s : State) (c k : Chan) : List Emit :=
  match s.period k with
  | none => []
  | some T => s.i2cRun c k (T / 2) (s.i2cFuel c k) I2cMachine.start

/-- LOWRATE of an I2C decode (45_i2c.md R422): a period of fewer than 3 samples; no period, no warning. -/
def State.i2cLow (s : State) (k : Chan) : Bool :=
  match s.period k with
  | none => false
  | some T => decide (T < 3)

/-- The checks and the body of the I2C decode of channel `c` (45_i2c.md R420). -/
def decodeI2c (c : Chan) (s : State) : Result :=
  withRate c s <|
    withClock c s fun k =>
      endDecode (s.i2cLow k) (State.emitAll c (s.i2cTokens c k) s)

/-- `DEC.I2C cN` (45_i2c.md R420). -/
def execDecI2c (ch : BitVec 4) (s : State) : Result :=
  withChannel ch s fun c => decodeI2c c s

end Sys2Proof.Machine
end

