-- ==== Sys2Proof/Machine/Spi.lean ====
section
/-! DEFINITION. The SPI decoder (46_spi.md R470 to R478). As in Uart.lean, the edge walk lists the tokens and they are
then emitted in order (log 14). -/

namespace Sys2Proof.Machine

/-- The bits captured and not yet emitted: their value, their count, and the first and last capture edge
(46_spi.md R470). -/
structure SpiAcc where
  acc : Nat
  nb : Nat
  first : Nat
  last : Nat
deriving DecidableEq, Repr

/-- No bit captured. -/
def SpiAcc.empty : SpiAcc := { acc := 0, nb := 0, first := 0, last := 0 }

/-- The S_WORD of the bits captured (46_spi.md R474). -/
def SpiAcc.word (a : SpiAcc) : Emit :=
  { kind := .sWord, nbits := a.nb, value := a.acc, first := a.first, last := a.last }

/-- One more bit `b`, captured at edge `e`; the first bit captured is bit 0 (46_spi.md R473). -/
def SpiAcc.push (a : SpiAcc) (e : Nat) (b : Bool) : SpiAcc :=
  { acc := a.acc + b.toNat * 2 ^ a.nb
    nb := a.nb + 1
    first := if a.nb = 0 then e else a.first
    last := e }

/-- The trailing partial byte; no token has 0 bits (46_spi.md R474). -/
def SpiAcc.flush (a : SpiAcc) : List Emit := if 0 < a.nb then [a.word] else []

/-- The edge walk on clock `k` from `pos` (46_spi.md R472), in at most `fuel` searches. -/
def State.spiWalk (s : State) (c k : Chan) (rising : Bool) : Nat → Nat → SpiAcc → List Emit
  | 0, _, a => a.flush
  | fuel + 1, pos, a =>
    match (if rising then s.nreNat k pos else s.nfeNat k pos) with
    | none => a.flush
    | some e =>
      let a' := a.push e (s.get c e)
      if a'.nb = 8 then a'.word :: State.spiWalk s c k rising fuel e SpiAcc.empty
      else State.spiWalk s c k rising fuel e a'

/-- The capture edge is the rising one when CPOL = CPHA (46_spi.md R471). The rule is marked there as general knowledge
(log 15). -/
def Cfg.captureRising (f : Cfg) : Bool := f.cpol == f.cpha

/-- The tokens of a decode of data channel `c` on clock `k`: at most LEN[k] edges (46_spi.md R477; log 13). -/
def State.spiTokens (s : State) (c k : Chan) : List Emit :=
  s.spiWalk c k (s.chan c).cfg.captureRising (s.len k + 1) 0 SpiAcc.empty

/-- Fewer than 3 samples per clock period (45_i2c.md R422, 46_spi.md R476); no period, no warning. -/
def State.lowClock (s : State) (k : Chan) : Bool :=
  match s.period k with
  | some T => decide (T < 3)
  | none => false

/-- The checks and the body of the SPI decode of channel `c` (46_spi.md R470). -/
def decodeSpi (c : Chan) (s : State) : Result :=
  withRate c s <|
    withClock c s fun k =>
      endDecode (s.lowClock k) (State.emitAll c (s.spiTokens c k) s)

/-- `DEC.SPI cN` (46_spi.md R470). -/
def execDecSpi (ch : BitVec 4) (s : State) : Result :=
  withChannel ch s fun c => decodeSpi c s

end Sys2Proof.Machine
end

