-- ==== Sys2Proof/Machine/Uart.lean ====
section
/-! DEFINITION. The UART decoder (44_uart.md R380 to R394). The scan only reads samples and LEN, and emission writes only
tokens, so the scan is a function that lists the good frames and the frames are then emitted in order (log 14). -/

namespace Sys2Proof.Machine

/-- What the body computes from the configuration before it scans (44_uart.md R380 to R383). -/
structure UartFormat where
  spb : Nat
  half : Nat
  dbits : Nat
  par : Option Parity
  ns : Nat
deriving DecidableEq, Repr

/-- The bit timing and the frame format of channel `c` (44_uart.md R381, R382). -/
def State.uartFormat (s : State) (c : Chan) : UartFormat :=
  let f := (s.chan c).cfg
  let spb := ceilDiv (s.rate c) (zext (s.chan c).baud)
  { spb := spb
    half := ceilDiv spb 2
    dbits := if f.ninebit then 9 else 8
    par := f.uartParity
    ns := if f.twostop then 2 else 1 }

/-- Whether the parity bit `p` is correct for the data `v` (44_uart.md R388). The rule is marked there as general
knowledge (log 15). -/
def parityCorrect (mode : Parity) (v : Nat) (p : Bool) : Bool :=
  match mode with
  | .even => (popcountBelow v 9 + p.toNat) % 2 == 0
  | .odd => (popcountBelow v 9 + p.toNat) % 2 == 1

/-- The tokens of a good frame with left edge `e`, data `v` and parity sample `p` (44_uart.md R390). -/
def frameTokens (u : UartFormat) (e v : Nat) (p : Bool) : List Emit :=
  let b := 1 + u.dbits
  let cell (kind : Kind) (value i j : Nat) : Emit :=
    { kind := kind, nbits := 0, value := value, first := e + i * u.spb, last := e + j * u.spb }
  let b' := if u.par.isSome then b + 1 else b
  [cell .uStart 0 0 1, cell .uData v 1 b]
    ++ (match u.par with
        | some mode => [cell (if parityCorrect mode v p then .uParOk else .uParBad) 0 b (b + 1)]
        | none => [])
    ++ (if u.ns = 2 then [cell .uStop1 0 b' (b' + 1), cell .uStop2 0 (b' + 1) (b' + 2)]
        else [cell .uStop 0 b' (b' + 1)])

/-- What one pass of the scan loop does (44_uart.md R380). -/
inductive UartPass where
  /-- Leave the loop. -/
  | stop
  /-- Go on at this index, with no token. -/
  | drop (n : Nat)
  /-- A good frame, and the index to go on at. -/
  | frame (tokens : List Emit) (n : Nat)
deriving DecidableEq, Repr

/-- One pass of the scan loop from index `n` (44_uart.md R384 to R391). -/
def State.uartPass (s : State) (c : Chan) (u : UartFormat) (n : Nat) : UartPass :=
  if n + 10 * u.spb ≤ s.len c then
    match s.nfeNat c n with
    | none => .stop
    | some e =>
      let m := e + u.half
      if s.get c m then .drop (m + 1)
      else
        let v := lsbFirst (fun i => s.get c (m + (i + 1) * u.spb)) u.dbits
        let p := s.get c (m + (u.dbits + 1) * u.spb)
        let k := if u.par.isSome then u.dbits + 2 else u.dbits + 1
        if !s.get c (m + k * u.spb) then .drop (m + 1)
        else if u.ns = 2 ∧ s.get c (m + (k + 1) * u.spb) = false then .drop (m + 1)
        else .frame (frameTokens u e v p) (m + (k + u.ns - 1) * u.spb + 1)
  else .stop

/-- The good frames the scan finds from index `n`, in order, in at most `fuel` passes. -/
def State.uartScan (s : State) (c : Chan) (u : UartFormat) : Nat → Nat → List (List Emit)
  | 0, _ => []
  | fuel + 1, n =>
    match s.uartPass c u n with
    | .stop => []
    | .drop n' => State.uartScan s c u fuel n'
    | .frame ts n' => ts :: State.uartScan s c u fuel n'

/-- The frames of a decode of channel `c`: at most LEN[c] + 1 passes (44_uart.md R393; log 13). -/
def State.uartFrames (s : State) (c : Chan) : List (List Emit) :=
  s.uartScan c (s.uartFormat c) (s.len c + 1) 0

/-- The UART configuration is legal (40_command_cycle.md R252, check 4). -/
def State.uartLegal (s : State) (c : Chan) : Bool :=
  legalRate (s.chan c).rate && legalRate (s.chan c).baud && !((s.chan c).cfg.parity == 3)

/-- The checks and the body of the UART decode of channel `c` (44_uart.md R380). -/
def decodeUart (c : Chan) (s : State) : Result :=
  if s.uartLegal c then
    endDecode (decide ((s.uartFormat c).spb < 3)) (State.emitFrames c (s.uartFrames c) s)
  else abort s .ecfg

/-- `DEC.UART cN` (44_uart.md R380). -/
def execDecUart (ch : BitVec 4) (s : State) : Result :=
  withChannel ch s fun c => decodeUart c s

end Sys2Proof.Machine
end

