-- ==== Sys2Proof/Machine/DecodeCommon.lean ====
section
/-! DEFINITION. The generic decode command and the clock pass-through (42_decode_common.md R340, R341). -/

namespace Sys2Proof.Machine

/-- The decoder a channel's variant tag names (42_decode_common.md R340, 10_state.md R66), with the checks of that
decoder (40_command_cycle.md R252): PROTO 5 raises ENOTIMPL, 0, 6 and 7 raise ECFG. -/
def decodeByTag (c : Chan) (s : State) : Result :=
  match (s.chan c).cfg.proto.toNat with
  | 1 => decodeUart c s
  | 2 => decodeI2c c s
  | 3 => decodeSpi c s
  | 4 => complete s Results.none
  | 5 => abort s .enotimpl
  | _ => abort s .ecfg

/-- `DECODE cN` (42_decode_common.md R340). -/
def execDecode (ch : BitVec 4) (s : State) : Result :=
  withChannel ch s fun c => decodeByTag c s

/-- `DEC.CLK cN` (42_decode_common.md R341): no check of RATE, no token. -/
def execDecClk (ch : BitVec 4) (s : State) : Result :=
  withChannel ch s fun _ => complete s Results.none

end Sys2Proof.Machine
end

