-- ==== Sys2Proof/Machine/OneWire.lean ====
section
/-! DEFINITION. The 1-Wire commands (47_onewire.md R500 to R505). -/

namespace Sys2Proof.Machine

/-- A run of `w` samples at `rate` lasts at least `us` microseconds (47_onewire.md R500). -/
def atLeastUs (w us rate : Nat) : Bool := decide (us * rate ≤ w * 10 ^ 6)

/-- A run of `w` samples at `rate` lasts at most `us` microseconds (47_onewire.md R500). -/
def atMostUs (w us rate : Nat) : Bool := decide (w * 10 ^ 6 ≤ us * rate)

/-- The first low pulse at or after `start`: its falling edge and its rising edge. -/
def State.lowPulse (s : State) (c : Chan) (start : Int) : Option (Nat × Nat) :=
  match s.nfe c start with
  | none => none
  | some f =>
    match s.nreNat c f with
    | none => none
    | some r => some (f, r)

/-- The samples of the 60 us slot (47_onewire.md R501). -/
def owSlot (rate : Nat) : Nat := ceilDiv (60 * rate) (10 ^ 6)

/-- `get(c, j)` = 1 for the `n` indices from `lo`. -/
def State.allHigh (s : State) (c : Chan) : Nat → Nat → Bool
  | _, 0 => true
  | lo, n + 1 => s.get c lo && State.allHigh s c (lo + 1) n

/-- The bit that the low pulse from `f` to `r` stands for, or none when its timing is ambiguous (47_onewire.md R501,
R504). -/
def State.owBit (s : State) (c : Chan) (f r : Nat) : Option Bool :=
  let w := r - f
  if atLeastUs w 1 (s.rate c) && atMostUs w 15 (s.rate c) && s.allHigh c r (f + owSlot (s.rate c) - r) then some true
  else if atLeastUs w 60 (s.rate c) then some false
  else none

/-- How `OW.BYTE` reads its bits. -/
inductive OwRead where
  /-- The bits, and the rising edge that ends the last low pulse. -/
  | bits (value pos : Nat)
  /-- An edge is missing. -/
  | missing
  /-- A bit is ambiguous. -/
  | ambiguous
deriving DecidableEq, Repr

/-- The last `left` of 8 bits, from `pos`, added to the value `v` of the bits before them (47_onewire.md R501). -/
def State.owBits (s : State) (c : Chan) : Nat → Int → Nat → OwRead
  | 0, pos, v => .bits v pos.toNat
  | left + 1, pos, v =>
    match s.lowPulse c pos with
    | none => .missing
    | some (f, r) =>
      match s.owBit c f r with
      | none => .ambiguous
      | some b => State.owBits s c left r (v + b.toNat * 2 ^ (7 - left))

/-- `OW.BYTE cN, from` (47_onewire.md R501). -/
def execOwByte (ch : BitVec 4) (s : State) : Result :=
  withOw s <|
    withChannel ch s fun c =>
      withRate c s <|
        match s.owBits c 8 (sext s.engine.a0) 0 with
        | .bits v pos => complete s (Results.search (storeNat v) (some (storeNat pos)) true)
        | .missing => complete s (Results.search noneWord (some noneWord) false)
        | .ambiguous => abort s .eowambig

/-- The results of a detector of low pulses of at least `us` microseconds: only the first low pulse is tested
(47_onewire.md R502, R503). -/
def State.owDetect (s : State) (c : Chan) (us : Nat) (start : Int) : Results :=
  match s.lowPulse c start with
  | some (f, r) =>
    if atLeastUs (r - f) us (s.rate c) then Results.search (storeNat f) (some (storeNat r)) true
    else Results.search noneWord (some noneWord) false
  | none => Results.search noneWord (some noneWord) false

/-- `OW.PRES cN, from` (47_onewire.md R502). -/
def execOwPres (ch : BitVec 4) (s : State) : Result :=
  withOw s <|
    withChannel ch s fun c =>
      withRate c s <| complete s (s.owDetect c 60 (sext s.engine.a0))

/-- `OW.RST cN, from` (47_onewire.md R503). -/
def execOwRst (ch : BitVec 4) (s : State) : Result :=
  withOw s <|
    withChannel ch s fun c =>
      withRate c s <| complete s (s.owDetect c 480 (sext s.engine.a0))

/-- `DEC.OW cN` (47_onewire.md R505): check 3 of 40_command_cycle.md R252 raises ENOTIMPL. It exists whatever `HAS_OW`
is. -/
def execDecOw (ch : BitVec 4) (s : State) : Result :=
  withChannel ch s fun _ => abort s .enotimpl

end Sys2Proof.Machine
end

