-- ==== Sys2Proof/Machine/SampleBuffer.lean ====
section
/-! DEFINITION. The sample buffer commands (41_sample_buffer.md R286 to R297). -/

namespace Sys2Proof.Machine

/-- `SET cN, index` (41_sample_buffer.md R286). -/
def execSet (ch : BitVec 4) (s : State) : Result :=
  withChannel ch s fun c =>
    withIndex (zext s.engine.a0) s <|
      complete (s.wr c (zext s.engine.a0) true) Results.none

/-- `CLR cN, index` (41_sample_buffer.md R287). -/
def execClr (ch : BitVec 4) (s : State) : Result :=
  withChannel ch s fun c =>
    withIndex (zext s.engine.a0) s <|
      complete (s.wr c (zext s.engine.a0) false) Results.none

/-- `SETR cN, lo, hi` (41_sample_buffer.md R288). -/
def execSetr (ch : BitVec 4) (s : State) : Result :=
  withChannel ch s fun c =>
    withRange (zext s.engine.a0) (zext s.engine.a1) s <|
      complete (s.wrRange c (zext s.engine.a0) (zext s.engine.a1) true) Results.none

/-- `CLRR cN, lo, hi` (41_sample_buffer.md R289). -/
def execClrr (ch : BitVec 4) (s : State) : Result :=
  withChannel ch s fun c =>
    withRange (zext s.engine.a0) (zext s.engine.a1) s <|
      complete (s.wrRange c (zext s.engine.a0) (zext s.engine.a1) false) Results.none

/-- `GET cN, index` (41_sample_buffer.md R290). FOUND stays 0. -/
def execGet (ch : BitVec 4) (s : State) : Result :=
  withChannel ch s fun c =>
    complete s (Results.search (storeNat (s.get c (zext s.engine.a0)).toNat) none false)

/-- `LENGTH cN` (41_sample_buffer.md R291). FOUND stays 0. -/
def execLength (ch : BitVec 4) (s : State) : Result :=
  withChannel ch s fun c => complete s (Results.search (s.chan c).len none false)

/-- Every sample of channel `c` is 0, LEN and TOKCNT are 0; CFG, BAUD, RATE and BLPTR are kept (41_sample_buffer.md R292). -/
def State.chReset (s : State) (c : Chan) : State :=
  ({ s with samples := s.samples.clearChan c }).setChan c { s.chan c with len := 0, tokens := [] }

/-- `CHRESET cN` (41_sample_buffer.md R292). -/
def execChreset (ch : BitVec 4) (s : State) : Result :=
  withChannel ch s fun c => complete (s.chReset c) Results.none

/-- `NFE cN, from` (41_sample_buffer.md R293). -/
def execNfe (ch : BitVec 4) (s : State) : Result :=
  withChannel ch s fun c =>
    let j := s.nfe c (sext s.engine.a0)
    complete s (Results.search (indexResult j) none j.isSome)

/-- `NRE cN, from` (41_sample_buffer.md R294). -/
def execNre (ch : BitVec 4) (s : State) : Result :=
  withChannel ch s fun c =>
    let j := s.nre c (sext s.engine.a0)
    complete s (Results.search (indexResult j) none j.isSome)

/-- `NMP cN, from` (41_sample_buffer.md R295). -/
def execNmp (ch : BitVec 4) (s : State) : Result :=
  withChannel ch s fun c =>
    let p := s.pulse c (sext s.engine.a0)
    complete s (Results.search (indexResult (p.map Pulse.mid)) (some (indexResult (p.map Pulse.fall))) p.isSome)

/-- What replace mode clears: every sample, every LEN, and BLPTR; tokens are kept (41_sample_buffer.md R296). -/
def State.bulkReplace (s : State) : State :=
  { s with samples := [], chans := mapChans (fun x => { x with len := 0 }) s.chans, blptr := 0 }

/-- `BLBEGIN mode` (41_sample_buffer.md R296). CH is ignored. Append mode (1) changes nothing. -/
def execBlbegin (s : State) : Result :=
  complete (if modeOperand s.engine.a0 then s else s.bulkReplace) Results.none

/-- One byte of the bulk load at index `i`: bit b is written to channel b, and every LEN becomes at least `i`
(41_sample_buffer.md R297). -/
def State.bulkWrite (s : State) (i : Nat) (x : Byte) : State :=
  { s with
    samples := s.samples.write i x
    chans := mapChans (fun y => { y with len := storeNat (max (zext y.len) i) }) s.chans }

/-- `BLDATA byte` (41_sample_buffer.md R297). CH is ignored. -/
def execBldata (s : State) : Result :=
  withIndex (zext s.blptr) s <|
    complete { s.bulkWrite (zext s.blptr) (byteOperand s.engine.a0) with blptr := storeNat (zext s.blptr + 1) }
      Results.none

end Sys2Proof.Machine
end

