-- ==== Sys2Proof/Machine/Dispatch.lean ====
section
/-! DEFINITION. One arm per command: what the engine does with it. -/

namespace Sys2Proof.Machine

def exec (i : Instr) (s : State) : Host.Outcome State Fault Refusal :=
  match i with
  | .nop _ => Sys2Proof.Machine.execNop s
  | .set ch => Sys2Proof.Machine.execSet ch s
  | .clr ch => Sys2Proof.Machine.execClr ch s
  | .setr ch => Sys2Proof.Machine.execSetr ch s
  | .clrr ch => Sys2Proof.Machine.execClrr ch s
  | .get ch => Sys2Proof.Machine.execGet ch s
  | .length ch => Sys2Proof.Machine.execLength ch s
  | .chreset ch => Sys2Proof.Machine.execChreset ch s
  | .nfe ch => Sys2Proof.Machine.execNfe ch s
  | .nre ch => Sys2Proof.Machine.execNre ch s
  | .nmp ch => Sys2Proof.Machine.execNmp ch s
  | .blbegin _ => Sys2Proof.Machine.execBlbegin s
  | .bldata _ => Sys2Proof.Machine.execBldata s
  | .decode ch => Sys2Proof.Machine.execDecode ch s
  | .decUart ch => Sys2Proof.Machine.execDecUart ch s
  | .decI2c ch => Sys2Proof.Machine.execDecI2c ch s
  | .decSpi ch => Sys2Proof.Machine.execDecSpi ch s
  | .decClk ch => Sys2Proof.Machine.execDecClk ch s
  | .decOw ch => Sys2Proof.Machine.execDecOw ch s
  | .clkfreq ch => Sys2Proof.Machine.execClkfreq ch s
  | .clktol ch => Sys2Proof.Machine.execClktol ch s
  | .owByte ch => Sys2Proof.Machine.execOwByte ch s
  | .owPres ch => Sys2Proof.Machine.execOwPres ch s
  | .owRst ch => Sys2Proof.Machine.execOwRst ch s

end Sys2Proof.Machine
end

