-- ==== Sys2Proof/Machine/Engine.lean ====
section
/-! DEFINITION. What happens in one step: the next thing on the list of inputs (log 1), and how a command word comes to
be the one the engine runs next (log 2). -/

namespace Sys2Proof.Machine

/-- The engine's turn (40_command_cycle.md R253). A running command is decoded and completes; with no command running
nothing happens (60_exceptions.md R635). -/
def engineTurn (s : State) : Result :=
  if s.status.busy then
    match decode s.params.hasOw s.engine.cw with
    | .ok i => exec i s
    | .error _ => execIllegal s
  else .next s

/-- One input while `rst_n` = 1. -/
def takeInput (i : Input) (s : State) : Result :=
  match i with
  | .read a => .next (s.busRead a)
  | .write a v => .next (s.busWrite a v)
  | .engine => engineTurn s
  | .rstN level => .next (s.setRstN level)

/-- One input while `rst_n` = 0: the block holds its reset state and answers nothing (70_reset_and_hazards.md R700). -/
def takeInputHeld (i : Input) (s : State) : Result :=
  match i with
  | .read _ => .next s.heldReset
  | .write _ _ => .next s.heldReset
  | .engine => .next s.heldReset
  | .rstN level => .next (s.setRstN level)

/-- The first input of the list happens; with none left, the engine has its turn. -/
def nextInput (s : State) : Result :=
  match s.inputs with
  | [] => if s.rstN then engineTurn s else .next s.heldReset
  | i :: rest =>
    if s.rstN then takeInput i { s with inputs := rest } else takeInputHeld i { s with inputs := rest }

/-- The word `w` is accepted from the host as a command (40_command_cycle.md R250, R251) and the engine's turn is next. -/
def State.placeCommand (s : State) (w : Word) : State :=
  State.issue { s with rstN := true, inputs := .engine :: s.inputs } w

end Sys2Proof.Machine
end

