-- ==== Sys2Proof/Machine/Step.lean ====
section
/-! DEFINITION. One step of the machine. -/

namespace Sys2Proof.Machine

/-- One step: the first input of the list happens; with none left, the engine has its turn. -/
def step (s : State) : Host.Outcome State Fault Refusal := nextInput s

/-- `s` with the command word `w` accepted from the host, so that the next step runs exactly that command (log 2). -/
def State.withFetchWord (s : State) (nbits w : Nat) : State :=
  s.placeCommand (BitVec.ofNat 32 (w % 2 ^ nbits))

end Sys2Proof.Machine
end

