-- ==== Sys2Proof/Safety.lean ====
section
/-! DEFINITION. The words the statements use: the state after a completion and after an abort, the first failing check of
40_command_cycle.md R252, the addresses the spec lists, edges and pulses as sets, and the invariant of a safe run. Each is
written from the spec's text and calls none of the meanings, but for the few that name exec or step. -/

namespace Sys2Proof.Machine

/-! ## Completion and abort -/

/-- `s` after a command that completes and names no result register (40_command_cycle.md R254): DONE, FOUND and LOWRATE
as given, BUSY and ERR 0, COLL kept, nothing of the engine's transient state left (10_state.md R82), which the model writes
as zeros (log 10). -/
def State.completed (s : State) (found low : Bool) : State :=
  { s with
    status := { busy := false, done := true, found := found, lowrate := low, coll := s.status.coll, err := .ok }
    engine := { cw := 0, a0 := 0, a1 := 0 } }

/-- `s` after a command that aborts with error `e` (60_exceptions.md R605). The engine's copies are zeros, as in
`State.completed` (log 10). -/
def State.aborted (s : State) (e : ErrCode) : State :=
  { s with
    status := { busy := false, done := true, found := false, lowrate := false, coll := s.status.coll, err := e }
    errcmd := s.engine.cw
    engine := { cw := 0, a0 := 0, a1 := 0 } }

/-- `s` with the records `ts` appended to the token memory of channel `c`. -/
def State.appendTokens (s : State) (c : Chan) (ts : List Token) : State :=
  s.setChan c { s.chan c with tokens := (s.chan c).tokens ++ ts }

/-! ## The checks of R252, in their order -/

/-- RATE[c] or BAUD[c] is not in 1..2^31-1. -/
def badRate (w : Word) : Prop := w.toNat = 0 ∨ 2 ^ 31 ≤ w.toNat

/-- Check 4 for the UART decode of channel `c` (40_command_cycle.md R252). -/
def uartCfgBad (s : State) (c : Chan) : Prop :=
  badRate (s.chan c).rate ∨ badRate (s.chan c).baud ∨ (s.chan c).cfg.parity = 3

/-- Check 3 on channel `c` (40_command_cycle.md R252). -/
def notImplemented (i : Instr) (s : State) (c : Chan) : Prop :=
  (∃ ch, i = .decOw ch) ∨ (∃ ch, i = .decode ch) ∧ (s.chan c).cfg.proto = 5

/-- Check 4 on channel `c` (40_command_cycle.md R252). -/
def cfgBad (i : Instr) (s : State) (c : Chan) : Prop :=
  match i with
  | .decode _ =>
    (s.chan c).cfg.proto = 0 ∨ (s.chan c).cfg.proto = 6 ∨ (s.chan c).cfg.proto = 7
      ∨ ((s.chan c).cfg.proto = 1 ∧ uartCfgBad s c)
      ∨ (((s.chan c).cfg.proto = 2 ∨ (s.chan c).cfg.proto = 3) ∧ badRate (s.chan c).rate)
  | .decUart _ => uartCfgBad s c
  | .decI2c _ => badRate (s.chan c).rate
  | .decSpi _ => badRate (s.chan c).rate
  | .clkfreq _ => badRate (s.chan c).rate
  | .clktol _ => badRate (s.chan c).rate
  | .owByte _ => badRate (s.chan c).rate
  | .owPres _ => badRate (s.chan c).rate
  | .owRst _ => badRate (s.chan c).rate
  | .nop _ => False
  | .set _ => False
  | .clr _ => False
  | .setr _ => False
  | .clrr _ => False
  | .get _ => False
  | .length _ => False
  | .chreset _ => False
  | .nfe _ => False
  | .nre _ => False
  | .nmp _ => False
  | .blbegin _ => False
  | .bldata _ => False
  | .decClk _ => False
  | .decOw _ => False

/-- Check 5 on channel `c` (40_command_cycle.md R252). -/
def clockMissing (i : Instr) (s : State) (c : Chan) : Prop :=
  ((∃ ch, i = .decI2c ch) ∨ (∃ ch, i = .decSpi ch)
      ∨ (∃ ch, i = .decode ch) ∧ ((s.chan c).cfg.proto = 2 ∨ (s.chan c).cfg.proto = 3))
    ∧ 8 ≤ (s.chan c).cfg.clksrc.toNat

/-- Check 6 (40_command_cycle.md R252), on the captured operands. -/
def indexBad (i : Instr) (s : State) : Prop :=
  ((∃ ch, i = .set ch ∨ i = .clr ch) ∧ s.params.cap ≤ s.engine.a0.toNat)
    ∨ ((∃ ch, i = .setr ch ∨ i = .clrr ch)
        ∧ (s.engine.a1.toNat < s.engine.a0.toNat ∨ s.params.cap ≤ s.engine.a1.toNat))
    ∨ ((∃ ch, i = .bldata ch) ∧ s.params.cap ≤ s.blptr.toNat)

/-- The first check of 40_command_cycle.md R252 that instruction `i` fails in state `s` is the one with code `e`. Check 1
is here the option check; a word that is no instruction fails it before there is an instruction. -/
def FirstFailed (i : Instr) (s : State) (e : ErrCode) : Prop :=
  if i.isOw = true ∧ s.params.hasOw = false then e = .ebadop
  else if i.usesCh = true ∧ 8 ≤ i.ch.toNat then e = .ebadch
  else
    (∃ c : Chan, i.usesCh = true ∧ i.ch.toNat = c.val
      ∧ ((notImplemented i s c ∧ e = .enotimpl)
        ∨ (¬ notImplemented i s c ∧ cfgBad i s c ∧ e = .ecfg)
        ∨ (¬ notImplemented i s c ∧ ¬ cfgBad i s c ∧ clockMissing i s c ∧ e = .enoclk)))
    ∨ (indexBad i s ∧ e = .eidx)

/-- The word is no command of the build (30_encoding.md R206). -/
def IllegalWord (hasOw : Bool) (w : Word) : Prop :=
  w.toNat % 256 ∈ [0x0D, 0x0E, 0x0F, 0x16, 0x17, 0x1A, 0x1B, 0x1C, 0x1D, 0x1E, 0x1F]
    ∨ 0x23 ≤ w.toNat % 256
    ∨ 4096 ≤ w.toNat
    ∨ (w.toNat % 256 ∈ [0x20, 0x21, 0x22] ∧ hasOw = false)

/-! ## The address map -/

/-- A register is listed at byte address `a` (20_memory.md R155). -/
def ListedRegister (a : Nat) : Prop :=
  a % 4 = 0 ∧ (a ≤ 0x30 ∨ (0x100 ≤ a ∧ a < 0x200 ∧ a % 0x20 < 0x18))

/-- Byte address `a` is a word of a token record below `tokcap` (20_memory.md R156). -/
def ListedTokenWord (tokcap a : Nat) : Prop :=
  a % 4 = 0 ∧ 0x10000 ≤ a ∧ a < 0x90000 ∧ (a % 0x10000) / 16 < tokcap

/-- The addresses whose writes BUSY = 1 turns away (70_reset_and_hazards.md R710): CMD, ARG0, ARG1, and CFG, BAUD, RATE
of every channel. -/
def GuardedAddress (a : Nat) : Prop :=
  a = 0x18 ∨ a = 0x1C ∨ a = 0x20
    ∨ ∃ c : Chan, a = 0x100 + 0x20 * c.val ∨ a = 0x100 + 0x20 * c.val + 4 ∨ a = 0x100 + 0x20 * c.val + 8

/-- The addresses of the read-only registers (20_memory.md R155). -/
def ReadOnlyAddress (a : Nat) : Prop :=
  a ∈ [0x00, 0x04, 0x08, 0x0C, 0x24, 0x28, 0x2C, 0x30]
    ∨ ∃ c : Chan, a = 0x100 + 0x20 * c.val + 0x0C ∨ a = 0x100 + 0x20 * c.val + 0x10 ∨ a = 0x100 + 0x20 * c.val + 0x14

/-! ## Edges and pulses -/

/-- `j` is what the edge search from `start` finds on channel `c` when it first looks for the level `before`: the sets I
and J of 41_sample_buffer.md R280 (`before` = true) and R281 (`before` = false). -/
def EdgeFound (s : State) (c : Chan) (before : Bool) (start j : Nat) : Prop :=
  ∃ i, IsLeast { k | start ≤ k ∧ k < s.len c ∧ s.get c k = before } i
    ∧ IsLeast { k | i < k ∧ k < s.len c ∧ s.get c k = !before } j

/-- The pulse of 41_sample_buffer.md R282 from `start` rises at `r` and falls at `f`. -/
def PulseFound (s : State) (c : Chan) (start r f : Nat) : Prop :=
  EdgeFound s c false start r ∧ EdgeFound s c true r f

/-- The first two rising edges of channel `c` are `T` samples apart (43_clock.md R360). -/
def PeriodFound (s : State) (c : Chan) (T : Nat) : Prop :=
  ∃ r1 r2, EdgeFound s c false 0 r1 ∧ EdgeFound s c false r1 r2 ∧ T = r2 - r1

/-- The first low pulse of channel `c` at or after `start` falls at `f` and rises at `r` (47_onewire.md R501, R502). -/
def LowPulseFound (s : State) (c : Chan) (start : Int) (f r : Nat) : Prop :=
  0 ≤ start ∧ EdgeFound s c true start.toNat f ∧ EdgeFound s c false f r

/-- `es` are the capture edges of clock `k` after `pos`, in order, up to the first search that finds none
(46_spi.md R472). `before` is the level before a capture edge: false for rising capture. -/
def CaptureEdges (s : State) (k : Chan) (before : Bool) : Nat → List Nat → Prop
  | pos, [] => ¬ ∃ e, EdgeFound s k before pos e
  | pos, e :: es => EdgeFound s k before pos e ∧ CaptureEdges s k before e es

/-- The S_WORD record of the data samples at the capture edges `es`, first one bit 0 (46_spi.md R473, R474). -/
def spiRecord (s : State) (c : Chan) (es : List Nat) : Token :=
  { word0 := BitVec.ofNat 32
      (0x20 + 256 * es.length
        + 65536 * ∑ i ∈ Finset.range es.length, (s.get c (es.getD i 0)).toNat * 2 ^ i)
    word1 := BitVec.ofNat 32 (es.headD 0)
    word2 := BitVec.ofNat 32 (es.getLastD 0)
    word3 := 0 }

/-- The capture edges in groups of 8, the last group shorter (46_spi.md R474). -/
def byteGroups (es : List Nat) : List (List Nat) :=
  (List.range ((es.length + 7) / 8)).map (fun j => (es.drop (8 * j)).take 8)

/-- A 1-Wire bit with a low pulse from `f` to `r` at `rate` is a 1 (47_onewire.md R501): low for 1 to 15 us, then high
until the 60 us slot is over. -/
def OwOne (s : State) (c : Chan) (rate f r : Nat) : Prop :=
  rate ≤ (r - f) * 10 ^ 6 ∧ (r - f) * 10 ^ 6 ≤ 15 * rate
    ∧ ∀ j, r ≤ j → j < f + ceilDiv (60 * rate) (10 ^ 6) → s.get c j = true

/-- A 1-Wire bit with a low pulse from `f` to `r` at `rate` is a 0 (47_onewire.md R501): low for 60 us or more. -/
def OwZero (rate f r : Nat) : Prop := 60 * rate ≤ (r - f) * 10 ^ 6

/-- The low pulses of the first `n` bits from `start` are `f i` to `r i`, and bit `i` reads as `b i`. -/
def OwBits (s : State) (c : Chan) (start : Int) (n : Nat) (f r : Nat → Nat) (b : Nat → Bool) : Prop :=
  ∀ i, i < n →
    LowPulseFound s c (if i = 0 then start else (r (i - 1) : Int)) (f i) (r i)
      ∧ (if b i then OwOne s c (s.rate c) (f i) (r i) else OwZero (s.rate c) (f i) (r i))

/-! ## The UART scan, as the loop of 44_uart.md R380 -/

/-- A token record with no bit count (42_decode_common.md R331). -/
def plainRecord (code value first last : Nat) : Token :=
  { word0 := BitVec.ofNat 32 (code + 65536 * value)
    word1 := BitVec.ofNat 32 first
    word2 := BitVec.ofNat 32 last
    word3 := 0 }

/-- Samples per bit (44_uart.md R382): the quotient RATE/BAUD, rounded up. -/
def uartSpb (s : State) (c : Chan) : Nat :=
  ((s.chan c).rate.toNat + (s.chan c).baud.toNat - 1) / (s.chan c).baud.toNat

/-- Half a bit (44_uart.md R382). -/
def uartHalf (s : State) (c : Chan) : Nat := (uartSpb s c + 1) / 2

/-- Data bits of a frame (44_uart.md R381). -/
def uartDataBits (s : State) (c : Chan) : Nat := if (s.chan c).cfg.ninebit then 9 else 8

/-- What the count of 1 bits must leave modulo 2 when parity is checked: 0 Even, 1 Odd (44_uart.md R381, R388). -/
def uartParityRest (s : State) (c : Chan) : Option Nat :=
  if (s.chan c).cfg.ninebit = true ∨ (s.chan c).cfg.parity = 2 then none else some (s.chan c).cfg.parity.toNat

/-- Stop bits of a frame (44_uart.md R380). -/
def uartStops (s : State) (c : Chan) : Nat := if (s.chan c).cfg.twostop then 2 else 1

/-- The position of the first stop bit, the start bit being position 0 (44_uart.md R386). -/
def uartStopPos (s : State) (c : Chan) : Nat :=
  uartDataBits s c + 1 + (if (uartParityRest s c).isSome then 1 else 0)

/-- The KIND of a parity token for data `v` and parity sample `p` (44_uart.md R388): 0x03 when the count of 1 bits of
v[8:0] and `p` together leave `rest` modulo 2, else 0x04. -/
def uartParityCode (rest v : Nat) (p : Bool) : Nat :=
  if ((List.range 9).countP (fun i => v.testBit i) + p.toNat) % 2 = rest then 0x03 else 0x04

/-- The records of a frame with left edge `e`, data `v` and parity sample `p` (44_uart.md R390). -/
def uartFrame (s : State) (c : Chan) (e v : Nat) (p : Bool) : List Token :=
  let spb := uartSpb s c
  let b := uartDataBits s c + 1
  let q := uartStopPos s c
  [plainRecord 0x01 0 e (e + spb), plainRecord 0x02 v (e + spb) (e + b * spb)]
    ++ (match uartParityRest s c with
        | none => []
        | some rest => [plainRecord (uartParityCode rest v p) 0 (e + b * spb) (e + (b + 1) * spb)])
    ++ (if uartStops s c = 2 then
          [plainRecord 0x06 0 (e + q * spb) (e + (q + 1) * spb),
           plainRecord 0x07 0 (e + (q + 1) * spb) (e + (q + 2) * spb)]
        else [plainRecord 0x05 0 (e + q * spb) (e + (q + 1) * spb)])

/-- The loop of 44_uart.md R380 from index `n` finds the good frames `fs`, in order. -/
inductive UartScan (s : State) (c : Chan) : Nat → List (List Token) → Prop
  /-- R384: fewer than 10 bit periods remain. -/
  | short (n : Nat) (h : s.len c < n + 10 * uartSpb s c) : UartScan s c n []
  /-- R385: no falling edge. -/
  | noEdge (n : Nat) (h : n + 10 * uartSpb s c ≤ s.len c) (he : ¬ ∃ e, EdgeFound s c true n e) : UartScan s c n []
  /-- R385: the middle of the start bit is high. -/
  | glitch (n e : Nat) (fs : List (List Token)) (h : n + 10 * uartSpb s c ≤ s.len c) (he : EdgeFound s c true n e)
      (hm : s.get c (e + uartHalf s c) = true) (hr : UartScan s c (e + uartHalf s c + 1) fs) : UartScan s c n fs
  /-- R389: a stop bit is low. -/
  | badStop (n e : Nat) (fs : List (List Token)) (h : n + 10 * uartSpb s c ≤ s.len c) (he : EdgeFound s c true n e)
      (hm : s.get c (e + uartHalf s c) = false)
      (hs : ∃ j, j < uartStops s c ∧ s.get c (e + uartHalf s c + (uartStopPos s c + j) * uartSpb s c) = false)
      (hr : UartScan s c (e + uartHalf s c + 1) fs) : UartScan s c n fs
  /-- R386 to R391: a good frame. -/
  | good (n e v : Nat) (fs : List (List Token)) (h : n + 10 * uartSpb s c ≤ s.len c) (he : EdgeFound s c true n e)
      (hm : s.get c (e + uartHalf s c) = false)
      (hv : v < 2 ^ uartDataBits s c)
      (hd : ∀ i, i < uartDataBits s c → v.testBit i = s.get c (e + uartHalf s c + (i + 1) * uartSpb s c))
      (hs : ∀ j, j < uartStops s c → s.get c (e + uartHalf s c + (uartStopPos s c + j) * uartSpb s c) = true)
      (hr : UartScan s c
        (e + uartHalf s c + (uartStopPos s c + uartStops s c - 1) * uartSpb s c + 1) fs) :
      UartScan s c n
        (uartFrame s c e v (s.get c (e + uartHalf s c + (uartDataBits s c + 1) * uartSpb s c)) :: fs)

/-- The waveform of one UART frame on channel `c` (44_uart.md R386 with 8 data bits, no parity, one stop bit): high below
`a`, the start bit low from `a`, data bit `j` of `v` in cell `j + 1`, and high from the stop bit up to LEN, each cell
`spb` samples long. -/
def UartWave (s : State) (c : Chan) (a spb v : Nat) : Prop :=
  (∀ i, i < a → s.get c i = true)
    ∧ (∀ i, a ≤ i → i < a + spb → s.get c i = false)
    ∧ (∀ j, j < 8 → ∀ i, a + (j + 1) * spb ≤ i → i < a + (j + 2) * spb → s.get c i = v.testBit j)
    ∧ (∀ i, a + 9 * spb ≤ i → i ≤ s.len c → s.get c i = true)

/-! ## The I2C machine, as the loop of 45_i2c.md R420 -/

/-- `bs` are the bits read on the clock pulses of `k` that follow `cur`, one after the other (45_i2c.md R425). -/
def BitsRead (s : State) (c k : Chan) : Nat → List I2cBit → Prop
  | _, [] => True
  | cur, b :: bs =>
    PulseFound s k cur b.rise b.fall ∧ b.bit = s.get c (b.rise + (b.fall - b.rise) / 2) ∧ BitsRead s c k b.fall bs

/-- The number of the first `n` bits of a list, the first one the most significant (45_i2c.md R426, R429). -/
def bitsNumber (n : Nat) (bs : List I2cBit) : Nat :=
  ∑ i ∈ Finset.range n, (bs[i]?.any I2cBit.bit).toNat * 2 ^ (n - 1 - i)

/-- Where bit `i` of a list rises and falls. -/
def riseOf (bs : List I2cBit) (i : Nat) : Nat := (bs[i]?.map I2cBit.rise).getD 0

/-- The falling edge of bit `i` of a list. -/
def fallOf (bs : List I2cBit) (i : Nat) : Nat := (bs[i]?.map I2cBit.fall).getD 0

/-- The records of an address phase (45_i2c.md R426, R427). -/
def addressRecords (bs : List I2cBit) : List Token :=
  [plainRecord 0x18 (bitsNumber 7 bs) (riseOf bs 0) (fallOf bs 6),
   plainRecord (if bs[7]?.any I2cBit.bit then 0x13 else 0x14) 0 (riseOf bs 7) (fallOf bs 7)]

/-- The record of a data byte (45_i2c.md R429). -/
def byteRecord (bs : List I2cBit) : Token := plainRecord 0x17 (bitsNumber 8 bs) (riseOf bs 0) (fallOf bs 7)

/-- The record of an acknowledge bit (45_i2c.md R428). -/
def ackRecord (a : I2cBit) : Token := plainRecord (if a.bit then 0x16 else 0x15) 0 a.rise a.fall

/-- `stop_found(cur)` gives (`dr`, `q`) (45_i2c.md R432). -/
def StopFound (s : State) (c k : Chan) (half cur dr q : Nat) : Prop :=
  ∃ cr, EdgeFound s k false cur cr ∧ EdgeFound s c false cr dr ∧ q = dr + half + 1
    ∧ s.get c q = true ∧ s.get k q = true ∧ (s.params.stopEdgeCheck = true → s.get k dr = true)

/-- The points from which SDA's next fall is looked for (45_i2c.md R424). -/
def bothHigh (s : State) (c k : Chan) (n : Nat) : Set Nat :=
  { p | n ≤ p ∧ p < s.len c ∧ s.get c p = true ∧ s.get k p = true }

/-- The loop of 45_i2c.md R420 from a machine state, `n`, `cur` and `ack` emits the records `ts`. -/
inductive I2cScan (s : State) (c k : Chan) (half : Nat) : I2cState → Nat → Nat → Bool → List Token → Prop
  | noHigh (n cur : Nat) (ack : Bool) (h : ¬ ∃ p, p ∈ bothHigh s c k n) : I2cScan s c k half .awaitStart n cur ack []
  | noFall (n cur p : Nat) (ack : Bool) (hp : IsLeast (bothHigh s c k n) p) (h : ¬ ∃ f, EdgeFound s c true p f) :
      I2cScan s c k half .awaitStart n cur ack []
  | start (n cur p f : Nat) (ack : Bool) (ts : List Token) (hp : IsLeast (bothHigh s c k n) p)
      (hf : EdgeFound s c true p f) (hk : s.get k f = true) (hr : I2cScan s c k half .readAddress n f ack ts) :
      I2cScan s c k half .awaitStart n cur ack (plainRecord 0x10 0 f f :: ts)
  | lowFall (n cur p f : Nat) (ack : Bool) (ts : List Token) (hp : IsLeast (bothHigh s c k n) p)
      (hf : EdgeFound s c true p f) (hk : s.get k f = false) (hr : I2cScan s c k half .awaitStart (f + 1) cur ack ts) :
      I2cScan s c k half .awaitStart n cur ack ts
  | addressCut (n cur : Nat) (ack : Bool) (h : ¬ ∃ bs, bs.length = 8 ∧ BitsRead s c k cur bs) :
      I2cScan s c k half .readAddress n cur ack []
  | addressNoAck (n cur : Nat) (ack : Bool) (bs : List I2cBit) (hl : bs.length = 8) (hb : BitsRead s c k cur bs)
      (h : ¬ ∃ a, BitsRead s c k cur (bs ++ [a])) : I2cScan s c k half .readAddress n cur ack (addressRecords bs)
  | address (n cur : Nat) (ack : Bool) (bs : List I2cBit) (a : I2cBit) (ts : List Token) (hl : bs.length = 8)
      (hb : BitsRead s c k cur (bs ++ [a])) (hr : I2cScan s c k half .awaitStop n a.fall (!a.bit) ts) :
      I2cScan s c k half .readAddress n cur ack (addressRecords bs ++ ackRecord a :: ts)
  | byteCut (n cur : Nat) (ack : Bool) (h : ¬ ∃ bs, bs.length = 8 ∧ BitsRead s c k cur bs) :
      I2cScan s c k half .readByte n cur ack []
  | byteNoAck (n cur : Nat) (ack : Bool) (bs : List I2cBit) (hl : bs.length = 8) (hb : BitsRead s c k cur bs)
      (h : ¬ ∃ a, BitsRead s c k cur (bs ++ [a])) : I2cScan s c k half .readByte n cur ack [byteRecord bs]
  | byte (n cur : Nat) (ack : Bool) (bs : List I2cBit) (a : I2cBit) (ts : List Token) (hl : bs.length = 8)
      (hb : BitsRead s c k cur (bs ++ [a])) (hr : I2cScan s c k half .awaitStop n a.fall (!a.bit) ts) :
      I2cScan s c k half .readByte n cur ack (byteRecord bs :: ackRecord a :: ts)
  | stop (n cur dr q : Nat) (ack : Bool) (ts : List Token) (h : StopFound s c k half cur dr q)
      (hr : I2cScan s c k half .awaitStart q cur ack ts) :
      I2cScan s c k half .awaitStop n cur ack (plainRecord 0x12 0 dr dr :: ts)
  | more (n cur : Nat) (ts : List Token) (h : ¬ ∃ dr q, StopFound s c k half cur dr q)
      (hr : I2cScan s c k half .readByte n cur true ts) : I2cScan s c k half .awaitStop n cur true ts
  | error (n cur : Nat) (ts : List Token) (h : ¬ ∃ dr q, StopFound s c k half cur dr q)
      (hr : I2cScan s c k half .awaitStart cur cur false ts) :
      I2cScan s c k half .awaitStop n cur false (plainRecord 0x19 0 cur cur :: ts)

/-- The records of an I2C decode of data channel `c` on clock `k` (45_i2c.md R420, R422). -/
def I2cRecords (s : State) (c k : Chan) (ts : List Token) : Prop :=
  (¬ (∃ T, PeriodFound s k T) ∧ ts = [])
    ∨ ∃ T, PeriodFound s k T ∧ I2cScan s c k (T / 2) .awaitStart 0 0 false ts

/-- The clock of an I2C or SPI decode has fewer than 3 samples per period (45_i2c.md R422, 46_spi.md R476). -/
def LowClock (s : State) (k : Chan) : Prop := ∃ T, PeriodFound s k T ∧ T < 3

/-! ## Statements about bus transactions -/

/-- The next thing that happens in `s` is the input `x`, with `rst_n` high. -/
def NextInput (s : State) (x : Input) (rest : List Input) : Prop := s.rstN = true ∧ s.inputs = x :: rest

/-- A read of byte address `a` in state `s` returns `v` with OK and changes nothing else. -/
def ReadsAs (s : State) (a : Addr) (v : Word) : Prop :=
  s.rstN = true → ∀ rest,
    step { s with inputs := .read a :: rest } = .next { s with inputs := rest, resp := some (.data v) }

/-- A read of byte address `a` in state `s` returns a free value with OK and changes nothing else (logs 5 to 7). -/
def ReadsFree (s : State) (a : Addr) : Prop :=
  ∀ rest, step { s with inputs := .read a :: rest } = .next
    { s with
      inputs := rest, freeCount := s.freeCount + 1, resp := some (.data (Config.unspecifiedWord s.freeCount)) }

/-- A transaction that a host may make without touching a running command: every read, and every write but one that sets
CTRL.SRST (70_reset_and_hazards.md R710 to R712). -/
def Input.sparesEngine : Input → Prop
  | .read _ => True
  | .write a v => ¬ (a = 0x10#20 ∧ v.getLsbD 1 = true)
  | .engine => False
  | .rstN _ => False

/-- The input is a bus read. -/
def Input.isRead : Input → Bool
  | .read _ => true
  | .write _ _ => false
  | .engine => false
  | .rstN _ => false

/-! ## Statements about commands -/

/-- The command's word on CH is `op` + 256·CH (30_encoding.md R200, R203). -/
def HasOpcode (i : BitVec 4 → Instr) (op : Nat) : Prop := ∀ ch, (encode (i ch)).toNat = op + 256 * ch.toNat

/-- In the builds that have it, the command aborts with EBADCH when CH names no channel (30_encoding.md R202). -/
def ChecksChannel (i : BitVec 4 → Instr) : Prop :=
  ∀ s ch, (i ch).wf s.params.hasOw = true → 8 ≤ ch.toNat → exec (i ch) s = .next (s.aborted .ebadch)

/-- On a channel whose RATE is not in 1..2^31-1 the command aborts with ECFG (40_command_cycle.md R252). -/
def ChecksRate (i : BitVec 4 → Instr) : Prop :=
  ∀ s ch (c : Chan), (i ch).wf s.params.hasOw = true → ch.toNat = c.val → badRate (s.chan c).rate →
    exec (i ch) s = .next (s.aborted .ecfg)

/-- In a build without option OW the command aborts with EBADOP (30_encoding.md R206 point 3). -/
def ChecksOption (i : BitVec 4 → Instr) : Prop :=
  ∀ s ch, s.params.hasOw = false → exec (i ch) s = .next (s.aborted .ebadop)

/-- The four decoders that append tokens, and the pass-through: DECODE, DEC.UART, DEC.I2C, DEC.SPI, DEC.CLK. -/
def isDecode (i : Instr) : Prop :=
  ∃ ch, i = .decode ch ∨ i = .decUart ch ∨ i = .decI2c ch ∨ i = .decSpi ch ∨ i = .decClk ch

/-! ## The invariant -/

/-- A record the engine writes (30_encoding.md R220 to R222): END is not below START, reserved bits are 0, the KIND is one
that a command emits, and NBITS is 1 to 8 for S_WORD and 0 for the others. -/
def Token.wf (t : Token) : Prop :=
  t.word1.toNat ≤ t.word2.toNat ∧ t.word3 = 0
    ∧ t.word0.extractLsb' 12 4 = 0#4 ∧ t.word0.extractLsb' 25 7 = 0#7
    ∧ t.kindCode ∈ [0x01, 0x02, 0x03, 0x04, 0x05, 0x06, 0x07, 0x10, 0x12, 0x13, 0x14, 0x15, 0x16, 0x17, 0x18, 0x19, 0x20]
    ∧ (if t.kindCode = 0x20 then 1 ≤ t.nbits ∧ t.nbits ≤ 8 else t.nbits = 0)

/-- What holds in every state a host can bring the block to. -/
structure State.Inv (s : State) : Prop where
  /-- The build's parameters are in range (00_scope.md R9). -/
  legal : s.params.legal
  /-- The sample store has its canonical form. -/
  memory : s.samples.wf
  /-- No sample at CAP or above (10_state.md R75). -/
  inCap : ∀ p ∈ s.samples, p.1 < s.params.cap
  /-- LEN is the index of a sample, or 0 (10_state.md R70). -/
  lenInCap : ∀ c, s.len c < s.params.cap
  /-- Above LEN every sample reads 0 (41_sample_buffer.md R290). -/
  quiet : ∀ c i, s.len c < i → s.bit c i = false
  /-- TOKCNT is 0..TOKCAP (10_state.md R73). -/
  room : ∀ c, s.tokcnt c ≤ s.params.tokcap
  /-- Every record is one the engine writes. -/
  tokens : ∀ c, ∀ t ∈ (s.chan c).tokens, t.wf
  /-- BLPTR is at most CAP (41_sample_buffer.md R297). -/
  bulk : s.blptr.toNat ≤ s.params.cap
  /-- While a command runs, the flags of the last one are clear (40_command_cycle.md R250). -/
  running : s.status.busy = true →
    s.status.done = false ∧ s.status.found = false ∧ s.status.lowrate = false ∧ s.status.err = .ok
  /-- With no command running, the engine holds nothing (10_state.md R79). -/
  idle : s.status.busy = false → s.engine = Engine.idle
  /-- An abort leaves FOUND and LOWRATE 0 (60_exceptions.md R605). -/
  failed : s.status.err ≠ .ok → s.status.found = false ∧ s.status.lowrate = false
  /-- While `rst_n` = 0 the block holds its reset state and has given no answer (70_reset_and_hazards.md R700). -/
  held : s.rstN = false → s = s.heldReset

end Sys2Proof.Machine
end

