-- ==== Sys2Proof/Certificates/Slice0/Obligations.lean ====
section
/-! DEFINITION. The statements for the provers. Each docstring names the rules of spec/ it rests on.
Where a statement says `completed` or `aborted`, the zeros they leave in the engine's copies are the model's form of "no
transient state" (log 10). -/

open Sys2Proof Sys2Proof.Machine

/-! ## The command word -/

/-- 30_encoding.md R200, R203, R206: a word decodes to a command exactly when it is that command's word and the build has
the command. So no bit of an encoding is dropped, and no word has two meanings. -/
def Obligations.DecodeInvertsEncode : Prop :=
  ∀ (hasOw : Bool) (w : Word) (i : Instr), decode hasOw w = .ok i ↔ i.wf hasOw = true ∧ w = encode i

/-- 30_encoding.md R200. -/
def Obligations.CommandWordLayout : Prop :=
  (∀ i : Instr, (encode i).extractLsb' 0 8 = opcodeOf i ∧ (encode i).extractLsb' 8 4 = i.ch
    ∧ (encode i).extractLsb' 12 20 = 0#20 ∧ (encode i).toNat = (opcodeOf i).toNat + 256 * i.ch.toNat)
  ∧ ∀ (hasOw : Bool) (w : Word), w.extractLsb' 12 20 ≠ 0#20 → ¬ ∃ i, decode hasOw w = .ok i

/-- The opcode column of 30_encoding.md R203, on words written out. -/
def Obligations.OpcodeTableWords : Prop :=
  decode true 0x00000000#32 = .ok (.nop 0) ∧ decode true 0x00000101#32 = .ok (.set 1)
    ∧ decode true 0x00000202#32 = .ok (.clr 2) ∧ decode true 0x00000303#32 = .ok (.setr 3)
    ∧ decode true 0x00000404#32 = .ok (.clrr 4) ∧ decode true 0x00000505#32 = .ok (.get 5)
    ∧ decode true 0x00000606#32 = .ok (.length 6) ∧ decode true 0x00000707#32 = .ok (.chreset 7)
    ∧ decode true 0x00000008#32 = .ok (.nfe 0) ∧ decode true 0x00000109#32 = .ok (.nre 1)
    ∧ decode true 0x0000020A#32 = .ok (.nmp 2) ∧ decode true 0x00000F0B#32 = .ok (.blbegin 15)
    ∧ decode true 0x0000000C#32 = .ok (.bldata 0) ∧ decode true 0x00000310#32 = .ok (.decode 3)
    ∧ decode true 0x00000411#32 = .ok (.decUart 4) ∧ decode true 0x00000512#32 = .ok (.decI2c 5)
    ∧ decode true 0x00000613#32 = .ok (.decSpi 6) ∧ decode true 0x00000714#32 = .ok (.decClk 7)
    ∧ decode false 0x00000815#32 = .ok (.decOw 8) ∧ decode true 0x00000118#32 = .ok (.clkfreq 1)
    ∧ decode true 0x00000219#32 = .ok (.clktol 2) ∧ decode true 0x00000320#32 = .ok (.owByte 3)
    ∧ decode true 0x00000421#32 = .ok (.owPres 4) ∧ decode true 0x00000522#32 = .ok (.owRst 5)

/-- 30_encoding.md R206, points 1 to 3. -/
def Obligations.IllegalWordsAreTheListedOnes : Prop :=
  ∀ (hasOw : Bool) (w : Word), (¬ ∃ i, decode hasOw w = .ok i) ↔ IllegalWord hasOw w

/-! ## The step -/

/-- 40_command_cycle.md R251, R253; 20_memory.md R167. The engine's turn runs the command whose word was captured.
That a list of inputs says whose turn it is, is the model's choice (log 1). -/
def Obligations.StepRunsDecodedInstruction : Prop :=
  ∀ (s : State) (i : Instr), s.rstN = true → s.status.busy = true → decode s.params.hasOw s.engine.cw = .ok i →
    (s.inputs = [] → step s = exec i s)
      ∧ ∀ rest, s.inputs = .engine :: rest → step s = exec i { s with inputs := rest }

/-- 40_command_cycle.md R250, R251, and log 2: a placed command word is issued, and the next step runs it. -/
def Obligations.PlacedCommandRunsNext : Prop :=
  ∀ (s : State) (i : Instr), i.wf s.params.hasOw = true →
    step (s.withFetchWord 32 (encode i).toNat)
      = exec i
          { s with
            rstN := true
            cmd := encode i
            status := { busy := true, done := false, found := false, lowrate := false, coll := s.status.coll, err := .ok }
            engine := { cw := encode i, a0 := s.arg0, a1 := s.arg1 } }

/-- 40_command_cycle.md R253, R254, 60_exceptions.md R605, R610, R635: no step stops the machine; the engine's turn ends a
running command, whatever its word, and does nothing when none runs. Zeros are the model's form of "no transient state"
(log 10). -/
def Obligations.EngineTurnEndsTheCommand : Prop :=
  (∀ s : State, ∃ t, step s = .next t)
  ∧ ∀ s : State, s.rstN = true → s.inputs = [] →
      (s.status.busy = false → step s = .next s)
        ∧ (s.status.busy = true →
            ∃ t, step s = .next t ∧ t.status.busy = false ∧ t.status.done = true ∧ t.engine = { cw := 0, a0 := 0, a1 := 0 })

/-- The invariant holds after reset, in every build (10_state.md R82). -/
def Obligations.InvariantHoldsAtReset : Prop :=
  State.reset.Inv ∧ ∀ p : Params, p.legal → (State.resetOf p).Inv

/-- The invariant of Safety.lean is kept by every step. -/
def Obligations.InvariantKeptByStep : Prop :=
  ∀ s t : State, s.Inv → step s = .next t → t.Inv

/-! ## The command cycle -/

/-- 40_command_cycle.md R250, with the copies of R251: the whole state after a `CMD` write. -/
def Obligations.CommandWriteIssues : Prop :=
  ∀ (s : State) (w : Word) (rest : List Input), NextInput s (.write 0x18#20 w) rest →
    (s.status.busy = false →
      step s = .next
        { s with
          inputs := rest
          resp := some .done
          cmd := w
          status := { busy := true, done := false, found := false, lowrate := false, coll := s.status.coll, err := .ok }
          engine := { cw := w, a0 := s.arg0, a1 := s.arg1 } })
      ∧ (s.status.busy = true →
          step s = .next { s with inputs := rest, resp := some .done, status := { s.status with coll := true } })

/-- 40_command_cycle.md R252 (and R607): the first check that fails decides the error, an aborted command changes nothing
but the abort's own updates, and with no failing check the body runs, which can only end with no error, ETOKOVF or
EOWAMBIG (R253). -/
def Obligations.ChecksInTheirOrder : Prop :=
  (∀ s : State, s.rstN = true → s.inputs = [] → s.status.busy = true → IllegalWord s.params.hasOw s.engine.cw →
    step s = .next (s.aborted .ebadop))
  ∧ (∀ (i : Instr) (s : State) (e : ErrCode), FirstFailed i s e → exec i s = .next (s.aborted e))
  ∧ ∀ (i : Instr) (s : State), (¬ ∃ e, FirstFailed i s e) →
      ∃ t, exec i s = .next t ∧ (t.status.err = .ok ∨ t.status.err = .etokovf ∨ t.status.err = .eowambig)

/-- 60_exceptions.md R605, 40_command_cycle.md R256: what an abort changes. Only ETOKOVF can leave a change behind, the
records appended before the overflow, which fill the token memory of the command's channel or stop short of a UART frame. -/
def Obligations.AbortsKeepEarlierResults : Prop :=
  ∀ (i : Instr) (s t : State), exec i s = .next t → t.status.err ≠ .ok →
    t = { s.aborted t.status.err with chans := t.chans }
      ∧ (t.status.err ≠ .etokovf → t.chans = s.chans)
      ∧ ∀ c, ∃ ts, t.chan c = { s.chan c with tokens := (s.chan c).tokens ++ ts }
          ∧ (ts ≠ [] → i.usesCh = true ∧ i.ch.toNat = c.val ∧ isDecode i)

/-- 40_command_cycle.md R254: what a completion changes of STATUS and of the results. FOUND rises only for a command that
finds its target, LOWRATE only for a decode, and RES0 and RES1 change only for a command that names them. -/
def Obligations.CompletionSetsStatus : Prop :=
  ∀ (i : Instr) (s t : State), exec i s = .next t → t.status.err = .ok →
    t.status.busy = false ∧ t.status.done = true ∧ t.status.coll = s.status.coll ∧ t.errcmd = s.errcmd
      ∧ (t.status.lowrate = true → isDecode i)
      ∧ (t.status.found = true → ∃ ch, i = .nfe ch ∨ i = .nre ch ∨ i = .nmp ch ∨ i = .clkfreq ch ∨ i = .clktol ch
          ∨ i = .owByte ch ∨ i = .owPres ch ∨ i = .owRst ch)
      ∧ (t.res0 ≠ s.res0 → ∃ ch, i = .get ch ∨ i = .length ch ∨ i = .nfe ch ∨ i = .nre ch ∨ i = .nmp ch
          ∨ i = .clkfreq ch ∨ i = .clktol ch ∨ i = .owByte ch ∨ i = .owPres ch ∨ i = .owRst ch)
      ∧ (t.res1 ≠ s.res1 → ∃ ch, i = .nmp ch ∨ i = .clkfreq ch ∨ i = .clktol ch ∨ i = .owByte ch ∨ i = .owPres ch
          ∨ i = .owRst ch)

/-- 60_exceptions.md R606. ERRCMD is written by an abort, with the captured word, and by reset, with 0, and by nothing
else. -/
def Obligations.ErrcmdNamesTheLastAbort : Prop :=
  (∀ (i : Instr) (s t : State), exec i s = .next t →
    t.errcmd = if t.status.err = .ok then s.errcmd else s.engine.cw)
  ∧ (∀ (s : State) (rest : List Input), NextInput s .engine rest →
      ∃ t, step s = .next t ∧ (s.status.busy = false → t.errcmd = s.errcmd)
        ∧ (s.status.busy = true → t.errcmd = if t.status.err = .ok then s.errcmd else s.engine.cw)
        ∧ (s.status.busy = true → IllegalWord s.params.hasOw s.engine.cw → t.errcmd = s.engine.cw))
  ∧ (∀ (s : State) (a : Addr) (v : Word) (rest : List Input), NextInput s (.write a v) rest →
      ∃ t, step s = .next t ∧ t.errcmd = if a = 0x10#20 ∧ v.getLsbD 1 = true then 0 else s.errcmd)
  ∧ (∀ (s : State) (a : Addr) (rest : List Input), NextInput s (.read a) rest →
      ∃ t, step s = .next t ∧ t.errcmd = s.errcmd)
  ∧ ∀ (s : State) (level : Bool) (rest : List Input), NextInput s (.rstN level) rest →
      ∃ t, step s = .next t ∧ t.errcmd = if level then s.errcmd else 0

/-- 40_command_cycle.md R251: a command reads only the copies made at issue. What stands in ARG0, ARG1, the CMD readback,
CTRL.IE, the port and the list of inputs changes nothing of what it does. -/
def Obligations.CommandReadsOnlyItsCopies : Prop :=
  ∀ (i : Instr) (s t : State) (x y z : Word) (ie : Bool) (xs : List Input) (r : Option Response) (n : Nat),
    exec i s = .next t →
    exec i { s with arg0 := x, arg1 := y, cmd := z, ie := ie, inputs := xs, resp := r, freeCount := n }
      = .next { t with arg0 := x, arg1 := y, cmd := z, ie := ie, inputs := xs, resp := r, freeCount := n }

/-- 20_memory.md R164, 70_reset_and_hazards.md R710 to R712, R720: whatever a host reads and writes while a command runs,
short of a reset, the command ends in the same state. Only STATUS.COLL, CTRL.IE and the port's answer can differ. -/
def Obligations.HostCannotDisturbARunningCommand : Prop :=
  ∀ (s : State) (xs : List Input), s.rstN = true → s.status.busy = true → (∀ x ∈ xs, x.sparesEngine) →
    ∃ t u, core.run 1 { s with inputs := [.engine] } = .next t
      ∧ core.run (xs.length + 1) { s with inputs := xs ++ [.engine] } = .next u
      ∧ u = { t with
          resp := u.resp, freeCount := u.freeCount, ie := u.ie, status := { t.status with coll := u.status.coll } }

/-- 20_memory.md R160: leaving out every bus read of a run changes nothing but the port's answer and the model's count of
unspecified reads. The premise is the last field of the invariant: while `rst_n` is low the block is in its reset state. -/
def Obligations.ReadsHaveNoSideEffect : Prop :=
  ∀ (s : State) (xs : List Input), (s.rstN = false → s = s.heldReset) →
    ∃ t u, core.run (xs.filter (fun x => !x.isRead)).length { s with inputs := xs.filter (fun x => !x.isRead) } = .next t
      ∧ core.run xs.length { s with inputs := xs } = .next u
      ∧ u = { t with resp := u.resp, freeCount := u.freeCount }

/-- 40_command_cycle.md R258, 20_memory.md R169: a command on channel c changes no state of another channel. -/
def Obligations.OtherChannelsUntouched : Prop :=
  ∀ (i : Instr) (s t : State) (c d : Chan), i.usesCh = true → i.ch.toNat = c.val → d ≠ c → s.samples.wf →
    exec i s = .next t → t.chan d = s.chan d ∧ ∀ n, t.bit d n = s.bit d n

/-- 40_command_cycle.md R258, 10_state.md R63, R70: what no command writes, and what only a few commands write. -/
def Obligations.CommandsKeepWhatTheyDoNotName : Prop :=
  ∀ (i : Instr) (s t : State), exec i s = .next t →
    t.params = s.params ∧ t.rstN = s.rstN ∧ t.inputs = s.inputs ∧ t.resp = s.resp ∧ t.freeCount = s.freeCount
      ∧ t.ie = s.ie ∧ t.cmd = s.cmd ∧ t.arg0 = s.arg0 ∧ t.arg1 = s.arg1 ∧ t.status.coll = s.status.coll
      ∧ (∀ c, (t.chan c).cfg = (s.chan c).cfg ∧ (t.chan c).baud = (s.chan c).baud ∧ (t.chan c).rate = (s.chan c).rate)
      ∧ ((∀ ch, i ≠ .blbegin ch ∧ i ≠ .bldata ch) → t.blptr = s.blptr)
      ∧ ((∀ ch, i ≠ .set ch ∧ i ≠ .clr ch ∧ i ≠ .setr ch ∧ i ≠ .clrr ch ∧ i ≠ .chreset ch ∧ i ≠ .blbegin ch
            ∧ i ≠ .bldata ch) →
          t.samples = s.samples ∧ ∀ c, (t.chan c).len = (s.chan c).len)

/-! ## NOP and DEC.CLK -/

/-- 40_command_cycle.md R255. -/
def Obligations.NopOnlyCompletes : Prop :=
  encode (.nop 0) = 0x00000000#32 ∧ HasOpcode .nop 0x00
    ∧ (∀ (hasOw : Bool) (w : Word), w.toNat % 256 = 0x00 →
        (w.toNat < 4096 → ∃ ch, decode hasOw w = .ok (.nop ch)) ∧ (4096 ≤ w.toNat → IllegalWord hasOw w))
    ∧ ∀ (s : State) (ch : BitVec 4), exec (.nop ch) s = .next (s.completed false false)

/-- 42_decode_common.md R341. -/
def Obligations.ClockPassThroughOnlyCompletes : Prop :=
  HasOpcode .decClk 0x14 ∧ ChecksChannel .decClk
    ∧ ∀ (s : State) (ch : BitVec 4), ch.toNat < 8 → exec (.decClk ch) s = .next (s.completed false false)

/-! ## The sample buffer -/

/-- 41_sample_buffer.md R286, R287 with R284: one sample is written, LEN grows to its index, and nothing else changes. -/
def Obligations.SetAndClrWriteOneSample : Prop :=
  HasOpcode .set 0x01 ∧ HasOpcode .clr 0x02 ∧ ChecksChannel .set ∧ ChecksChannel .clr
  ∧ ∀ (s : State) (ch : BitVec 4) (c : Chan) (v : Bool), ch.toNat = c.val →
    (s.engine.a0.toNat < s.params.cap →
      ∃ t, exec (if v then .set ch else .clr ch) s = .next t
        ∧ t = { s.completed false false with samples := t.samples, chans := t.chans }
        ∧ (∀ d i, t.bit d i = if d = c ∧ i = s.engine.a0.toNat then v else s.bit d i)
        ∧ (∀ d, t.chan d =
            if d = c then { s.chan c with len := BitVec.ofNat 32 (max (s.chan c).len.toNat s.engine.a0.toNat) }
            else s.chan d))
    ∧ (s.params.cap ≤ s.engine.a0.toNat →
        exec (if v then .set ch else .clr ch) s = .next (s.aborted .eidx))

/-- 41_sample_buffer.md R288, R289: the samples lo..hi are written, both ends included, LEN grows to hi, and nothing else
changes. -/
def Obligations.SetrAndClrrWriteARange : Prop :=
  HasOpcode .setr 0x03 ∧ HasOpcode .clrr 0x04 ∧ ChecksChannel .setr ∧ ChecksChannel .clrr
  ∧ ∀ (s : State) (ch : BitVec 4) (c : Chan) (v : Bool), ch.toNat = c.val →
    (s.engine.a0.toNat ≤ s.engine.a1.toNat → s.engine.a1.toNat < s.params.cap →
      ∃ t, exec (if v then .setr ch else .clrr ch) s = .next t
        ∧ t = { s.completed false false with samples := t.samples, chans := t.chans }
        ∧ (∀ d i, t.bit d i =
            if d = c ∧ s.engine.a0.toNat ≤ i ∧ i ≤ s.engine.a1.toNat then v else s.bit d i)
        ∧ (∀ d, t.chan d =
            if d = c then { s.chan c with len := BitVec.ofNat 32 (max (s.chan c).len.toNat s.engine.a1.toNat) }
            else s.chan d))
    ∧ (s.engine.a1.toNat < s.engine.a0.toNat ∨ s.params.cap ≤ s.engine.a1.toNat →
        exec (if v then .setr ch else .clrr ch) s = .next (s.aborted .eidx))

/-- 41_sample_buffer.md R290, R291: RES0 gets the sample, 0 at and above CAP and (in a state
that meets the invariant) above LEN, or LEN; nothing else changes. -/
def Obligations.GetAndLengthReadTheChannel : Prop :=
  HasOpcode .get 0x05 ∧ HasOpcode .length 0x06 ∧ ChecksChannel .get ∧ ChecksChannel .length
  ∧ ∀ (s : State) (ch : BitVec 4) (c : Chan), ch.toNat = c.val →
    exec (.get ch) s = .next
      { s.completed false false with
        res0 := if s.engine.a0.toNat < s.params.cap ∧ s.bit c s.engine.a0.toNat = true then 1 else 0 }
    ∧ (s.Inv → (s.chan c).len.toNat < s.engine.a0.toNat →
        exec (.get ch) s = .next { s.completed false false with res0 := 0 })
    ∧ exec (.length ch) s = .next { s.completed false false with res0 := (s.chan c).len }

/-- 41_sample_buffer.md R292: every sample of the channel is 0, LEN is 0, no token is left, nothing else changes, and a
second CHRESET leaves the state of the first. -/
def Obligations.ChresetEmptiesTheChannel : Prop :=
  HasOpcode .chreset 0x07 ∧ ChecksChannel .chreset
  ∧ ∀ (s : State) (ch : BitVec 4) (c : Chan), ch.toNat = c.val → s.samples.wf →
    ∃ t, exec (.chreset ch) s = .next t
      ∧ t = { s.completed false false with samples := t.samples, chans := t.chans }
      ∧ (∀ d i, t.bit d i = if d = c then false else s.bit d i)
      ∧ (∀ d, t.chan d = if d = c then { s.chan c with len := 0, tokens := [] } else s.chan d)
      ∧ exec (.chreset ch) t = .next t

/-- 41_sample_buffer.md R293, R294 with R280, R281: the result is the edge the sets I and J define, or NONE. -/
def Obligations.EdgeCommandsFindTheNextEdge : Prop :=
  HasOpcode .nfe 0x08 ∧ HasOpcode .nre 0x09 ∧ ChecksChannel .nfe ∧ ChecksChannel .nre
  ∧ ∀ (s : State) (ch : BitVec 4) (c : Chan) (falling : Bool), ch.toNat = c.val →
    (∀ j, 0 ≤ s.engine.a0.toInt → EdgeFound s c falling s.engine.a0.toInt.toNat j →
      exec (if falling then .nfe ch else .nre ch) s
        = .next { s.completed true false with res0 := BitVec.ofNat 32 j })
    ∧ ((s.engine.a0.toInt < 0 ∨ ¬ ∃ j, EdgeFound s c falling s.engine.a0.toInt.toNat j) →
      exec (if falling then .nfe ch else .nre ch) s
        = .next { s.completed false false with res0 := 0xFFFFFFFF })

/-- 41_sample_buffer.md R283, points 1 to 5, on the edge functions of the model. -/
def Obligations.EdgeSearchProperties : Prop :=
  ∀ (s : State) (c : Chan),
    (∀ (start : Int) (j : Nat), s.nfe c start = some j ↔
      0 ≤ start ∧ IsLeast { k : Nat | start < (k : Int) ∧ k < s.len c ∧ s.get c (k - 1) = true ∧ s.get c k = false } j)
    ∧ (∀ (start : Int) (j : Nat), s.nre c start = some j ↔
      0 ≤ start ∧ IsLeast { k : Nat | start < (k : Int) ∧ k < s.len c ∧ s.get c (k - 1) = false ∧ s.get c k = true } j)
    ∧ (∀ start : Int, (s.len c : Int) - 1 ≤ start →
        s.nfe c start = none ∧ s.nre c start = none ∧ s.pulse c start = none)
    ∧ (∀ (start : Int) (p : Pulse), s.pulse c start = some p →
        (p.fall - p.rise ≥ 2 → p.rise < p.mid ∧ p.mid < p.fall) ∧ (p.fall - p.rise = 1 → p.mid = p.rise)
          ∧ start < p.rise ∧ p.rise < p.fall ∧ p.fall < s.len c ∧ ∀ k, p.rise ≤ k → k < p.fall → s.get c k = true)
    ∧ (∀ (u : State) (start : Int), u.len c = s.len c → (∀ k, k < s.len c → u.get c k = s.get c k) →
        u.nfe c start = s.nfe c start ∧ u.nre c start = s.nre c start ∧ u.pulse c start = s.pulse c start)

/-- 41_sample_buffer.md R295 with R282. -/
def Obligations.NmpFindsThePulseMidpoint : Prop :=
  HasOpcode .nmp 0x0A ∧ ChecksChannel .nmp
  ∧ ∀ (s : State) (ch : BitVec 4) (c : Chan), ch.toNat = c.val →
    (∀ r f, 0 ≤ s.engine.a0.toInt → PulseFound s c s.engine.a0.toInt.toNat r f →
      exec (.nmp ch) s = .next
        { s.completed true false with res0 := BitVec.ofNat 32 (r + (f - r) / 2), res1 := BitVec.ofNat 32 f })
    ∧ ((s.engine.a0.toInt < 0 ∨ ¬ ∃ r f, PulseFound s c s.engine.a0.toInt.toNat r f) →
      exec (.nmp ch) s = .next { s.completed false false with res0 := 0xFFFFFFFF, res1 := 0xFFFFFFFF })

/-- 41_sample_buffer.md R296. -/
def Obligations.BlbeginReplacesOrAppends : Prop :=
  HasOpcode .blbegin 0x0B
  ∧ ∀ (s : State) (ch : BitVec 4),
    (s.engine.a0.getLsbD 0 = true → exec (.blbegin ch) s = .next (s.completed false false))
    ∧ (s.engine.a0.getLsbD 0 = false →
      ∃ t, exec (.blbegin ch) s = .next t
        ∧ t = { s.completed false false with samples := t.samples, chans := t.chans, blptr := 0 }
        ∧ (∀ d i, t.bit d i = false) ∧ (∀ d, t.chan d = { s.chan d with len := 0 }))

/-- 41_sample_buffer.md R297: bit b of the byte is written to channel b at BLPTR, every LEN grows to BLPTR, BLPTR grows by
1, and nothing else changes. -/
def Obligations.BldataWritesEveryChannel : Prop :=
  HasOpcode .bldata 0x0C
  ∧ ∀ (s : State) (ch : BitVec 4),
    (s.blptr.toNat < s.params.cap →
      ∃ t, exec (.bldata ch) s = .next t
        ∧ t = { s.completed false false with
              samples := t.samples, chans := t.chans, blptr := BitVec.ofNat 32 (s.blptr.toNat + 1) }
        ∧ (∀ (d : Chan) (i : Nat), t.bit d i = if i = s.blptr.toNat then s.engine.a0.getLsbD d else s.bit d i)
        ∧ (∀ d, t.chan d = { s.chan d with len := BitVec.ofNat 32 (max (s.chan d).len.toNat s.blptr.toNat) }))
    ∧ (s.params.cap ≤ s.blptr.toNat → exec (.bldata ch) s = .next (s.aborted .eidx))

/-- 10_state.md R70, 41_sample_buffer.md R299: no command lowers a LEN, but CHRESET of that channel and a replace-mode
BLBEGIN. -/
def Obligations.LengthNeverShrinks : Prop :=
  ∀ (i : Instr) (s t : State) (c : Chan), exec i s = .next t →
    s.len c ≤ t.len c ∨ ((∃ ch, i = .chreset ch ∧ ch.toNat = c.val) ∧ t.len c = 0)
      ∨ ((∃ ch, i = .blbegin ch) ∧ s.engine.a0.getLsbD 0 = false ∧ t.len c = 0)

/-! ## Tokens -/

/-- 42_decode_common.md R331, R332: one record is appended at TOKCNT, with END collapsed to START when it lies below it;
with TOKCNT = TOKCAP nothing is written and the error is ETOKOVF. -/
def Obligations.EmitAppendsOneRecord : Prop :=
  ∀ (s : State) (c : Chan) (e : Emit), e.nbits ≤ 8 → e.value ≤ 511 → e.first < 2 ^ 32 → e.last < 2 ^ 32 →
    (s.tokcnt c < s.params.tokcap →
      ∃ r, s.emit c e = .going (s.appendTokens c [r])
        ∧ r.word0.toNat = e.kind.code + 256 * e.nbits + 65536 * e.value
        ∧ r.word1.toNat = e.first ∧ r.word2.toNat = max e.first e.last ∧ r.word3 = 0
        ∧ r.kindCode = e.kind.code ∧ r.nbits = e.nbits ∧ r.value = e.value
        ∧ (s.appendTokens c [r]).tokcnt c = s.tokcnt c + 1)
    ∧ (s.tokcnt c = s.params.tokcap → s.emit c e = .aborted s .etokovf)

/-- 42_decode_common.md R330: a decode writes no sample and no register but TOKCNT of its channel, STATUS and, on abort,
ERRCMD; it appends and takes no record away. The engine's copies are left as zeros, the model's form of "no transient
state" (10_state.md section 4, log 10). -/
def Obligations.DecodesWriteOnlyTokens : Prop :=
  ∀ (i : Instr) (s t : State), isDecode i → exec i s = .next t →
    t = { s with
        chans := t.chans, status := t.status, engine := { cw := 0, a0 := 0, a1 := 0 }
        errcmd := if t.status.err = .ok then s.errcmd else s.engine.cw }
      ∧ ∀ d, ∃ ts, t.chan d = { s.chan d with tokens := (s.chan d).tokens ++ ts } ∧ (i.ch.toNat ≠ d.val → ts = [])

/-- 10_state.md R77, R73: the records of a channel stay in place and in order under every command but CHRESET of it, and
within one command the STARTs of the records appended do not fall. -/
def Obligations.TokensStayInAppendOrder : Prop :=
  ∀ (i : Instr) (s t : State) (c : Chan), exec i s = .next t →
    ((s.chan c).tokens <+: (t.chan c).tokens
        ∨ ((∃ ch, i = .chreset ch ∧ ch.toNat = c.val) ∧ (t.chan c).tokens = []))
      ∧ ∀ ts, s.params.legal → (∀ d, s.len d < s.params.cap) → (t.chan c).tokens = (s.chan c).tokens ++ ts →
          ts.Pairwise (fun x y => x.word1.toNat ≤ y.word1.toNat)

/-- 44_uart.md R380, R393, 45_i2c.md R420, R435, 46_spi.md R472, R477: the UART loop, the I2C machine and the SPI edge walk
each end, in exactly one way, on every state: the relations of Safety.lean that the decoder statements assume always hold of
exactly one list. The I2C records follow two passages of general knowledge (R427, R429; log 15). -/
def Obligations.DecodeScansEndInOneWay : Prop :=
  ∀ (s : State) (c k : Chan) (before : Bool),
    (∃! fs, UartScan s c 0 fs) ∧ (∃! ts, I2cRecords s c k ts) ∧ ∃! es, CaptureEdges s k before 0 es

/-- 42_decode_common.md R336, R338: the same decode on the channel it has decoded appends the same records again. -/
def Obligations.RedecodeAppendsAgain : Prop :=
  ∀ (i : Instr) (s t : State) (c : Chan) (ts : List Token), isDecode i → i.ch.toNat = c.val →
    exec i s = .next t → t.status.err = .ok → (t.chan c).tokens = (s.chan c).tokens ++ ts →
    t.tokcnt c + ts.length ≤ s.params.tokcap →
    exec i t = .next ((t.appendTokens c ts).completed false t.status.lowrate)

/-! ## The UART decoder -/

/-- 44_uart.md R380 to R391, 42_decode_common.md R333: DEC.UART appends the records of the loop of R380, frame after frame.
With room for all of them it completes, with LOWRATE set below 3 samples per bit; the first frame for which there is no
room aborts it with none of that frame's records written. The parity tokens follow R388's passage of general knowledge
(log 15). -/
def Obligations.UartDecodeAppendsTheScan : Prop :=
  HasOpcode .decUart 0x11 ∧ ChecksChannel .decUart
  ∧ ∀ (s : State) (ch : BitVec 4) (c : Chan), ch.toNat = c.val →
    (uartCfgBad s c → exec (.decUart ch) s = .next (s.aborted .ecfg))
    ∧ (∀ fs, ¬ uartCfgBad s c → UartScan s c 0 fs → s.tokcnt c + fs.flatten.length ≤ s.params.tokcap →
      exec (.decUart ch) s = .next ((s.appendTokens c fs.flatten).completed false (decide (uartSpb s c < 3))))
    ∧ (∀ fs f gs, ¬ uartCfgBad s c → UartScan s c 0 (fs ++ f :: gs) →
      s.tokcnt c + fs.flatten.length ≤ s.params.tokcap → s.params.tokcap < s.tokcnt c + fs.flatten.length + f.length →
      exec (.decUart ch) s = .next ((s.appendTokens c fs.flatten).aborted .etokovf))

/-- 44_uart.md R385 to R390: a frame of 8 data bits, no parity and one stop bit, each bit `spb` >= 2 samples long, decodes
to `[S]`, the byte and `[SP]`, on the grid of its left edge. -/
def Obligations.UartFrameRoundTrip : Prop :=
  ∀ (s : State) (ch : BitVec 4) (c : Chan) (a v : Nat), ch.toNat = c.val → ¬ uartCfgBad s c →
    (s.chan c).cfg.ninebit = false → (s.chan c).cfg.twostop = false → (s.chan c).cfg.parity = 2 →
    2 ≤ uartSpb s c → 1 ≤ a → v < 256 → a + 10 * uartSpb s c ≤ s.len c → UartWave s c a (uartSpb s c) v →
    s.tokcnt c + 3 ≤ s.params.tokcap →
    exec (.decUart ch) s = .next
      ((s.appendTokens c
          [plainRecord 0x01 0 a (a + uartSpb s c), plainRecord 0x02 v (a + uartSpb s c) (a + 9 * uartSpb s c),
           plainRecord 0x05 0 (a + 9 * uartSpb s c) (a + 10 * uartSpb s c)]).completed
        false (decide (uartSpb s c < 3)))

/-! ## The I2C decoder -/

/-- 45_i2c.md R420 to R432: DEC.I2C appends the records of the machine of R420, in order; with room for all of them it
completes, with LOWRATE for a period of fewer than 3 samples; else it fills the token memory and aborts. The direction bit
and the order of a byte's bits follow the passages of general knowledge in R427 and R429 (log 15). -/
def Obligations.I2cDecodeAppendsTheRecords : Prop :=
  HasOpcode .decI2c 0x12 ∧ ChecksChannel .decI2c ∧ ChecksRate .decI2c
  ∧ ∀ (s : State) (ch : BitVec 4) (c k : Chan) (ts : List Token), ch.toNat = c.val → ¬ badRate (s.chan c).rate →
    (s.chan c).cfg.clksrc.toNat = k.val → I2cRecords s c k ts →
    (s.tokcnt c + ts.length ≤ s.params.tokcap →
      ∃ low, exec (.decI2c ch) s = .next ((s.appendTokens c ts).completed false low) ∧ (low = true ↔ LowClock s k))
    ∧ (s.tokcnt c ≤ s.params.tokcap → s.params.tokcap < s.tokcnt c + ts.length →
      exec (.decI2c ch) s
        = .next ((s.appendTokens c (ts.take (s.params.tokcap - s.tokcnt c))).aborted .etokovf))

/-- 45_i2c.md R436 point 5: a data channel that is its own clock gives no token. -/
def Obligations.I2cOnItsOwnClockEmitsNothing : Prop :=
  ∀ (s : State) (ch : BitVec 4) (c : Chan), ch.toNat = c.val → ¬ badRate (s.chan c).rate →
    (s.chan c).cfg.clksrc.toNat = c.val →
    ∃ low, exec (.decI2c ch) s = .next (s.completed false low) ∧ (low = true ↔ LowClock s c)

/-! ## The SPI decoder -/

/-- 46_spi.md R470 to R476: DEC.SPI appends one S_WORD for every 8 capture edges and one for the rest, in order; with room
for all of them it completes; else it fills the token memory and aborts. The capture edge follows R471's passage of general
knowledge (log 15). -/
def Obligations.SpiDecodeAppendsByteGroups : Prop :=
  HasOpcode .decSpi 0x13 ∧ ChecksChannel .decSpi ∧ ChecksRate .decSpi
  ∧ ∀ (s : State) (ch : BitVec 4) (c k : Chan) (es : List Nat), ch.toNat = c.val → ¬ badRate (s.chan c).rate →
    (s.chan c).cfg.clksrc.toNat = k.val →
    CaptureEdges s k (decide ((s.chan c).cfg.cpol ≠ (s.chan c).cfg.cpha)) 0 es →
    (s.tokcnt c + (byteGroups es).length ≤ s.params.tokcap →
      ∃ low, exec (.decSpi ch) s
          = .next ((s.appendTokens c ((byteGroups es).map (spiRecord s c))).completed false low)
        ∧ (low = true ↔ LowClock s k))
    ∧ (s.tokcnt c ≤ s.params.tokcap → s.params.tokcap < s.tokcnt c + (byteGroups es).length →
      exec (.decSpi ch) s
        = .next ((s.appendTokens c
            (((byteGroups es).map (spiRecord s c)).take (s.params.tokcap - s.tokcnt c))).aborted .etokovf))

/-- 46_spi.md R478 point 4: modes 0 and 3 decode alike, and so do modes 1 and 2. This rests on R471's passage of general
knowledge (log 15). -/
def Obligations.SpiModesPairUp : Prop :=
  ∀ (s t : State) (ch : BitVec 4) (c : Chan), ch.toNat = c.val → exec (.decSpi ch) s = .next t →
    let flip (x : Channel) : Channel := { x with cfg := { x.cfg with cpol := !x.cfg.cpol, cpha := !x.cfg.cpha } }
    exec (.decSpi ch) (s.setChan c (flip (s.chan c))) = .next (t.setChan c (flip (t.chan c)))

/-! ## DECODE, DEC.OW and the measurements -/

/-- 42_decode_common.md R340: DECODE runs the decoder that PROTO names, with that decoder's checks. -/
def Obligations.DecodeDispatchesOnProto : Prop :=
  HasOpcode .decode 0x10 ∧ ChecksChannel .decode
  ∧ ∀ (s : State) (ch : BitVec 4) (c : Chan), ch.toNat = c.val →
    ((s.chan c).cfg.proto = 1 → exec (.decode ch) s = exec (.decUart ch) s)
    ∧ ((s.chan c).cfg.proto = 2 → exec (.decode ch) s = exec (.decI2c ch) s)
    ∧ ((s.chan c).cfg.proto = 3 → exec (.decode ch) s = exec (.decSpi ch) s)
    ∧ ((s.chan c).cfg.proto = 4 → exec (.decode ch) s = .next (s.completed false false))
    ∧ ((s.chan c).cfg.proto = 5 → exec (.decode ch) s = .next (s.aborted .enotimpl))
    ∧ ((s.chan c).cfg.proto = 0 ∨ (s.chan c).cfg.proto = 6 ∨ (s.chan c).cfg.proto = 7 →
        exec (.decode ch) s = .next (s.aborted .ecfg))

/-- 47_onewire.md R505. -/
def Obligations.OneWireDecodeIsNotImplemented : Prop :=
  HasOpcode .decOw 0x15 ∧ ChecksChannel .decOw ∧ (∀ hasOw ch, (Instr.decOw ch).wf hasOw = true)
  ∧ (∀ (s : State) (ch : BitVec 4), ch.toNat < 8 → exec (.decOw ch) s = .next (s.aborted .enotimpl))
  ∧ ∀ (s : State) (ch : BitVec 4) (c : Chan), ch.toNat = c.val → (s.chan c).cfg.proto = 5 →
      exec (.decode ch) s = .next (s.aborted .enotimpl)

/-- 43_clock.md R361 with R360: RATE/T to the nearest integer with halves up, and the period T, or NONE twice. -/
def Obligations.ClkfreqMeasuresTheFrequency : Prop :=
  HasOpcode .clkfreq 0x18 ∧ ChecksChannel .clkfreq ∧ ChecksRate .clkfreq
  ∧ ∀ (s : State) (ch : BitVec 4) (c : Chan), ch.toNat = c.val → ¬ badRate (s.chan c).rate →
    (∀ T, PeriodFound s c T →
      2 ≤ T ∧ ∃ freq : Nat, exec (.clkfreq ch) s = .next
          { s.completed true false with res0 := BitVec.ofNat 32 freq, res1 := BitVec.ofNat 32 T }
        ∧ freq ≤ 2 ^ 30 ∧ 2 * T * freq ≤ 2 * (s.chan c).rate.toNat + T
        ∧ 2 * (s.chan c).rate.toNat + T < 2 * T * (freq + 1))
    ∧ ((¬ ∃ T, PeriodFound s c T) →
      exec (.clkfreq ch) s = .next { s.completed false false with res0 := 0xFFFFFFFF, res1 := 0xFFFFFFFF })

/-- 43_clock.md R362: RES1:RES0 is, as a signed 64-bit number, the exact tolerance FREQ - RATE/(T+1) in units of 2^-32,
rounded to the nearest with halves up; with no period it is -1.0. -/
def Obligations.ClktolMeasuresTheTolerance : Prop :=
  HasOpcode .clktol 0x19 ∧ ChecksChannel .clktol ∧ ChecksRate .clktol
  ∧ ∀ (s : State) (ch : BitVec 4) (c : Chan), ch.toNat = c.val → ¬ badRate (s.chan c).rate →
    (∀ T (freq : Int), PeriodFound s c T → 2 * T * freq ≤ 2 * (s.chan c).rate.toNat + T →
      2 * ((s.chan c).rate.toNat : Int) + T < 2 * T * (freq + 1) →
      ∃ r0 r1 : Word, exec (.clktol ch) s = .next { s.completed true false with res0 := r0, res1 := r1 }
        ∧ 2 * ((T : Int) + 1) * (r1 ++ r0 : BitVec 64).toInt
            ≤ 2 * (freq * (T + 1) - (s.chan c).rate.toNat) * 2 ^ 32 + (T + 1)
        ∧ 2 * (freq * (T + 1) - (s.chan c).rate.toNat) * 2 ^ 32 + (T + 1)
            < 2 * ((T : Int) + 1) * ((r1 ++ r0 : BitVec 64).toInt + 1)
        ∧ -(2 ^ 62) < (r1 ++ r0 : BitVec 64).toInt ∧ (r1 ++ r0 : BitVec 64).toInt < 2 ^ 62)
    ∧ ((¬ ∃ T, PeriodFound s c T) →
      exec (.clktol ch) s = .next { s.completed false false with res0 := 0x00000000, res1 := 0xFFFFFFFF })

/-! ## The 1-Wire helpers -/

/-- 47_onewire.md R501, R504: eight bits read give the byte and the last rising edge; a missing edge gives NONE twice; the
first bit that is neither a 1 nor a 0 aborts with EOWAMBIG. -/
def Obligations.OwByteReadsEightBits : Prop :=
  HasOpcode .owByte 0x20 ∧ ChecksOption .owByte ∧ ChecksChannel .owByte ∧ ChecksRate .owByte
  ∧ ∀ (s : State) (ch : BitVec 4) (c : Chan) (f r : Nat → Nat) (b : Nat → Bool), s.params.hasOw = true →
    ch.toNat = c.val → ¬ badRate (s.chan c).rate →
    (OwBits s c s.engine.a0.toInt 8 f r b →
      ∃ v, exec (.owByte ch) s = .next
          { s.completed true false with res0 := BitVec.ofNat 32 v, res1 := BitVec.ofNat 32 (r 7) }
        ∧ v < 256 ∧ ∀ i, i < 8 → v.testBit i = b i)
    ∧ (∀ n, n < 8 → OwBits s c s.engine.a0.toInt n f r b →
      (¬ ∃ f' r', LowPulseFound s c (if n = 0 then s.engine.a0.toInt else (r (n - 1) : Int)) f' r') →
      exec (.owByte ch) s = .next { s.completed false false with res0 := 0xFFFFFFFF, res1 := 0xFFFFFFFF })
    ∧ (∀ n, n < 8 → OwBits s c s.engine.a0.toInt n f r b →
      LowPulseFound s c (if n = 0 then s.engine.a0.toInt else (r (n - 1) : Int)) (f n) (r n) →
      ¬ OwOne s c (s.rate c) (f n) (r n) → ¬ OwZero (s.rate c) (f n) (r n) →
      exec (.owByte ch) s = .next (s.aborted .eowambig))

/-- 47_onewire.md R502, R503: only the first low pulse is tested, against 60 us and against 480 us. -/
def Obligations.OwDetectorsTestTheFirstPulse : Prop :=
  HasOpcode .owPres 0x21 ∧ HasOpcode .owRst 0x22 ∧ ChecksOption .owPres ∧ ChecksOption .owRst ∧ ChecksChannel .owPres
  ∧ ChecksChannel .owRst ∧ ChecksRate .owPres ∧ ChecksRate .owRst
  ∧ ∀ (s : State) (ch : BitVec 4) (c : Chan) (reset : Bool), s.params.hasOw = true → ch.toNat = c.val →
    ¬ badRate (s.chan c).rate →
    (∀ f r, LowPulseFound s c s.engine.a0.toInt f r →
      (if reset then 480 else 60) * (s.chan c).rate.toNat ≤ (r - f) * 10 ^ 6 →
      exec (if reset then .owRst ch else .owPres ch) s
        = .next { s.completed true false with res0 := BitVec.ofNat 32 f, res1 := BitVec.ofNat 32 r })
    ∧ ((∀ f r, LowPulseFound s c s.engine.a0.toInt f r →
          (r - f) * 10 ^ 6 < (if reset then 480 else 60) * (s.chan c).rate.toNat) →
      exec (if reset then .owRst ch else .owPres ch) s
        = .next { s.completed false false with res0 := 0xFFFFFFFF, res1 := 0xFFFFFFFF })

/-! ## The bus -/

/-- 20_memory.md R157, R150: which transactions get ERR, that ERR changes nothing and returns data 0, and that the others
get OK. -/
def Obligations.BusErrorsExactly : Prop :=
  ∀ (s : State) (a : Addr) (v : Word) (rest : List Input),
    (NextInput s (.read a) rest →
      (¬ (ListedRegister a.toNat ∨ ListedTokenWord s.params.tokcap a.toNat) →
        ∃ f, step s = .next { s with inputs := rest, resp := some (.err f) } ∧ (Response.err f).readData = 0)
      ∧ (ListedRegister a.toNat ∨ ListedTokenWord s.params.tokcap a.toNat →
        ∃ t w, step s = .next t ∧ t.resp = some (.data w)))
    ∧ (NextInput s (.write a v) rest →
      (¬ ListedRegister a.toNat → ∃ f, step s = .next { s with inputs := rest, resp := some (.err f) })
      ∧ (ListedRegister a.toNat → ∃ t, step s = .next t ∧ t.resp = some .done))

/-- 20_memory.md R155, R160, 10_state.md R51 to R76: with BUSY = 0, what a read at each listed address returns. -/
def Obligations.RegisterMapReads : Prop :=
  ∀ s : State, s.status.busy = false →
    ReadsAs s 0x00#20 0x50444531 ∧ ReadsAs s 0x08#20 (BitVec.ofNat 32 s.params.cap)
    ∧ ReadsAs s 0x04#20
        (BitVec.ofNat 32 (8 + 16 * s.params.hasOw.toNat + 32 * s.params.stopEdgeCheck.toNat))
    ∧ ReadsAs s 0x0C#20 (BitVec.ofNat 32 s.params.tokcap) ∧ ReadsAs s 0x10#20 (BitVec.ofNat 32 s.ie.toNat)
    ∧ ReadsAs s 0x14#20
        (BitVec.ofNat 32 (2 * s.status.done.toNat + 4 * s.status.found.toNat + 8 * s.status.lowrate.toNat
          + 16 * s.status.coll.toNat + 256 * s.status.err.code.toNat))
    ∧ ReadsAs s 0x18#20 s.cmd ∧ ReadsAs s 0x1C#20 s.arg0 ∧ ReadsAs s 0x20#20 s.arg1 ∧ ReadsAs s 0x24#20 s.res0
    ∧ ReadsAs s 0x28#20 s.res1 ∧ ReadsAs s 0x2C#20 s.errcmd ∧ ReadsAs s 0x30#20 s.blptr
    ∧ ∀ c : Chan,
      let base := 0x100 + 0x20 * c.val
      let cf := (s.chan c).cfg
      ReadsAs s (BitVec.ofNat 20 base)
          (BitVec.ofNat 32 (cf.proto.toNat + 16 * cf.parity.toNat + 64 * cf.ninebit.toNat + 128 * cf.twostop.toNat
            + 256 * cf.cpha.toNat + 512 * cf.cpol.toNat + 4096 * cf.clksrc.toNat))
      ∧ ReadsAs s (BitVec.ofNat 20 (base + 4)) (s.chan c).baud ∧ ReadsAs s (BitVec.ofNat 20 (base + 8)) (s.chan c).rate
      ∧ ReadsAs s (BitVec.ofNat 20 (base + 0xC)) (s.chan c).len
      ∧ ReadsAs s (BitVec.ofNat 20 (base + 0x10)) (BitVec.ofNat 32 (s.chan c).tokens.length)
      ∧ ReadsAs s (BitVec.ofNat 20 (base + 0x14))
          (BitVec.ofNat 32 ((if cf.proto = 2 ∨ cf.proto = 3 then 1 else 0)
            + (if (s.chan c).tokens.length = s.params.tokcap then 2 else 0)))
      ∧ ∀ (t : Nat) (r : Token), t < s.params.tokcap → t < 4096 → (s.chan c).tokens[t]? = some r →
        let at0 := 0x10000 * (c.val + 1) + 16 * t
        ReadsAs s (BitVec.ofNat 20 at0) r.word0 ∧ ReadsAs s (BitVec.ofNat 20 (at0 + 4)) r.word1
          ∧ ReadsAs s (BitVec.ofNat 20 (at0 + 8)) r.word2 ∧ ReadsAs s (BitVec.ofNat 20 (at0 + 12)) r.word3

/-- 70_reset_and_hazards.md R712: while BUSY = 1 a read of what only the host writes is exact, and a read of what the
command may change returns a free value. So does, at any time, a read of a token record at or above TOKCNT
(10_state.md R76). Neither changes anything but the answer and the model's count of such reads. The form of the free value
is the model's (logs 5 to 7). -/
def Obligations.UnspecifiedReadsAreFree : Prop :=
  ∀ s : State, s.rstN = true →
    (s.status.busy = true →
      (∀ (a : Addr) (v : Word), a.toNat ∈ [0x00, 0x04, 0x08, 0x0C, 0x10] ∨ GuardedAddress a.toNat →
        ReadsAs { s with status := { s.status with busy := false } } a v → ReadsAs s a v)
      ∧ (∀ v : Word, ReadsAs { s with status := { s.status with busy := false } } 0x14#20 v →
        ReadsAs s 0x14#20 (v ||| 1))
      ∧ ∀ a : Addr,
        (a.toNat ∈ [0x24, 0x28, 0x2C, 0x30] ∨ (ListedRegister a.toNat ∧ 0x100 ≤ a.toNat ∧ 0xC ≤ a.toNat % 0x20)
          ∨ ListedTokenWord s.params.tokcap a.toNat) →
        ReadsFree s a)
    ∧ ∀ (c : Chan) (t : Nat) (w : Fin 4), s.tokcnt c ≤ t → t < s.params.tokcap → t < 4096 →
        ReadsFree s (BitVec.ofNat 20 (0x10000 * (c.val + 1) + 16 * t + 4 * w.val))

/-- 70_reset_and_hazards.md R710. -/
def Obligations.BusyWritesAreIgnored : Prop :=
  ∀ (s : State) (a : Addr) (v : Word) (rest : List Input), s.status.busy = true → GuardedAddress a.toNat →
    NextInput s (.write a v) rest →
    step s = .next { s with inputs := rest, resp := some .done, status := { s.status with coll := true } }

/-- 10_state.md R58, R59, R65, R71, R72, R207: with BUSY = 0 a write to ARG0, ARG1, BAUD and RATE stores the word, and a
write to CFG stores every field of it and drops its reserved bits; nothing else changes. -/
def Obligations.IdleWritesAreStored : Prop :=
  ∀ (s : State) (v : Word) (rest : List Input), s.status.busy = false →
    (NextInput s (.write 0x1C#20 v) rest → step s = .next { s with inputs := rest, resp := some .done, arg0 := v })
    ∧ (NextInput s (.write 0x20#20 v) rest → step s = .next { s with inputs := rest, resp := some .done, arg1 := v })
    ∧ ∀ c : Chan,
      let base := 0x100 + 0x20 * c.val
      (NextInput s (.write (BitVec.ofNat 20 (base + 4)) v) rest →
        step s = .next { (s.setChan c { s.chan c with baud := v }) with inputs := rest, resp := some .done })
      ∧ (NextInput s (.write (BitVec.ofNat 20 (base + 8)) v) rest →
        step s = .next { (s.setChan c { s.chan c with rate := v }) with inputs := rest, resp := some .done })
      ∧ (NextInput s (.write (BitVec.ofNat 20 base) v) rest →
        ∃ cf, step s = .next { (s.setChan c { s.chan c with cfg := cf }) with inputs := rest, resp := some .done }
          ∧ ∀ u : State, u.status.busy = false → (u.chan c).cfg = cf →
              ReadsAs u (BitVec.ofNat 20 base) (v &&& 0x0000F3F7#32))

/-- 70_reset_and_hazards.md R711 with 10_state.md R55, R56, R64: whether or not a command runs, a write to CTRL without
SRST writes IE, a write to STATUS clears DONE and COLL where it holds a 1, and a write to a read-only register is ignored
with OK. -/
def Obligations.ControlWritesActAtOnce : Prop :=
  ∀ (s : State) (v : Word) (rest : List Input),
    (NextInput s (.write 0x10#20 v) rest → v.getLsbD 1 = false →
      step s = .next { s with inputs := rest, resp := some .done, ie := v.getLsbD 0 })
    ∧ (NextInput s (.write 0x14#20 v) rest →
      step s = .next
        { s with
          inputs := rest, resp := some .done
          status := { s.status with
            done := if v.getLsbD 1 = true then false else s.status.done
            coll := if v.getLsbD 4 = true then false else s.status.coll } })
    ∧ ∀ a : Addr, ReadOnlyAddress a.toNat → NextInput s (.write a v) rest →
        step s = .next { s with inputs := rest, resp := some .done }

/-! ## Interrupt and reset -/

/-- 60_exceptions.md R620: irq is IE and DONE, so it rises at every completion while IE = 1, follows a write of IE, and is
0 during reset and after it. -/
def Obligations.InterruptLineIsEnableAndDone : Prop :=
  (∀ s : State, s.irq = (s.ie && s.status.done))
  ∧ (∀ (i : Instr) (s t : State), exec i s = .next t → t.irq = s.ie)
  ∧ (∀ (s : State) (v : Word) (rest : List Input), NextInput s (.write 0x10#20 v) rest → v.getLsbD 1 = false →
      ∃ t, step s = .next t ∧ t.irq = (v.getLsbD 0 && s.status.done))
  ∧ (∀ (s : State) (v : Word) (rest : List Input), NextInput s (.write 0x14#20 v) rest → v.getLsbD 1 = true →
      ∃ t, step s = .next t ∧ t.irq = false)
  ∧ (∀ p, (State.resetOf p).irq = false)
  ∧ ∀ (s : State) (rest : List Input), NextInput s (.rstN false) rest → ∃ t, step s = .next t ∧ t.irq = false

/-- 60_exceptions.md R622: exactly these clear DONE. -/
def Obligations.DoneIsClearedExactlyBy : Prop :=
  ∀ (s t : State) (x : Input) (rest : List Input), NextInput s x rest → s.status.done = true → step s = .next t →
    (t.status.done = false ↔
      (∃ v, x = .write 0x14#20 v ∧ v.getLsbD 1 = true) ∨ (∃ w, x = .write 0x18#20 w ∧ s.status.busy = false)
        ∨ x = .rstN false ∨ ∃ v, x = .write 0x10#20 v ∧ v.getLsbD 1 = true)

/-- 70_reset_and_hazards.md R701, R702: a soft reset takes every piece of the block's state to its reset value in one
step, whether or not a command runs; without SRST the write only writes IE. That the pin,
the rest of the inputs and the model's own count stay is the model's choice (log 17). -/
def Obligations.SoftResetGivesTheResetState : Prop :=
  ∀ (s : State) (v : Word) (rest : List Input), NextInput s (.write 0x10#20 v) rest →
    (v.getLsbD 1 = true →
      step s = .next
        { State.resetOf s.params with
          rstN := true, inputs := rest, resp := some .done, freeCount := s.freeCount })
    ∧ (v.getLsbD 1 = false → step s = .next { s with inputs := rest, resp := some .done, ie := v.getLsbD 0 })

/-- 70_reset_and_hazards.md R700, R702: `rst_n` low gives the reset state; while it is low nothing is answered and nothing
changes (what becomes of a transaction then is the model's choice, log 11); when it returns high the block is in the reset
state. -/
def Obligations.ResetPinHoldsTheResetState : Prop :=
  ∀ (s : State) (rest : List Input),
    (NextInput s (.rstN false) rest →
      step s = .next { State.resetOf s.params with rstN := false, inputs := rest, freeCount := s.freeCount })
    ∧ ∀ x, s.rstN = false → s.inputs = x :: rest →
        step s = .next
          { State.resetOf s.params with
            rstN := decide (x = .rstN true), inputs := rest, freeCount := s.freeCount }

/-- 10_state.md R82, as a host reads the values. No command is running. That an unspecified token record is read as a free
value, numbered by the model's own count, is the model's form (logs 5 and 7). -/
def Obligations.ResetValuesAsRead : Prop :=
  ∀ p : Params, let s := State.resetOf p
    s.status.busy = false ∧ s.irq = false
    ∧ ReadsAs s 0x00#20 0x50444531 ∧ ReadsAs s 0x08#20 (BitVec.ofNat 32 p.cap) ∧ ReadsAs s 0x0C#20 (BitVec.ofNat 32 p.tokcap)
    ∧ ReadsAs s 0x04#20 (BitVec.ofNat 32 (8 + 16 * p.hasOw.toNat + 32 * p.stopEdgeCheck.toNat))
    ∧ (∀ a : Addr, a.toNat ∈ [0x10, 0x14, 0x18, 0x1C, 0x20, 0x24, 0x28, 0x2C, 0x30] → ReadsAs s a 0)
    ∧ (∀ c : Chan,
        let base := 0x100 + 0x20 * c.val
        ReadsAs s (BitVec.ofNat 20 base) 0x0000F020 ∧ ReadsAs s (BitVec.ofNat 20 (base + 4)) 9600
        ∧ ReadsAs s (BitVec.ofNat 20 (base + 8)) 0 ∧ ReadsAs s (BitVec.ofNat 20 (base + 0xC)) 0
        ∧ ReadsAs s (BitVec.ofNat 20 (base + 0x10)) 0
        ∧ ∀ (t : Nat) (w : Fin 4), t < p.tokcap → t < 4096 →
            ReadsFree s (BitVec.ofNat 20 (0x10000 * (c.val + 1) + 16 * t + 4 * w.val)))
    ∧ ∀ c i, s.bit c i = false
end

