-- ==== Sys2Proof/Laws/Memory.lean ====
section
/-! SUPPORT. The laws of the sample store: read after write, and every memory operation keeps the canonical form. -/

namespace Sys2Proof.Machine

@[simp] theorem Memory.read_nil (a : Nat) : Memory.read [] a = 0#8 := rfl

theorem Memory.read_cons (k a : Nat) (v : Byte) (m : Memory) :
    Memory.read ((k, v) :: m) a = if a = k then v else Memory.read m a := rfl

/-! ## erase and insert -/

theorem Memory.read_erase (m : Memory) (a b : Nat) :
    (Memory.erase m a).read b = if b = a then 0#8 else m.read b := by
  induction m with
  | nil => simp [Memory.erase]
  | cons p m ih =>
    obtain ⟨k, v⟩ := p
    have hstep : Memory.erase ((k, v) :: m) a
        = if k = a then Memory.erase m a else (k, v) :: Memory.erase m a := by
      by_cases h : k = a <;> simp [Memory.erase, h]
    rw [hstep]
    by_cases hk : k = a
    · subst hk
      rw [if_pos rfl, ih, Memory.read_cons]
      split <;> simp_all
    · rw [if_neg hk, Memory.read_cons, Memory.read_cons, ih]
      by_cases hb : b = k
      · subst hb; simp [hk]
      · simp [hb]

theorem Memory.mem_insert (m : Memory) (a : Nat) (v : Byte) (p : Host.Cell) :
    p ∈ m.insert a v ↔ p = (a, v) ∨ p ∈ m := by
  induction m with
  | nil => simp [Memory.insert]
  | cons q m ih =>
    obtain ⟨k, w⟩ := q
    unfold Memory.insert
    split
    · simp
    · simp only [List.mem_cons, ih]
      tauto

theorem Memory.mem_erase (m : Memory) (a : Nat) (p : Host.Cell) :
    p ∈ Memory.erase m a ↔ p ∈ m ∧ p.1 ≠ a := by
  simp [Memory.erase]

theorem Memory.read_insert (m : Memory) (a b : Nat) (v : Byte) (h : ∀ p ∈ m, p.1 ≠ a) :
    (m.insert a v).read b = if b = a then v else m.read b := by
  induction m with
  | nil => simp [Memory.insert, Memory.read_cons]
  | cons q m ih =>
    obtain ⟨k, w⟩ := q
    have hk : k ≠ a := h (k, w) (by simp)
    unfold Memory.insert
    split
    · rw [Memory.read_cons]
    · rw [Memory.read_cons, ih (fun p hp => h p (by simp [hp])), Memory.read_cons]
      by_cases hb : b = k
      · subst hb; simp [hk]
      · simp [hb]

/-! ## write -/

/-- Read after write: the written address reads the written byte, every other address reads as before. -/
theorem Memory.read_write (m : Memory) (a b : Nat) (v : Byte) :
    (m.write a v).read b = if b = a then v else m.read b := by
  unfold Memory.write
  split
  · next hv => rw [Memory.read_erase, hv]; rfl
  · rw [Memory.read_insert _ _ _ _ (fun p hp => ((Memory.mem_erase m a p).1 hp).2), Memory.read_erase]
    split <;> rfl

/-- An entry of the store after a write is the written one or an old one at another address. -/
theorem Memory.mem_write (m : Memory) (a : Nat) (v : Byte) (p : Host.Cell) :
    p ∈ m.write a v ↔ (v ≠ 0 ∧ p = (a, v)) ∨ (p ∈ m ∧ p.1 ≠ a) := by
  unfold Memory.write
  split
  · next hv => rw [Memory.mem_erase]; tauto
  · next hv => rw [Memory.mem_insert, Memory.mem_erase]; tauto

theorem Memory.erase_wf {m : Memory} (h : m.wf) (a : Nat) : (Memory.erase m a).wf :=
  ⟨h.1.sublist List.filter_sublist, fun p hp => h.2 p ((Memory.mem_erase m a p).1 hp).1⟩

theorem Memory.insert_wf {m : Memory} (h : m.wf) {a : Nat} (ha : ∀ p ∈ m, p.1 ≠ a) {v : Byte} (hv : v ≠ 0) :
    (m.insert a v).wf := by
  refine ⟨?_, fun p hp => ?_⟩
  · induction m with
    | nil => simp [Memory.insert]
    | cons q m ih =>
      obtain ⟨k, w⟩ := q
      obtain ⟨hord, hnz⟩ := h
      rw [List.pairwise_cons] at hord
      have hk : k ≠ a := ha (k, w) (by simp)
      unfold Memory.insert
      split
      · next hlt =>
        refine List.pairwise_cons.2 ⟨fun p hp => ?_, List.pairwise_cons.2 hord⟩
        rcases List.mem_cons.1 hp with rfl | hp
        · exact hlt
        · exact Nat.lt_trans hlt (hord.1 p hp)
      · next hge =>
        refine List.pairwise_cons.2 ⟨fun p hp => ?_, ih ⟨hord.2, fun p hp => hnz p (by simp [hp])⟩
          (fun p hp => ha p (by simp [hp]))⟩
        rcases (Memory.mem_insert m a v p).1 hp with rfl | hp
        · simp only; omega
        · exact hord.1 p hp
  · rcases (Memory.mem_insert m a v p).1 hp with rfl | hp
    · exact hv
    · exact h.2 p hp

/-- A write keeps the canonical form. -/
theorem Memory.write_wf {m : Memory} (h : m.wf) (a : Nat) (v : Byte) : (m.write a v).wf := by
  unfold Memory.write
  split
  · exact Memory.erase_wf h a
  · next hv => exact Memory.insert_wf (Memory.erase_wf h a) (fun p hp => ((Memory.mem_erase m a p).1 hp).2) hv

/-! ## bits of a byte -/

theorem getLsbD_setBit (x : Byte) (c d : Chan) (v : Bool) :
    (setBit x c v).getLsbD d = if d = c then v else x.getLsbD d := by
  have hd := d.isLt
  have key : ∀ b : Bool, (setBit x c v).getLsbD d = b ↔ (if d = c then v else x.getLsbD d) = b := by
    intro b
    by_cases h : d = c
    · subst h
      cases v <;> simp [setBit, hd]
    · have hv' : ¬ d.val = c.val := fun e => h (Fin.ext e)
      cases v <;> simp [setBit, hd, h, hv']
  exact (key _).2 rfl

/-- Two bytes with the same eight bits are equal. -/
theorem byte_ext {x y : Byte} (h : ∀ d : Chan, x.getLsbD d = y.getLsbD d) : x = y :=
  BitVec.eq_of_getLsbD_eq (fun i hi => h ⟨i, hi⟩)

/-! ## one sample, a range, a whole channel -/

theorem Memory.read_setSample (m : Memory) (c : Chan) (i a : Nat) (v : Bool) :
    (m.setSample c i v).read a = if a = i then setBit (m.read i) c v else m.read a :=
  Memory.read_write m i a _

theorem Memory.getLsbD_read_setSample (m : Memory) (c d : Chan) (i a : Nat) (v : Bool) :
    ((m.setSample c i v).read a).getLsbD d = if d = c ∧ a = i then v else (m.read a).getLsbD d := by
  rw [Memory.read_setSample]
  by_cases ha : a = i
  · rw [if_pos ha, getLsbD_setBit, ha]
    by_cases hd : d = c
    · rw [if_pos hd, if_pos ⟨hd, rfl⟩]
    · rw [if_neg hd, if_neg (fun h => hd h.1)]
  · rw [if_neg ha, if_neg (fun h => ha h.2)]

theorem Memory.setSample_wf {m : Memory} (h : m.wf) (c : Chan) (i : Nat) (v : Bool) : (m.setSample c i v).wf :=
  Memory.write_wf h i _

theorem Memory.getLsbD_read_fill (c d : Chan) (v : Bool) (n lo a : Nat) (m : Memory) :
    ((Memory.fill c v lo n m).read a).getLsbD d
      = if d = c ∧ lo ≤ a ∧ a < lo + n then v else (m.read a).getLsbD d := by
  induction n generalizing lo m with
  | zero => rw [if_neg (fun h => by omega)]; rfl
  | succ n ih =>
    rw [Memory.fill, ih, Memory.getLsbD_read_setSample]
    by_cases h1 : d = c ∧ lo + 1 ≤ a ∧ a < lo + 1 + n
    · rw [if_pos h1, if_pos ⟨h1.1, by omega, by omega⟩]
    · rw [if_neg h1]
      by_cases h2 : d = c ∧ a = lo
      · rw [if_pos h2, if_pos ⟨h2.1, by omega, by omega⟩]
      · rw [if_neg h2, if_neg]
        rintro ⟨hd, h3, h4⟩
        by_cases ha : a = lo
        · exact h2 ⟨hd, ha⟩
        · exact h1 ⟨hd, by omega, by omega⟩

theorem Memory.fill_wf (c : Chan) (v : Bool) (n lo : Nat) {m : Memory} (h : m.wf) : (Memory.fill c v lo n m).wf := by
  induction n generalizing lo m with
  | zero => exact h
  | succ n ih => exact ih (lo + 1) (Memory.setSample_wf h c lo v)

/-- An address outside a canonical store reads 0. -/
theorem Memory.read_of_not_mem (m : Memory) (a : Nat) (h : ∀ p ∈ m, p.1 ≠ a) : m.read a = 0#8 := by
  induction m with
  | nil => rfl
  | cons p m ih =>
    obtain ⟨k, v⟩ := p
    have hk : k ≠ a := h (k, v) (by simp)
    rw [Memory.read_cons, if_neg (Ne.symm hk), ih (fun p hp => h p (by simp [hp]))]

theorem Memory.read_clearChan {m : Memory} (h : m.wf) (c : Chan) (a : Nat) :
    (Memory.clearChan c m).read a = setBit (m.read a) c false := by
  induction m with
  | nil => simp [Memory.clearChan, setBit]
  | cons p m ih =>
    obtain ⟨k, v⟩ := p
    obtain ⟨hord, hnz⟩ := h
    rw [List.pairwise_cons] at hord
    have ih' := ih ⟨hord.2, fun p hp => hnz p (by simp [hp])⟩
    have habs : ∀ p ∈ m, p.1 ≠ k := fun p hp => Nat.ne_of_gt (hord.1 p hp)
    have hstep : Memory.clearChan c ((k, v) :: m)
        = if setBit v c false = 0#8 then Memory.clearChan c m else (k, setBit v c false) :: Memory.clearChan c m := by
      by_cases hz : setBit v c false = 0#8
      · rw [if_pos hz]; simp [Memory.clearChan, hz]
      · rw [if_neg hz]; simp [Memory.clearChan, hz]
    rw [hstep, Memory.read_cons]
    by_cases hz : setBit v c false = 0#8
    · rw [if_pos hz, ih']
      by_cases ha : a = k
      · subst ha
        rw [if_pos rfl, hz, Memory.read_of_not_mem m a habs]
        simp [setBit]
      · rw [if_neg ha]
    · rw [if_neg hz, Memory.read_cons, ih']
      split <;> rfl

theorem Memory.getLsbD_read_clearChan {m : Memory} (h : m.wf) (c d : Chan) (a : Nat) :
    ((Memory.clearChan c m).read a).getLsbD d = if d = c then false else (m.read a).getLsbD d := by
  rw [Memory.read_clearChan h, getLsbD_setBit]

theorem Memory.mem_clearChan {m : Memory} {c : Chan} {p : Host.Cell} (h : p ∈ Memory.clearChan c m) :
    ∃ q ∈ m, q.1 = p.1 ∧ p.2 ≠ 0 := by
  simp only [Memory.clearChan, List.mem_filterMap] at h
  obtain ⟨q, hq, he⟩ := h
  refine ⟨q, hq, ?_⟩
  split at he
  · cases he
  · next hz => cases he; exact ⟨rfl, hz⟩

theorem Memory.clearChan_wf {m : Memory} (h : m.wf) (c : Chan) : (Memory.clearChan c m).wf := by
  refine ⟨?_, fun p hp => ?_⟩
  · unfold Memory.clearChan
    refine List.Pairwise.filterMap _ (fun p q hpq x hx y hy => ?_) h.1
    dsimp only at hx hy
    split at hx
    · cases hx
    · cases hx
      split at hy
      · cases hy
      · cases hy; exact hpq
  · obtain ⟨q, _, _, hne⟩ := Memory.mem_clearChan hp
    exact hne

/-- The store after reset has its canonical form. -/
theorem State.reset_memory_wf : State.reset.samples.wf := by decide

end Sys2Proof.Machine
end

