-- ==== Sys2Proof/Laws/State.lean ====
section
/-! SUPPORT. One lemma per field per update of the state, each true by rfl, and what the derived readings (a channel, LEN,
TOKCNT, RATE, a sample) are after an update. -/

namespace Sys2Proof.Machine

/-! ## setChan -/

@[simp] theorem State.setChan_params (s : State) (c : Chan) (x : Channel) : (s.setChan c x).params = s.params := rfl
@[simp] theorem State.setChan_rstN (s : State) (c : Chan) (x : Channel) : (s.setChan c x).rstN = s.rstN := rfl
@[simp] theorem State.setChan_inputs (s : State) (c : Chan) (x : Channel) : (s.setChan c x).inputs = s.inputs := rfl
@[simp] theorem State.setChan_resp (s : State) (c : Chan) (x : Channel) : (s.setChan c x).resp = s.resp := rfl
@[simp] theorem State.setChan_freeCount (s : State) (c : Chan) (x : Channel) :
    (s.setChan c x).freeCount = s.freeCount := rfl
@[simp] theorem State.setChan_ie (s : State) (c : Chan) (x : Channel) : (s.setChan c x).ie = s.ie := rfl
@[simp] theorem State.setChan_status (s : State) (c : Chan) (x : Channel) : (s.setChan c x).status = s.status := rfl
@[simp] theorem State.setChan_cmd (s : State) (c : Chan) (x : Channel) : (s.setChan c x).cmd = s.cmd := rfl
@[simp] theorem State.setChan_arg0 (s : State) (c : Chan) (x : Channel) : (s.setChan c x).arg0 = s.arg0 := rfl
@[simp] theorem State.setChan_arg1 (s : State) (c : Chan) (x : Channel) : (s.setChan c x).arg1 = s.arg1 := rfl
@[simp] theorem State.setChan_res0 (s : State) (c : Chan) (x : Channel) : (s.setChan c x).res0 = s.res0 := rfl
@[simp] theorem State.setChan_res1 (s : State) (c : Chan) (x : Channel) : (s.setChan c x).res1 = s.res1 := rfl
@[simp] theorem State.setChan_errcmd (s : State) (c : Chan) (x : Channel) : (s.setChan c x).errcmd = s.errcmd := rfl
@[simp] theorem State.setChan_blptr (s : State) (c : Chan) (x : Channel) : (s.setChan c x).blptr = s.blptr := rfl
@[simp] theorem State.setChan_chans (s : State) (c : Chan) (x : Channel) :
    (s.setChan c x).chans = s.chans.set c x := rfl
@[simp] theorem State.setChan_samples (s : State) (c : Chan) (x : Channel) : (s.setChan c x).samples = s.samples := rfl
@[simp] theorem State.setChan_engine (s : State) (c : Chan) (x : Channel) : (s.setChan c x).engine = s.engine := rfl
@[simp] theorem State.setChan_bit (s : State) (c : Chan) (x : Channel) (d : Chan) (k : Nat) :
    (s.setChan c x).bit d k = s.bit d k := rfl
@[simp] theorem State.setChan_get (s : State) (c : Chan) (x : Channel) (d : Chan) (k : Nat) :
    (s.setChan c x).get d k = s.get d k := rfl

/-! ## extendLen -/

@[simp] theorem State.extendLen_params (s : State) (c : Chan) (i : Nat) : (s.extendLen c i).params = s.params := rfl
@[simp] theorem State.extendLen_rstN (s : State) (c : Chan) (i : Nat) : (s.extendLen c i).rstN = s.rstN := rfl
@[simp] theorem State.extendLen_inputs (s : State) (c : Chan) (i : Nat) : (s.extendLen c i).inputs = s.inputs := rfl
@[simp] theorem State.extendLen_resp (s : State) (c : Chan) (i : Nat) : (s.extendLen c i).resp = s.resp := rfl
@[simp] theorem State.extendLen_freeCount (s : State) (c : Chan) (i : Nat) :
    (s.extendLen c i).freeCount = s.freeCount := rfl
@[simp] theorem State.extendLen_ie (s : State) (c : Chan) (i : Nat) : (s.extendLen c i).ie = s.ie := rfl
@[simp] theorem State.extendLen_status (s : State) (c : Chan) (i : Nat) : (s.extendLen c i).status = s.status := rfl
@[simp] theorem State.extendLen_cmd (s : State) (c : Chan) (i : Nat) : (s.extendLen c i).cmd = s.cmd := rfl
@[simp] theorem State.extendLen_arg0 (s : State) (c : Chan) (i : Nat) : (s.extendLen c i).arg0 = s.arg0 := rfl
@[simp] theorem State.extendLen_arg1 (s : State) (c : Chan) (i : Nat) : (s.extendLen c i).arg1 = s.arg1 := rfl
@[simp] theorem State.extendLen_res0 (s : State) (c : Chan) (i : Nat) : (s.extendLen c i).res0 = s.res0 := rfl
@[simp] theorem State.extendLen_res1 (s : State) (c : Chan) (i : Nat) : (s.extendLen c i).res1 = s.res1 := rfl
@[simp] theorem State.extendLen_errcmd (s : State) (c : Chan) (i : Nat) : (s.extendLen c i).errcmd = s.errcmd := rfl
@[simp] theorem State.extendLen_blptr (s : State) (c : Chan) (i : Nat) : (s.extendLen c i).blptr = s.blptr := rfl
@[simp] theorem State.extendLen_samples (s : State) (c : Chan) (i : Nat) : (s.extendLen c i).samples = s.samples := rfl
@[simp] theorem State.extendLen_engine (s : State) (c : Chan) (i : Nat) : (s.extendLen c i).engine = s.engine := rfl
@[simp] theorem State.extendLen_bit (s : State) (c : Chan) (i : Nat) (d : Chan) (k : Nat) :
    (s.extendLen c i).bit d k = s.bit d k := rfl
@[simp] theorem State.extendLen_get (s : State) (c : Chan) (i : Nat) (d : Chan) (k : Nat) :
    (s.extendLen c i).get d k = s.get d k := rfl

/-! ## wr -/

@[simp] theorem State.wr_params (s : State) (c : Chan) (i : Nat) (v : Bool) : (s.wr c i v).params = s.params := rfl
@[simp] theorem State.wr_rstN (s : State) (c : Chan) (i : Nat) (v : Bool) : (s.wr c i v).rstN = s.rstN := rfl
@[simp] theorem State.wr_inputs (s : State) (c : Chan) (i : Nat) (v : Bool) : (s.wr c i v).inputs = s.inputs := rfl
@[simp] theorem State.wr_resp (s : State) (c : Chan) (i : Nat) (v : Bool) : (s.wr c i v).resp = s.resp := rfl
@[simp] theorem State.wr_freeCount (s : State) (c : Chan) (i : Nat) (v : Bool) :
    (s.wr c i v).freeCount = s.freeCount := rfl
@[simp] theorem State.wr_ie (s : State) (c : Chan) (i : Nat) (v : Bool) : (s.wr c i v).ie = s.ie := rfl
@[simp] theorem State.wr_status (s : State) (c : Chan) (i : Nat) (v : Bool) : (s.wr c i v).status = s.status := rfl
@[simp] theorem State.wr_cmd (s : State) (c : Chan) (i : Nat) (v : Bool) : (s.wr c i v).cmd = s.cmd := rfl
@[simp] theorem State.wr_arg0 (s : State) (c : Chan) (i : Nat) (v : Bool) : (s.wr c i v).arg0 = s.arg0 := rfl
@[simp] theorem State.wr_arg1 (s : State) (c : Chan) (i : Nat) (v : Bool) : (s.wr c i v).arg1 = s.arg1 := rfl
@[simp] theorem State.wr_res0 (s : State) (c : Chan) (i : Nat) (v : Bool) : (s.wr c i v).res0 = s.res0 := rfl
@[simp] theorem State.wr_res1 (s : State) (c : Chan) (i : Nat) (v : Bool) : (s.wr c i v).res1 = s.res1 := rfl
@[simp] theorem State.wr_errcmd (s : State) (c : Chan) (i : Nat) (v : Bool) : (s.wr c i v).errcmd = s.errcmd := rfl
@[simp] theorem State.wr_blptr (s : State) (c : Chan) (i : Nat) (v : Bool) : (s.wr c i v).blptr = s.blptr := rfl
@[simp] theorem State.wr_samples (s : State) (c : Chan) (i : Nat) (v : Bool) :
    (s.wr c i v).samples = s.samples.setSample c i v := rfl
@[simp] theorem State.wr_engine (s : State) (c : Chan) (i : Nat) (v : Bool) : (s.wr c i v).engine = s.engine := rfl

/-! ## wrRange -/

@[simp] theorem State.wrRange_params (s : State) (c : Chan) (lo hi : Nat) (v : Bool) :
    (s.wrRange c lo hi v).params = s.params := rfl
@[simp] theorem State.wrRange_rstN (s : State) (c : Chan) (lo hi : Nat) (v : Bool) :
    (s.wrRange c lo hi v).rstN = s.rstN := rfl
@[simp] theorem State.wrRange_inputs (s : State) (c : Chan) (lo hi : Nat) (v : Bool) :
    (s.wrRange c lo hi v).inputs = s.inputs := rfl
@[simp] theorem State.wrRange_resp (s : State) (c : Chan) (lo hi : Nat) (v : Bool) :
    (s.wrRange c lo hi v).resp = s.resp := rfl
@[simp] theorem State.wrRange_freeCount (s : State) (c : Chan) (lo hi : Nat) (v : Bool) :
    (s.wrRange c lo hi v).freeCount = s.freeCount := rfl
@[simp] theorem State.wrRange_ie (s : State) (c : Chan) (lo hi : Nat) (v : Bool) :
    (s.wrRange c lo hi v).ie = s.ie := rfl
@[simp] theorem State.wrRange_status (s : State) (c : Chan) (lo hi : Nat) (v : Bool) :
    (s.wrRange c lo hi v).status = s.status := rfl
@[simp] theorem State.wrRange_cmd (s : State) (c : Chan) (lo hi : Nat) (v : Bool) :
    (s.wrRange c lo hi v).cmd = s.cmd := rfl
@[simp] theorem State.wrRange_arg0 (s : State) (c : Chan) (lo hi : Nat) (v : Bool) :
    (s.wrRange c lo hi v).arg0 = s.arg0 := rfl
@[simp] theorem State.wrRange_arg1 (s : State) (c : Chan) (lo hi : Nat) (v : Bool) :
    (s.wrRange c lo hi v).arg1 = s.arg1 := rfl
@[simp] theorem State.wrRange_res0 (s : State) (c : Chan) (lo hi : Nat) (v : Bool) :
    (s.wrRange c lo hi v).res0 = s.res0 := rfl
@[simp] theorem State.wrRange_res1 (s : State) (c : Chan) (lo hi : Nat) (v : Bool) :
    (s.wrRange c lo hi v).res1 = s.res1 := rfl
@[simp] theorem State.wrRange_errcmd (s : State) (c : Chan) (lo hi : Nat) (v : Bool) :
    (s.wrRange c lo hi v).errcmd = s.errcmd := rfl
@[simp] theorem State.wrRange_blptr (s : State) (c : Chan) (lo hi : Nat) (v : Bool) :
    (s.wrRange c lo hi v).blptr = s.blptr := rfl
@[simp] theorem State.wrRange_samples (s : State) (c : Chan) (lo hi : Nat) (v : Bool) :
    (s.wrRange c lo hi v).samples = Memory.fill c v lo (hi + 1 - lo) s.samples := rfl
@[simp] theorem State.wrRange_engine (s : State) (c : Chan) (lo hi : Nat) (v : Bool) :
    (s.wrRange c lo hi v).engine = s.engine := rfl

/-! ## appendTokens -/

@[simp] theorem State.appendTokens_params (s : State) (c : Chan) (ts : List Token) :
    (s.appendTokens c ts).params = s.params := rfl
@[simp] theorem State.appendTokens_rstN (s : State) (c : Chan) (ts : List Token) :
    (s.appendTokens c ts).rstN = s.rstN := rfl
@[simp] theorem State.appendTokens_inputs (s : State) (c : Chan) (ts : List Token) :
    (s.appendTokens c ts).inputs = s.inputs := rfl
@[simp] theorem State.appendTokens_resp (s : State) (c : Chan) (ts : List Token) :
    (s.appendTokens c ts).resp = s.resp := rfl
@[simp] theorem State.appendTokens_freeCount (s : State) (c : Chan) (ts : List Token) :
    (s.appendTokens c ts).freeCount = s.freeCount := rfl
@[simp] theorem State.appendTokens_ie (s : State) (c : Chan) (ts : List Token) : (s.appendTokens c ts).ie = s.ie := rfl
@[simp] theorem State.appendTokens_status (s : State) (c : Chan) (ts : List Token) :
    (s.appendTokens c ts).status = s.status := rfl
@[simp] theorem State.appendTokens_cmd (s : State) (c : Chan) (ts : List Token) :
    (s.appendTokens c ts).cmd = s.cmd := rfl
@[simp] theorem State.appendTokens_arg0 (s : State) (c : Chan) (ts : List Token) :
    (s.appendTokens c ts).arg0 = s.arg0 := rfl
@[simp] theorem State.appendTokens_arg1 (s : State) (c : Chan) (ts : List Token) :
    (s.appendTokens c ts).arg1 = s.arg1 := rfl
@[simp] theorem State.appendTokens_res0 (s : State) (c : Chan) (ts : List Token) :
    (s.appendTokens c ts).res0 = s.res0 := rfl
@[simp] theorem State.appendTokens_res1 (s : State) (c : Chan) (ts : List Token) :
    (s.appendTokens c ts).res1 = s.res1 := rfl
@[simp] theorem State.appendTokens_errcmd (s : State) (c : Chan) (ts : List Token) :
    (s.appendTokens c ts).errcmd = s.errcmd := rfl
@[simp] theorem State.appendTokens_blptr (s : State) (c : Chan) (ts : List Token) :
    (s.appendTokens c ts).blptr = s.blptr := rfl
@[simp] theorem State.appendTokens_samples (s : State) (c : Chan) (ts : List Token) :
    (s.appendTokens c ts).samples = s.samples := rfl
@[simp] theorem State.appendTokens_engine (s : State) (c : Chan) (ts : List Token) :
    (s.appendTokens c ts).engine = s.engine := rfl
@[simp] theorem State.appendTokens_bit (s : State) (c : Chan) (ts : List Token) (d : Chan) (k : Nat) :
    (s.appendTokens c ts).bit d k = s.bit d k := rfl
@[simp] theorem State.appendTokens_get (s : State) (c : Chan) (ts : List Token) (d : Chan) (k : Nat) :
    (s.appendTokens c ts).get d k = s.get d k := rfl

/-! ## chReset -/

@[simp] theorem State.chReset_params (s : State) (c : Chan) : (s.chReset c).params = s.params := rfl
@[simp] theorem State.chReset_rstN (s : State) (c : Chan) : (s.chReset c).rstN = s.rstN := rfl
@[simp] theorem State.chReset_inputs (s : State) (c : Chan) : (s.chReset c).inputs = s.inputs := rfl
@[simp] theorem State.chReset_resp (s : State) (c : Chan) : (s.chReset c).resp = s.resp := rfl
@[simp] theorem State.chReset_freeCount (s : State) (c : Chan) : (s.chReset c).freeCount = s.freeCount := rfl
@[simp] theorem State.chReset_ie (s : State) (c : Chan) : (s.chReset c).ie = s.ie := rfl
@[simp] theorem State.chReset_status (s : State) (c : Chan) : (s.chReset c).status = s.status := rfl
@[simp] theorem State.chReset_cmd (s : State) (c : Chan) : (s.chReset c).cmd = s.cmd := rfl
@[simp] theorem State.chReset_arg0 (s : State) (c : Chan) : (s.chReset c).arg0 = s.arg0 := rfl
@[simp] theorem State.chReset_arg1 (s : State) (c : Chan) : (s.chReset c).arg1 = s.arg1 := rfl
@[simp] theorem State.chReset_res0 (s : State) (c : Chan) : (s.chReset c).res0 = s.res0 := rfl
@[simp] theorem State.chReset_res1 (s : State) (c : Chan) : (s.chReset c).res1 = s.res1 := rfl
@[simp] theorem State.chReset_errcmd (s : State) (c : Chan) : (s.chReset c).errcmd = s.errcmd := rfl
@[simp] theorem State.chReset_blptr (s : State) (c : Chan) : (s.chReset c).blptr = s.blptr := rfl
@[simp] theorem State.chReset_samples (s : State) (c : Chan) : (s.chReset c).samples = s.samples.clearChan c := rfl
@[simp] theorem State.chReset_engine (s : State) (c : Chan) : (s.chReset c).engine = s.engine := rfl

/-! ## bulkReplace -/

@[simp] theorem State.bulkReplace_params (s : State) : (s.bulkReplace).params = s.params := rfl
@[simp] theorem State.bulkReplace_rstN (s : State) : (s.bulkReplace).rstN = s.rstN := rfl
@[simp] theorem State.bulkReplace_inputs (s : State) : (s.bulkReplace).inputs = s.inputs := rfl
@[simp] theorem State.bulkReplace_resp (s : State) : (s.bulkReplace).resp = s.resp := rfl
@[simp] theorem State.bulkReplace_freeCount (s : State) : (s.bulkReplace).freeCount = s.freeCount := rfl
@[simp] theorem State.bulkReplace_ie (s : State) : (s.bulkReplace).ie = s.ie := rfl
@[simp] theorem State.bulkReplace_status (s : State) : (s.bulkReplace).status = s.status := rfl
@[simp] theorem State.bulkReplace_cmd (s : State) : (s.bulkReplace).cmd = s.cmd := rfl
@[simp] theorem State.bulkReplace_arg0 (s : State) : (s.bulkReplace).arg0 = s.arg0 := rfl
@[simp] theorem State.bulkReplace_arg1 (s : State) : (s.bulkReplace).arg1 = s.arg1 := rfl
@[simp] theorem State.bulkReplace_res0 (s : State) : (s.bulkReplace).res0 = s.res0 := rfl
@[simp] theorem State.bulkReplace_res1 (s : State) : (s.bulkReplace).res1 = s.res1 := rfl
@[simp] theorem State.bulkReplace_errcmd (s : State) : (s.bulkReplace).errcmd = s.errcmd := rfl
@[simp] theorem State.bulkReplace_blptr (s : State) : (s.bulkReplace).blptr = 0 := rfl
@[simp] theorem State.bulkReplace_samples (s : State) : (s.bulkReplace).samples = [] := rfl
@[simp] theorem State.bulkReplace_engine (s : State) : (s.bulkReplace).engine = s.engine := rfl

/-! ## bulkWrite -/

@[simp] theorem State.bulkWrite_params (s : State) (i : Nat) (x : Byte) : (s.bulkWrite i x).params = s.params := rfl
@[simp] theorem State.bulkWrite_rstN (s : State) (i : Nat) (x : Byte) : (s.bulkWrite i x).rstN = s.rstN := rfl
@[simp] theorem State.bulkWrite_inputs (s : State) (i : Nat) (x : Byte) : (s.bulkWrite i x).inputs = s.inputs := rfl
@[simp] theorem State.bulkWrite_resp (s : State) (i : Nat) (x : Byte) : (s.bulkWrite i x).resp = s.resp := rfl
@[simp] theorem State.bulkWrite_freeCount (s : State) (i : Nat) (x : Byte) :
    (s.bulkWrite i x).freeCount = s.freeCount := rfl
@[simp] theorem State.bulkWrite_ie (s : State) (i : Nat) (x : Byte) : (s.bulkWrite i x).ie = s.ie := rfl
@[simp] theorem State.bulkWrite_status (s : State) (i : Nat) (x : Byte) : (s.bulkWrite i x).status = s.status := rfl
@[simp] theorem State.bulkWrite_cmd (s : State) (i : Nat) (x : Byte) : (s.bulkWrite i x).cmd = s.cmd := rfl
@[simp] theorem State.bulkWrite_arg0 (s : State) (i : Nat) (x : Byte) : (s.bulkWrite i x).arg0 = s.arg0 := rfl
@[simp] theorem State.bulkWrite_arg1 (s : State) (i : Nat) (x : Byte) : (s.bulkWrite i x).arg1 = s.arg1 := rfl
@[simp] theorem State.bulkWrite_res0 (s : State) (i : Nat) (x : Byte) : (s.bulkWrite i x).res0 = s.res0 := rfl
@[simp] theorem State.bulkWrite_res1 (s : State) (i : Nat) (x : Byte) : (s.bulkWrite i x).res1 = s.res1 := rfl
@[simp] theorem State.bulkWrite_errcmd (s : State) (i : Nat) (x : Byte) : (s.bulkWrite i x).errcmd = s.errcmd := rfl
@[simp] theorem State.bulkWrite_blptr (s : State) (i : Nat) (x : Byte) : (s.bulkWrite i x).blptr = s.blptr := rfl
@[simp] theorem State.bulkWrite_samples (s : State) (i : Nat) (x : Byte) :
    (s.bulkWrite i x).samples = s.samples.write i x := rfl
@[simp] theorem State.bulkWrite_engine (s : State) (i : Nat) (x : Byte) : (s.bulkWrite i x).engine = s.engine := rfl

/-! ## issue -/

@[simp] theorem State.issue_params (s : State) (w : Word) : (s.issue w).params = s.params := rfl
@[simp] theorem State.issue_rstN (s : State) (w : Word) : (s.issue w).rstN = s.rstN := rfl
@[simp] theorem State.issue_inputs (s : State) (w : Word) : (s.issue w).inputs = s.inputs := rfl
@[simp] theorem State.issue_resp (s : State) (w : Word) : (s.issue w).resp = s.resp := rfl
@[simp] theorem State.issue_freeCount (s : State) (w : Word) : (s.issue w).freeCount = s.freeCount := rfl
@[simp] theorem State.issue_ie (s : State) (w : Word) : (s.issue w).ie = s.ie := rfl
@[simp] theorem State.issue_status (s : State) (w : Word) : (s.issue w).status = s.status.issue := rfl
@[simp] theorem State.issue_cmd (s : State) (w : Word) : (s.issue w).cmd = w := rfl
@[simp] theorem State.issue_arg0 (s : State) (w : Word) : (s.issue w).arg0 = s.arg0 := rfl
@[simp] theorem State.issue_arg1 (s : State) (w : Word) : (s.issue w).arg1 = s.arg1 := rfl
@[simp] theorem State.issue_res0 (s : State) (w : Word) : (s.issue w).res0 = s.res0 := rfl
@[simp] theorem State.issue_res1 (s : State) (w : Word) : (s.issue w).res1 = s.res1 := rfl
@[simp] theorem State.issue_errcmd (s : State) (w : Word) : (s.issue w).errcmd = s.errcmd := rfl
@[simp] theorem State.issue_blptr (s : State) (w : Word) : (s.issue w).blptr = s.blptr := rfl
@[simp] theorem State.issue_chans (s : State) (w : Word) : (s.issue w).chans = s.chans := rfl
@[simp] theorem State.issue_samples (s : State) (w : Word) : (s.issue w).samples = s.samples := rfl
@[simp] theorem State.issue_engine (s : State) (w : Word) :
    (s.issue w).engine = { cw := w, a0 := s.arg0, a1 := s.arg1 } := rfl
@[simp] theorem State.issue_chan (s : State) (w : Word) (d : Chan) : (s.issue w).chan d = s.chan d := rfl
@[simp] theorem State.issue_len (s : State) (w : Word) (d : Chan) : (s.issue w).len d = s.len d := rfl
@[simp] theorem State.issue_tokcnt (s : State) (w : Word) (d : Chan) : (s.issue w).tokcnt d = s.tokcnt d := rfl
@[simp] theorem State.issue_rate (s : State) (w : Word) (d : Chan) : (s.issue w).rate d = s.rate d := rfl
@[simp] theorem State.issue_bit (s : State) (w : Word) (d : Chan) (k : Nat) : (s.issue w).bit d k = s.bit d k := rfl
@[simp] theorem State.issue_get (s : State) (w : Word) (d : Chan) (k : Nat) : (s.issue w).get d k = s.get d k := rfl

/-! ## finish -/

@[simp] theorem State.finish_params (s : State) (r : Results) : (s.finish r).params = s.params := rfl
@[simp] theorem State.finish_rstN (s : State) (r : Results) : (s.finish r).rstN = s.rstN := rfl
@[simp] theorem State.finish_inputs (s : State) (r : Results) : (s.finish r).inputs = s.inputs := rfl
@[simp] theorem State.finish_resp (s : State) (r : Results) : (s.finish r).resp = s.resp := rfl
@[simp] theorem State.finish_freeCount (s : State) (r : Results) : (s.finish r).freeCount = s.freeCount := rfl
@[simp] theorem State.finish_ie (s : State) (r : Results) : (s.finish r).ie = s.ie := rfl
@[simp] theorem State.finish_status (s : State) (r : Results) :
    (s.finish r).status = s.status.finish r.found r.lowrate := rfl
@[simp] theorem State.finish_cmd (s : State) (r : Results) : (s.finish r).cmd = s.cmd := rfl
@[simp] theorem State.finish_arg0 (s : State) (r : Results) : (s.finish r).arg0 = s.arg0 := rfl
@[simp] theorem State.finish_arg1 (s : State) (r : Results) : (s.finish r).arg1 = s.arg1 := rfl
@[simp] theorem State.finish_res0 (s : State) (r : Results) : (s.finish r).res0 = r.res0.getD s.res0 := rfl
@[simp] theorem State.finish_res1 (s : State) (r : Results) : (s.finish r).res1 = r.res1.getD s.res1 := rfl
@[simp] theorem State.finish_errcmd (s : State) (r : Results) : (s.finish r).errcmd = s.errcmd := rfl
@[simp] theorem State.finish_blptr (s : State) (r : Results) : (s.finish r).blptr = s.blptr := rfl
@[simp] theorem State.finish_chans (s : State) (r : Results) : (s.finish r).chans = s.chans := rfl
@[simp] theorem State.finish_samples (s : State) (r : Results) : (s.finish r).samples = s.samples := rfl
@[simp] theorem State.finish_engine (s : State) (r : Results) : (s.finish r).engine = Engine.idle := rfl
@[simp] theorem State.finish_chan (s : State) (r : Results) (d : Chan) : (s.finish r).chan d = s.chan d := rfl
@[simp] theorem State.finish_len (s : State) (r : Results) (d : Chan) : (s.finish r).len d = s.len d := rfl
@[simp] theorem State.finish_tokcnt (s : State) (r : Results) (d : Chan) : (s.finish r).tokcnt d = s.tokcnt d := rfl
@[simp] theorem State.finish_rate (s : State) (r : Results) (d : Chan) : (s.finish r).rate d = s.rate d := rfl
@[simp] theorem State.finish_bit (s : State) (r : Results) (d : Chan) (k : Nat) :
    (s.finish r).bit d k = s.bit d k := rfl
@[simp] theorem State.finish_get (s : State) (r : Results) (d : Chan) (k : Nat) :
    (s.finish r).get d k = s.get d k := rfl

/-! ## raise -/

@[simp] theorem State.raise_params (s : State) (e : ErrCode) : (s.raise e).params = s.params := rfl
@[simp] theorem State.raise_rstN (s : State) (e : ErrCode) : (s.raise e).rstN = s.rstN := rfl
@[simp] theorem State.raise_inputs (s : State) (e : ErrCode) : (s.raise e).inputs = s.inputs := rfl
@[simp] theorem State.raise_resp (s : State) (e : ErrCode) : (s.raise e).resp = s.resp := rfl
@[simp] theorem State.raise_freeCount (s : State) (e : ErrCode) : (s.raise e).freeCount = s.freeCount := rfl
@[simp] theorem State.raise_ie (s : State) (e : ErrCode) : (s.raise e).ie = s.ie := rfl
@[simp] theorem State.raise_status (s : State) (e : ErrCode) : (s.raise e).status = s.status.abort e := rfl
@[simp] theorem State.raise_cmd (s : State) (e : ErrCode) : (s.raise e).cmd = s.cmd := rfl
@[simp] theorem State.raise_arg0 (s : State) (e : ErrCode) : (s.raise e).arg0 = s.arg0 := rfl
@[simp] theorem State.raise_arg1 (s : State) (e : ErrCode) : (s.raise e).arg1 = s.arg1 := rfl
@[simp] theorem State.raise_res0 (s : State) (e : ErrCode) : (s.raise e).res0 = s.res0 := rfl
@[simp] theorem State.raise_res1 (s : State) (e : ErrCode) : (s.raise e).res1 = s.res1 := rfl
@[simp] theorem State.raise_errcmd (s : State) (e : ErrCode) : (s.raise e).errcmd = s.engine.cw := rfl
@[simp] theorem State.raise_blptr (s : State) (e : ErrCode) : (s.raise e).blptr = s.blptr := rfl
@[simp] theorem State.raise_chans (s : State) (e : ErrCode) : (s.raise e).chans = s.chans := rfl
@[simp] theorem State.raise_samples (s : State) (e : ErrCode) : (s.raise e).samples = s.samples := rfl
@[simp] theorem State.raise_engine (s : State) (e : ErrCode) : (s.raise e).engine = Engine.idle := rfl
@[simp] theorem State.raise_chan (s : State) (e : ErrCode) (d : Chan) : (s.raise e).chan d = s.chan d := rfl
@[simp] theorem State.raise_len (s : State) (e : ErrCode) (d : Chan) : (s.raise e).len d = s.len d := rfl
@[simp] theorem State.raise_tokcnt (s : State) (e : ErrCode) (d : Chan) : (s.raise e).tokcnt d = s.tokcnt d := rfl
@[simp] theorem State.raise_rate (s : State) (e : ErrCode) (d : Chan) : (s.raise e).rate d = s.rate d := rfl
@[simp] theorem State.raise_bit (s : State) (e : ErrCode) (d : Chan) (k : Nat) : (s.raise e).bit d k = s.bit d k := rfl
@[simp] theorem State.raise_get (s : State) (e : ErrCode) (d : Chan) (k : Nat) : (s.raise e).get d k = s.get d k := rfl

/-! ## respond -/

@[simp] theorem State.respond_params (s : State) (r : Response) : (s.respond r).params = s.params := rfl
@[simp] theorem State.respond_rstN (s : State) (r : Response) : (s.respond r).rstN = s.rstN := rfl
@[simp] theorem State.respond_inputs (s : State) (r : Response) : (s.respond r).inputs = s.inputs := rfl
@[simp] theorem State.respond_resp (s : State) (r : Response) : (s.respond r).resp = some r := rfl
@[simp] theorem State.respond_freeCount (s : State) (r : Response) : (s.respond r).freeCount = s.freeCount := rfl
@[simp] theorem State.respond_ie (s : State) (r : Response) : (s.respond r).ie = s.ie := rfl
@[simp] theorem State.respond_status (s : State) (r : Response) : (s.respond r).status = s.status := rfl
@[simp] theorem State.respond_cmd (s : State) (r : Response) : (s.respond r).cmd = s.cmd := rfl
@[simp] theorem State.respond_arg0 (s : State) (r : Response) : (s.respond r).arg0 = s.arg0 := rfl
@[simp] theorem State.respond_arg1 (s : State) (r : Response) : (s.respond r).arg1 = s.arg1 := rfl
@[simp] theorem State.respond_res0 (s : State) (r : Response) : (s.respond r).res0 = s.res0 := rfl
@[simp] theorem State.respond_res1 (s : State) (r : Response) : (s.respond r).res1 = s.res1 := rfl
@[simp] theorem State.respond_errcmd (s : State) (r : Response) : (s.respond r).errcmd = s.errcmd := rfl
@[simp] theorem State.respond_blptr (s : State) (r : Response) : (s.respond r).blptr = s.blptr := rfl
@[simp] theorem State.respond_chans (s : State) (r : Response) : (s.respond r).chans = s.chans := rfl
@[simp] theorem State.respond_samples (s : State) (r : Response) : (s.respond r).samples = s.samples := rfl
@[simp] theorem State.respond_engine (s : State) (r : Response) : (s.respond r).engine = s.engine := rfl
@[simp] theorem State.respond_chan (s : State) (r : Response) (d : Chan) : (s.respond r).chan d = s.chan d := rfl
@[simp] theorem State.respond_len (s : State) (r : Response) (d : Chan) : (s.respond r).len d = s.len d := rfl
@[simp] theorem State.respond_tokcnt (s : State) (r : Response) (d : Chan) : (s.respond r).tokcnt d = s.tokcnt d := rfl
@[simp] theorem State.respond_rate (s : State) (r : Response) (d : Chan) : (s.respond r).rate d = s.rate d := rfl
@[simp] theorem State.respond_bit (s : State) (r : Response) (d : Chan) (k : Nat) :
    (s.respond r).bit d k = s.bit d k := rfl
@[simp] theorem State.respond_get (s : State) (r : Response) (d : Chan) (k : Nat) :
    (s.respond r).get d k = s.get d k := rfl

/-! ## completed -/

@[simp] theorem State.completed_params (s : State) (f l : Bool) : (s.completed f l).params = s.params := rfl
@[simp] theorem State.completed_rstN (s : State) (f l : Bool) : (s.completed f l).rstN = s.rstN := rfl
@[simp] theorem State.completed_inputs (s : State) (f l : Bool) : (s.completed f l).inputs = s.inputs := rfl
@[simp] theorem State.completed_resp (s : State) (f l : Bool) : (s.completed f l).resp = s.resp := rfl
@[simp] theorem State.completed_freeCount (s : State) (f l : Bool) : (s.completed f l).freeCount = s.freeCount := rfl
@[simp] theorem State.completed_ie (s : State) (f l : Bool) : (s.completed f l).ie = s.ie := rfl
@[simp] theorem State.completed_cmd (s : State) (f l : Bool) : (s.completed f l).cmd = s.cmd := rfl
@[simp] theorem State.completed_arg0 (s : State) (f l : Bool) : (s.completed f l).arg0 = s.arg0 := rfl
@[simp] theorem State.completed_arg1 (s : State) (f l : Bool) : (s.completed f l).arg1 = s.arg1 := rfl
@[simp] theorem State.completed_res0 (s : State) (f l : Bool) : (s.completed f l).res0 = s.res0 := rfl
@[simp] theorem State.completed_res1 (s : State) (f l : Bool) : (s.completed f l).res1 = s.res1 := rfl
@[simp] theorem State.completed_errcmd (s : State) (f l : Bool) : (s.completed f l).errcmd = s.errcmd := rfl
@[simp] theorem State.completed_blptr (s : State) (f l : Bool) : (s.completed f l).blptr = s.blptr := rfl
@[simp] theorem State.completed_chans (s : State) (f l : Bool) : (s.completed f l).chans = s.chans := rfl
@[simp] theorem State.completed_samples (s : State) (f l : Bool) : (s.completed f l).samples = s.samples := rfl
@[simp] theorem State.completed_engine (s : State) (f l : Bool) : (s.completed f l).engine = Engine.idle := rfl
@[simp] theorem State.completed_chan (s : State) (f l : Bool) (d : Chan) : (s.completed f l).chan d = s.chan d := rfl
@[simp] theorem State.completed_len (s : State) (f l : Bool) (d : Chan) : (s.completed f l).len d = s.len d := rfl
@[simp] theorem State.completed_tokcnt (s : State) (f l : Bool) (d : Chan) :
    (s.completed f l).tokcnt d = s.tokcnt d := rfl
@[simp] theorem State.completed_rate (s : State) (f l : Bool) (d : Chan) : (s.completed f l).rate d = s.rate d := rfl
@[simp] theorem State.completed_bit (s : State) (f l : Bool) (d : Chan) (k : Nat) :
    (s.completed f l).bit d k = s.bit d k := rfl
@[simp] theorem State.completed_get (s : State) (f l : Bool) (d : Chan) (k : Nat) :
    (s.completed f l).get d k = s.get d k := rfl

/-! ## aborted -/

@[simp] theorem State.aborted_params (s : State) (e : ErrCode) : (s.aborted e).params = s.params := rfl
@[simp] theorem State.aborted_rstN (s : State) (e : ErrCode) : (s.aborted e).rstN = s.rstN := rfl
@[simp] theorem State.aborted_inputs (s : State) (e : ErrCode) : (s.aborted e).inputs = s.inputs := rfl
@[simp] theorem State.aborted_resp (s : State) (e : ErrCode) : (s.aborted e).resp = s.resp := rfl
@[simp] theorem State.aborted_freeCount (s : State) (e : ErrCode) : (s.aborted e).freeCount = s.freeCount := rfl
@[simp] theorem State.aborted_ie (s : State) (e : ErrCode) : (s.aborted e).ie = s.ie := rfl
@[simp] theorem State.aborted_cmd (s : State) (e : ErrCode) : (s.aborted e).cmd = s.cmd := rfl
@[simp] theorem State.aborted_arg0 (s : State) (e : ErrCode) : (s.aborted e).arg0 = s.arg0 := rfl
@[simp] theorem State.aborted_arg1 (s : State) (e : ErrCode) : (s.aborted e).arg1 = s.arg1 := rfl
@[simp] theorem State.aborted_res0 (s : State) (e : ErrCode) : (s.aborted e).res0 = s.res0 := rfl
@[simp] theorem State.aborted_res1 (s : State) (e : ErrCode) : (s.aborted e).res1 = s.res1 := rfl
@[simp] theorem State.aborted_errcmd (s : State) (e : ErrCode) : (s.aborted e).errcmd = s.engine.cw := rfl
@[simp] theorem State.aborted_blptr (s : State) (e : ErrCode) : (s.aborted e).blptr = s.blptr := rfl
@[simp] theorem State.aborted_chans (s : State) (e : ErrCode) : (s.aborted e).chans = s.chans := rfl
@[simp] theorem State.aborted_samples (s : State) (e : ErrCode) : (s.aborted e).samples = s.samples := rfl
@[simp] theorem State.aborted_engine (s : State) (e : ErrCode) : (s.aborted e).engine = Engine.idle := rfl
@[simp] theorem State.aborted_chan (s : State) (e : ErrCode) (d : Chan) : (s.aborted e).chan d = s.chan d := rfl
@[simp] theorem State.aborted_len (s : State) (e : ErrCode) (d : Chan) : (s.aborted e).len d = s.len d := rfl
@[simp] theorem State.aborted_tokcnt (s : State) (e : ErrCode) (d : Chan) : (s.aborted e).tokcnt d = s.tokcnt d := rfl
@[simp] theorem State.aborted_rate (s : State) (e : ErrCode) (d : Chan) : (s.aborted e).rate d = s.rate d := rfl
@[simp] theorem State.aborted_bit (s : State) (e : ErrCode) (d : Chan) (k : Nat) :
    (s.aborted e).bit d k = s.bit d k := rfl
@[simp] theorem State.aborted_get (s : State) (e : ErrCode) (d : Chan) (k : Nat) :
    (s.aborted e).get d k = s.get d k := rfl

/-! ## Channels after an update -/

theorem State.chan_setChan (s : State) (c d : Chan) (x : Channel) :
    (s.setChan c x).chan d = if d = c then x else s.chan d := by
  simp only [State.chan, State.setChan, Fin.getElem_fin, Vector.getElem_set]
  by_cases h : d = c
  · rw [if_pos h, if_pos (congrArg Fin.val h.symm)]
  · rw [if_neg h, if_neg (fun e => h (Fin.ext e.symm))]

@[simp] theorem State.chan_setChan_self (s : State) (c : Chan) (x : Channel) : (s.setChan c x).chan c = x := by
  rw [State.chan_setChan, if_pos rfl]

theorem State.chan_extendLen (s : State) (c d : Chan) (i : Nat) :
    (s.extendLen c i).chan d
      = if d = c then { s.chan c with len := storeNat (max (s.len c) i) } else s.chan d :=
  State.chan_setChan s c d _

theorem State.chan_wr (s : State) (c d : Chan) (i : Nat) (v : Bool) :
    (s.wr c i v).chan d = if d = c then { s.chan c with len := storeNat (max (s.len c) i) } else s.chan d :=
  State.chan_extendLen _ c d i

theorem State.chan_wrRange (s : State) (c d : Chan) (lo hi : Nat) (v : Bool) :
    (s.wrRange c lo hi v).chan d = if d = c then { s.chan c with len := storeNat (max (s.len c) hi) } else s.chan d :=
  State.chan_extendLen _ c d hi

theorem State.chan_appendTokens (s : State) (c d : Chan) (ts : List Token) :
    (s.appendTokens c ts).chan d
      = if d = c then { s.chan c with tokens := (s.chan c).tokens ++ ts } else s.chan d :=
  State.chan_setChan s c d _

theorem State.chan_chReset (s : State) (c d : Chan) :
    (s.chReset c).chan d = if d = c then { s.chan c with len := 0, tokens := [] } else s.chan d :=
  State.chan_setChan _ c d _

@[simp] theorem mapChans_get (f : Channel → Channel) (v : Vector Channel 8) (c : Chan) :
    (mapChans f v)[c] = f v[c] := by
  fin_cases c <;> rfl

@[simp] theorem State.chan_bulkReplace (s : State) (d : Chan) : s.bulkReplace.chan d = { s.chan d with len := 0 } := by
  simp only [State.chan, State.bulkReplace, mapChans_get]

@[simp] theorem State.chan_bulkWrite (s : State) (i : Nat) (x : Byte) (d : Chan) :
    (s.bulkWrite i x).chan d = { s.chan d with len := storeNat (max (s.len d) i) } := by
  simp only [State.chan, State.bulkWrite, State.len, mapChans_get]

/-- Two states with the same channels have the same vector of channels. -/
theorem State.chans_ext {s t : State} (h : ∀ d, s.chan d = t.chan d) : s.chans = t.chans :=
  Vector.ext (fun i hi => h ⟨i, hi⟩)

@[simp] theorem State.setChan_chan (s : State) (c : Chan) : s.setChan c (s.chan c) = s := by
  have h : (s.setChan c (s.chan c)).chans = s.chans :=
    State.chans_ext (fun d => by rw [State.chan_setChan]; split <;> simp_all)
  calc s.setChan c (s.chan c) = { s with chans := (s.setChan c (s.chan c)).chans } := rfl
    _ = s := by rw [h]

@[simp] theorem State.setChan_setChan (s : State) (c : Chan) (x y : Channel) :
    (s.setChan c x).setChan c y = s.setChan c y := by
  have h : ((s.setChan c x).setChan c y).chans = (s.setChan c y).chans :=
    State.chans_ext (fun d => by simp only [State.chan_setChan]; split <;> rfl)
  calc (s.setChan c x).setChan c y = { s with chans := ((s.setChan c x).setChan c y).chans } := rfl
    _ = s.setChan c y := by rw [h]; rfl

@[simp] theorem State.appendTokens_nil (s : State) (c : Chan) : s.appendTokens c [] = s := by
  simp only [State.appendTokens, List.append_nil]
  exact State.setChan_chan s c

theorem State.appendTokens_appendTokens (s : State) (c : Chan) (ts us : List Token) :
    (s.appendTokens c ts).appendTokens c us = s.appendTokens c (ts ++ us) := by
  simp only [State.appendTokens, State.chan_setChan_self, State.setChan_setChan, List.append_assoc]

@[simp] theorem State.len_appendTokens (s : State) (c d : Chan) (ts : List Token) :
    (s.appendTokens c ts).len d = s.len d := by
  simp only [State.len, State.chan_appendTokens]; split <;> simp_all

@[simp] theorem State.rate_appendTokens (s : State) (c d : Chan) (ts : List Token) :
    (s.appendTokens c ts).rate d = s.rate d := by
  simp only [State.rate, State.chan_appendTokens]; split <;> simp_all

@[simp] theorem State.tokcnt_appendTokens_self (s : State) (c : Chan) (ts : List Token) :
    (s.appendTokens c ts).tokcnt c = s.tokcnt c + ts.length := by
  simp [State.tokcnt, State.chan_appendTokens]

/-! ## Samples after an update -/

theorem State.bit_wr (s : State) (c d : Chan) (i k : Nat) (v : Bool) :
    (s.wr c i v).bit d k = if d = c ∧ k = i then v else s.bit d k :=
  Memory.getLsbD_read_setSample s.samples c d i k v

theorem State.bit_wrRange (s : State) (c d : Chan) (lo hi k : Nat) (v : Bool) (h : lo ≤ hi) :
    (s.wrRange c lo hi v).bit d k = if d = c ∧ lo ≤ k ∧ k ≤ hi then v else s.bit d k := by
  have hr : (d = c ∧ lo ≤ k ∧ k < lo + (hi + 1 - lo)) ↔ (d = c ∧ lo ≤ k ∧ k ≤ hi) := by
    constructor <;> rintro ⟨h1, h2, h3⟩ <;> exact ⟨h1, h2, by omega⟩
  exact (Memory.getLsbD_read_fill c d v (hi + 1 - lo) lo k s.samples).trans (if_congr hr rfl rfl)

theorem State.bit_chReset (s : State) (h : s.samples.wf) (c d : Chan) (k : Nat) :
    (s.chReset c).bit d k = if d = c then false else s.bit d k :=
  Memory.getLsbD_read_clearChan h c d k

@[simp] theorem State.bit_bulkReplace (s : State) (d : Chan) (k : Nat) : s.bulkReplace.bit d k = false := by
  simp [State.bit]

theorem State.bit_bulkWrite (s : State) (i : Nat) (x : Byte) (d : Chan) (k : Nat) :
    (s.bulkWrite i x).bit d k = if k = i then x.getLsbD d else s.bit d k := by
  simp only [State.bit, State.bulkWrite_samples, Memory.read_write]; split <;> rfl

/-! ## The words a completion and an abort leave -/

/-- `finish` is a completion with the named results written. -/
theorem State.finish_eq (s : State) (r : Results) :
    s.finish r
      = { s.completed r.found r.lowrate with res0 := r.res0.getD s.res0, res1 := r.res1.getD s.res1 } := rfl

/-- `raise` is an abort. -/
theorem State.raise_eq (s : State) (e : ErrCode) : s.raise e = s.aborted e := rfl

end Sys2Proof.Machine
end

