-- ==== Sys2Proof/Laws/Bus.lean ====
section
/-! SUPPORT. What a step does with each input, and what the address map gives at each listed address. -/

namespace Sys2Proof.Machine

/-! ## One step per input -/

theorem step_read {s : State} {a : Addr} {rest : List Input} (h : NextInput s (.read a) rest) :
    step s = .next (State.busRead { s with inputs := rest } a) := by
  simp only [step, nextInput, h.2, h.1, takeInput, if_true]

theorem step_write {s : State} {a : Addr} {v : Word} {rest : List Input} (h : NextInput s (.write a v) rest) :
    step s = .next (State.busWrite { s with inputs := rest } a v) := by
  simp only [step, nextInput, h.2, h.1, takeInput, if_true]

theorem step_engine {s : State} {rest : List Input} (h : NextInput s .engine rest) :
    step s = engineTurn { s with inputs := rest } := by
  simp only [step, nextInput, h.2, h.1, takeInput, if_true]

theorem step_rstN {s : State} {level : Bool} {rest : List Input} (h : NextInput s (.rstN level) rest) :
    step s = .next (State.setRstN { s with inputs := rest } level) := by
  simp only [step, nextInput, h.2, h.1, takeInput, if_true]

theorem step_last {s : State} (h : s.rstN = true) (hi : s.inputs = []) : step s = engineTurn s := by
  simp only [step, nextInput, hi, h, if_true]

/-- While `rst_n` is low the block holds its reset state. -/
theorem step_held {s : State} {x : Input} {rest : List Input} (h : s.rstN = false) (hi : s.inputs = x :: rest) :
    step s = .next
      { State.resetOf s.params with
        rstN := decide (x = .rstN true), inputs := rest, freeCount := s.freeCount } := by
  simp only [step, nextInput, hi, h, Bool.false_eq_true, if_false]
  cases x with
  | read a =>
    rw [decide_eq_false (by simp)]; simp only [takeInputHeld, State.heldReset, State.blockReset]; rfl
  | write a v =>
    rw [decide_eq_false (by simp)]; simp only [takeInputHeld, State.heldReset, State.blockReset]; rfl
  | engine =>
    rw [decide_eq_false (by simp)]; simp only [takeInputHeld, State.heldReset, State.blockReset]; rfl
  | rstN level =>
    cases level
    · rw [decide_eq_false (by simp)]
      simp only [takeInputHeld, State.setRstN, Bool.false_and, Bool.false_eq_true, if_false]; rfl
    · rw [decide_eq_true rfl]
      simp only [takeInputHeld, State.setRstN, Bool.false_and, Bool.false_eq_true, if_false]; rfl

/-! ## The address map -/

theorem regAt_id (n : Nat) : regAt n 0x00#20 = .ok .id := rfl
theorem regAt_params (n : Nat) : regAt n 0x04#20 = .ok .params := rfl
theorem regAt_capr (n : Nat) : regAt n 0x08#20 = .ok .capr := rfl
theorem regAt_tokcapr (n : Nat) : regAt n 0x0C#20 = .ok .tokcapr := rfl
theorem regAt_ctrl (n : Nat) : regAt n 0x10#20 = .ok .ctrl := rfl
theorem regAt_status (n : Nat) : regAt n 0x14#20 = .ok .status := rfl
theorem regAt_cmd (n : Nat) : regAt n 0x18#20 = .ok .cmd := rfl
theorem regAt_arg0 (n : Nat) : regAt n 0x1C#20 = .ok .arg0 := rfl
theorem regAt_arg1 (n : Nat) : regAt n 0x20#20 = .ok .arg1 := rfl
theorem regAt_res0 (n : Nat) : regAt n 0x24#20 = .ok .res0 := rfl
theorem regAt_res1 (n : Nat) : regAt n 0x28#20 = .ok .res1 := rfl
theorem regAt_errcmd (n : Nat) : regAt n 0x2C#20 = .ok .errcmd := rfl
theorem regAt_blptr (n : Nat) : regAt n 0x30#20 = .ok .blptr := rfl

theorem regAt_cfg (n : Nat) (c : Chan) : regAt n (BitVec.ofNat 20 (0x100 + 0x20 * c.val)) = .ok (.cfg c) := by
  fin_cases c <;> rfl

theorem regAt_baud (n : Nat) (c : Chan) : regAt n (BitVec.ofNat 20 (0x100 + 0x20 * c.val + 4)) = .ok (.baud c) := by
  fin_cases c <;> rfl

theorem regAt_rate (n : Nat) (c : Chan) : regAt n (BitVec.ofNat 20 (0x100 + 0x20 * c.val + 8)) = .ok (.rate c) := by
  fin_cases c <;> rfl

theorem regAt_len (n : Nat) (c : Chan) : regAt n (BitVec.ofNat 20 (0x100 + 0x20 * c.val + 0xC)) = .ok (.len c) := by
  fin_cases c <;> rfl

theorem regAt_tokcnt (n : Nat) (c : Chan) :
    regAt n (BitVec.ofNat 20 (0x100 + 0x20 * c.val + 0x10)) = .ok (.tokcnt c) := by
  fin_cases c <;> rfl

theorem regAt_chstat (n : Nat) (c : Chan) :
    regAt n (BitVec.ofNat 20 (0x100 + 0x20 * c.val + 0x14)) = .ok (.chstat c) := by
  fin_cases c <;> rfl

/-- A word of a token record below TOKCAP. -/
theorem regAt_tok (n : Nat) (c : Chan) (t : Nat) (w : Fin 4) (h : t < n) (h' : t < 4096) :
    regAt n (BitVec.ofNat 20 (0x10000 * (c.val + 1) + 16 * t + 4 * w.val)) = .ok (.tok c t w) := by
  have hc := c.isLt
  have hw := w.isLt
  have hx : (BitVec.ofNat 20 (0x10000 * (c.val + 1) + 16 * t + 4 * w.val)).toNat
      = 0x10000 * (c.val + 1) + 16 * t + 4 * w.val := by
    rw [BitVec.toNat_ofNat]; omega
  unfold regAt
  rw [hx]
  generalize hy : 0x10000 * (c.val + 1) + 16 * t + 4 * w.val = y
  have h1 : y % 4 = 0 := by omega
  have h2 : ¬ y < 0x100 := by omega
  have h3 : ¬ y < 0x200 := by omega
  have h4 : ¬ y < 0x10000 := by omega
  have h5 : y < 0x90000 := by omega
  have h6 : y % 0x10000 / 16 = t := by omega
  have h7 : y / 0x10000 - 1 = c.val := by omega
  have h8 : y % 16 / 4 = w.val := by omega
  simp only [h1, ne_eq, not_true_eq_false, if_false, h2, h3, h4, h5, if_true, h6, h, h7, h8, Fin.ofNat]
  congr 2
  · exact Fin.ext (Nat.mod_eq_of_lt hc)
  · exact Fin.ext (Nat.mod_eq_of_lt hw)

/-! ## Reads -/

/-- A listed address whose value is fixed now reads as that value. -/
theorem readsAs_of {s : State} {a : Addr} {r : Reg} {v : Word} (hr : regAt s.params.tokcap a = .ok r)
    (hv : s.readNow r = some v) : ReadsAs s a v := by
  intro hs rest
  rw [step_read (s := { s with inputs := .read a :: rest }) (rest := rest) ⟨hs, rfl⟩]
  have hv' : State.readNow { s with inputs := rest } r = some v := hv
  simp only [State.busRead, hr, hv', State.respond]

/-- A listed address whose value is open now reads as a free value. -/
theorem readsFree_of {s : State} {a : Addr} {r : Reg} (hs : s.rstN = true) (hr : regAt s.params.tokcap a = .ok r)
    (hv : s.readNow r = none) : ReadsFree s a := by
  intro rest
  rw [step_read (s := { s with inputs := .read a :: rest }) (rest := rest) ⟨hs, rfl⟩]
  have hv' : State.readNow { s with inputs := rest } r = none := hv
  simp only [State.busRead, hr, hv', State.respond]

end Sys2Proof.Machine
end

