-- ==== Sys2Proof/Laws/Ops.lean ====
section
/-! SUPPORT. One lemma per shared operation that says once what it can do: the checks, the edge searches, emission, the
endings of a command. The provers cite these instead of unfolding the operation. -/

namespace Sys2Proof.Machine

/-! ## Operands and checks -/

theorem channelOf_eq_some {f : BitVec 4} {c : Chan} : channelOf f = some c ↔ f.toNat = c.val := by
  unfold channelOf
  split
  · exact ⟨fun h => by cases h; rfl, fun h => congrArg some (Fin.ext h)⟩
  · next h => exact ⟨fun e => (nomatch e), fun e => absurd (e ▸ c.isLt) h⟩

theorem channelOf_eq_none {f : BitVec 4} : channelOf f = none ↔ 8 ≤ f.toNat := by
  unfold channelOf
  split
  · next h => exact ⟨fun e => (nomatch e), fun e => absurd h (Nat.not_lt.2 e)⟩
  · next h => exact ⟨fun _ => Nat.not_lt.1 h, fun _ => rfl⟩

/-- RATE and BAUD are legal exactly when check 4 does not fail on them. -/
theorem legalRate_iff (w : Word) : legalRate w = true ↔ ¬ badRate w := by
  unfold legalRate badRate zext
  rw [Bool.and_eq_true, decide_eq_true_iff, decide_eq_true_iff]
  omega

/-- Check 2 passes: the command goes on with its channel. -/
theorem withChannel_pass {ch : BitVec 4} {c : Chan} (h : ch.toNat = c.val) (s : State) (k : Chan → Result) :
    withChannel ch s k = k c := by
  simp only [withChannel, channelOf_eq_some.2 h]

/-- Check 2 fails. -/
theorem withChannel_fail {ch : BitVec 4} (h : 8 ≤ ch.toNat) (s : State) (k : Chan → Result) :
    withChannel ch s k = .next (s.aborted .ebadch) := by
  simp only [withChannel, channelOf_eq_none.2 h]; rfl

/-- Check 2 either names a channel or aborts. -/
theorem withChannel_cases (ch : BitVec 4) (s : State) (k : Chan → Result) :
    (∃ c : Chan, ch.toNat = c.val ∧ withChannel ch s k = k c)
      ∨ (8 ≤ ch.toNat ∧ withChannel ch s k = .next (s.aborted .ebadch)) := by
  by_cases h : ch.toNat < 8
  · exact .inl ⟨⟨ch.toNat, h⟩, rfl, withChannel_pass (c := ⟨ch.toNat, h⟩) rfl s k⟩
  · exact .inr ⟨Nat.not_lt.1 h, withChannel_fail (Nat.not_lt.1 h) s k⟩

/-- The option check of the OW commands. -/
theorem withOw_eq (s : State) (k : Result) :
    withOw s k = if s.params.hasOw = true then k else .next (s.aborted .ebadop) := rfl

/-- Check 4 on RATE. -/
theorem withRate_pass {s : State} {c : Chan} (h : ¬ badRate (s.chan c).rate) (k : Result) : withRate c s k = k := by
  rw [withRate, if_pos ((legalRate_iff _).2 h)]

/-- Check 4 on RATE fails. -/
theorem withRate_fail {s : State} {c : Chan} (h : badRate (s.chan c).rate) (k : Result) :
    withRate c s k = .next (s.aborted .ecfg) := by
  rw [withRate, if_neg (fun e => (legalRate_iff _).1 e h)]; rfl

/-- Check 5: the clock channel. -/
theorem withClock_pass {s : State} {c d : Chan} (h : (s.chan c).cfg.clksrc.toNat = d.val) (k : Chan → Result) :
    withClock c s k = k d := by
  simp only [withClock, Cfg.clock, channelOf_eq_some.2 h]

/-- Check 5 fails. -/
theorem withClock_fail {s : State} {c : Chan} (h : 8 ≤ (s.chan c).cfg.clksrc.toNat) (k : Chan → Result) :
    withClock c s k = .next (s.aborted .enoclk) := by
  simp only [withClock, Cfg.clock, channelOf_eq_none.2 h]; rfl

/-- Check 6 on one index. -/
theorem withIndex_eq (i : Nat) (s : State) (k : Result) :
    withIndex i s k = if i < s.params.cap then k else .next (s.aborted .eidx) := rfl

/-- Check 6 on a range. -/
theorem withRange_eq (lo hi : Nat) (s : State) (k : Result) :
    withRange lo hi s k = if lo ≤ hi ∧ hi < s.params.cap then k else .next (s.aborted .eidx) := rfl

/-- A completion that names no result. -/
theorem complete_none (s : State) : complete s Results.none = .next (s.completed false false) := rfl

/-- A completion of a search. -/
theorem complete_search (s : State) (r0 : Word) (r1 : Option Word) (found : Bool) :
    complete s (Results.search r0 r1 found)
      = .next { s.completed found false with res0 := r0, res1 := r1.getD s.res1 } := rfl

/-- A completion of a decode. -/
theorem complete_decoded (s : State) (low : Bool) :
    complete s (Results.decoded low) = .next (s.completed false low) := rfl

theorem abort_eq (s : State) (e : ErrCode) : abort s e = .next (s.aborted e) := rfl

/-! ## Edge search -/

theorem firstFrom_eq_some {p : Nat → Bool} {lo n j : Nat} :
    firstFrom p lo n = some j ↔ IsLeast { k | lo ≤ k ∧ k < lo + n ∧ p k = true } j := by
  induction n generalizing lo with
  | zero =>
    refine ⟨fun h => (nomatch h), fun h => ?_⟩
    have := h.1.1; have := h.1.2.1; omega
  | succ n ih =>
    unfold firstFrom
    split
    · next hp =>
      refine ⟨fun h => ?_, fun h => ?_⟩
      · cases h
        exact ⟨⟨Nat.le_refl _, by omega, hp⟩, fun k hk => hk.1⟩
      · exact congrArg some (Nat.le_antisymm h.1.1 (h.2 ⟨Nat.le_refl _, by omega, hp⟩))
    · next hp =>
      rw [ih]
      have hset : { k | lo + 1 ≤ k ∧ k < lo + 1 + n ∧ p k = true } = { k | lo ≤ k ∧ k < lo + (n + 1) ∧ p k = true } := by
        ext k
        constructor
        · rintro ⟨h1, h2, h3⟩; exact ⟨by omega, by omega, h3⟩
        · rintro ⟨h1, h2, h3⟩
          have : k ≠ lo := fun e => hp (e ▸ h3)
          exact ⟨by omega, by omega, h3⟩
      rw [hset]

theorem firstFrom_eq_none {p : Nat → Bool} {lo n : Nat} :
    firstFrom p lo n = none ↔ ∀ k, lo ≤ k → k < lo + n → p k = false := by
  induction n generalizing lo with
  | zero => exact ⟨fun _ k h1 h2 => by omega, fun _ => rfl⟩
  | succ n ih =>
    unfold firstFrom
    split
    · next hp =>
      refine ⟨fun h => (nomatch h), fun h => ?_⟩
      rw [h lo (Nat.le_refl _) (by omega)] at hp; cases hp
    · next hp =>
      rw [ih]
      refine ⟨fun h k h1 h2 => ?_, fun h k h1 h2 => h k (by omega) (by omega)⟩
      by_cases e : k = lo
      · rw [e]; exact Bool.eq_false_iff.2 hp
      · exact h k (by omega) (by omega)

/-- `firstIn` is the minimum of a set. -/
theorem firstIn_eq_some {p : Nat → Bool} {lo L j : Nat} :
    firstIn p lo L = some j ↔ IsLeast { k | lo ≤ k ∧ k < L ∧ p k = true } j := by
  unfold firstIn
  rw [firstFrom_eq_some]
  have hset : { k | lo ≤ k ∧ k < lo + (L - lo) ∧ p k = true } = { k | lo ≤ k ∧ k < L ∧ p k = true } := by
    ext k
    constructor <;> rintro ⟨h1, h2, h3⟩ <;> exact ⟨h1, by omega, h3⟩
  rw [hset]

/-- `firstIn` finds nothing exactly when there is nothing. -/
theorem firstIn_eq_none {p : Nat → Bool} {lo L : Nat} :
    firstIn p lo L = none ↔ ∀ k, lo ≤ k → k < L → p k = false := by
  unfold firstIn
  rw [firstFrom_eq_none]
  exact ⟨fun h k h1 h2 => h k h1 (by omega), fun h k h1 h2 => h k h1 (by omega)⟩

/-- The edge search finds what the sets I and J define. -/
theorem edgeFrom_eq_some {s : State} {c : Chan} {before : Bool} {start j : Nat} :
    s.edgeFrom c before start = some j ↔ EdgeFound s c before start j := by
  unfold State.edgeFrom EdgeFound
  split
  · next h =>
    rw [firstIn_eq_none] at h
    refine ⟨fun e => (nomatch e), fun ⟨i, hi, _⟩ => ?_⟩
    have := h i hi.1.1 hi.1.2.1
    rw [hi.1.2.2] at this; simp at this
  · next i h =>
    rw [firstIn_eq_some] at h
    simp only [beq_iff_eq] at h
    rw [firstIn_eq_some]
    simp only [beq_iff_eq, Nat.succ_le_iff]
    refine ⟨fun e => ⟨i, h, e⟩, fun ⟨i', hi', e⟩ => ?_⟩
    rw [h.unique hi']; exact e

theorem edgeFrom_eq_none {s : State} {c : Chan} {before : Bool} {start : Nat} :
    s.edgeFrom c before start = none ↔ ¬ ∃ j, EdgeFound s c before start j := by
  rw [Option.eq_none_iff_forall_ne_some]
  simp only [ne_eq, edgeFrom_eq_some, not_exists]

/-- There is at most one edge to find. -/
theorem EdgeFound.unique {s : State} {c : Chan} {before : Bool} {start i j : Nat}
    (hi : EdgeFound s c before start i) (hj : EdgeFound s c before start j) : i = j :=
  Option.some.inj ((edgeFrom_eq_some.2 hi).symm.trans (edgeFrom_eq_some.2 hj))

/-- An edge lies after the start and below LEN, and the sample there is at the new level. -/
theorem EdgeFound.bounds {s : State} {c : Chan} {before : Bool} {start j : Nat} (h : EdgeFound s c before start j) :
    start < j ∧ j < s.len c ∧ s.get c j = !before := by
  obtain ⟨i, hi, hj⟩ := h
  exact ⟨Nat.lt_of_le_of_lt hi.1.1 hj.1.1, hj.1.2.1, hj.1.2.2⟩

theorem nfeNat_eq_some {s : State} {c : Chan} {start j : Nat} :
    s.nfeNat c start = some j ↔ EdgeFound s c true start j := edgeFrom_eq_some

theorem nreNat_eq_some {s : State} {c : Chan} {start j : Nat} :
    s.nreNat c start = some j ↔ EdgeFound s c false start j := edgeFrom_eq_some

theorem nfeNat_eq_none {s : State} {c : Chan} {start : Nat} :
    s.nfeNat c start = none ↔ ¬ ∃ j, EdgeFound s c true start j := edgeFrom_eq_none

theorem nreNat_eq_none {s : State} {c : Chan} {start : Nat} :
    s.nreNat c start = none ↔ ¬ ∃ j, EdgeFound s c false start j := edgeFrom_eq_none

theorem nfe_eq_some {s : State} {c : Chan} {start : Int} {j : Nat} :
    s.nfe c start = some j ↔ 0 ≤ start ∧ EdgeFound s c true start.toNat j := by
  unfold State.nfe
  split
  · exact ⟨fun h => (nomatch h), fun h => by omega⟩
  · rw [nfeNat_eq_some]; exact ⟨fun h => ⟨by omega, h⟩, fun h => h.2⟩

theorem nre_eq_some {s : State} {c : Chan} {start : Int} {j : Nat} :
    s.nre c start = some j ↔ 0 ≤ start ∧ EdgeFound s c false start.toNat j := by
  unfold State.nre
  split
  · exact ⟨fun h => (nomatch h), fun h => by omega⟩
  · rw [nreNat_eq_some]; exact ⟨fun h => ⟨by omega, h⟩, fun h => h.2⟩

/-- The pulse search finds the pulse, with its midpoint. -/
theorem pulse_eq_some {s : State} {c : Chan} {start : Int} {p : Pulse} :
    s.pulse c start = some p ↔
      0 ≤ start ∧ PulseFound s c start.toNat p.rise p.fall ∧ p.mid = p.rise + (p.fall - p.rise) / 2 := by
  obtain ⟨r, f, mid⟩ := p
  unfold State.pulse PulseFound
  split
  · next h =>
    refine ⟨fun e => (nomatch e), fun ⟨h0, ⟨hr, _⟩, _⟩ => ?_⟩
    rw [nre_eq_some.2 ⟨h0, hr⟩] at h; cases h
  · next r' h =>
    obtain ⟨h0, hr⟩ := nre_eq_some.1 h
    split
    · next hf =>
      refine ⟨fun e => (nomatch e), fun ⟨_, ⟨hr', hf'⟩, _⟩ => ?_⟩
      dsimp only at hr' hf'
      rw [← hr.unique hr'] at hf'
      exact absurd ⟨_, hf'⟩ (nfeNat_eq_none.1 hf)
    · next f' hf =>
      have hf := nfeNat_eq_some.1 hf
      refine ⟨fun e => by cases e; exact ⟨h0, ⟨hr, hf⟩, rfl⟩, fun ⟨_, ⟨hr', hf'⟩, hm⟩ => ?_⟩
      dsimp only at hr' hf' hm
      have e1 := hr.unique hr'
      subst e1
      have e2 := hf.unique hf'
      subst e2
      rw [hm]

/-- The period is the gap of the first two rising edges. -/
theorem period_eq_some {s : State} {c : Chan} {T : Nat} : s.period c = some T ↔ PeriodFound s c T := by
  unfold State.period PeriodFound
  split
  · next h =>
    exact ⟨fun e => (nomatch e), fun ⟨r1, _, h1, _⟩ => absurd ⟨r1, h1⟩ (nreNat_eq_none.1 h)⟩
  · next r1 h =>
    have h := nreNat_eq_some.1 h
    split
    · next h2 =>
      refine ⟨fun e => (nomatch e), fun ⟨r1', r2, h1', h2', _⟩ => ?_⟩
      rw [← h.unique h1'] at h2'
      exact absurd ⟨r2, h2'⟩ (nreNat_eq_none.1 h2)
    · next r2 h2 =>
      have h2 := nreNat_eq_some.1 h2
      refine ⟨fun e => by cases e; exact ⟨r1, r2, h, h2, rfl⟩, fun ⟨r1', r2', h1', h2', e⟩ => ?_⟩
      have e1 := h.unique h1'
      subst e1
      have e2 := h2.unique h2'
      subst e2
      rw [e]

theorem period_eq_none {s : State} {c : Chan} : s.period c = none ↔ ¬ ∃ T, PeriodFound s c T := by
  rw [Option.eq_none_iff_forall_ne_some]
  simp only [ne_eq, period_eq_some, not_exists]

/-! ## Emission -/

/-- `emit` appends one record, or overflows. -/
theorem emit_eq (s : State) (c : Chan) (t : Emit) :
    s.emit c t = if s.params.tokcap ≤ s.tokcnt c then .aborted s .etokovf else .going (s.appendTokens c [t.record]) :=
  rfl

/-- A list of emits with room for all of them appends all their records. -/
theorem emitAll_room (c : Chan) (ts : List Emit) (s : State) (h : s.tokcnt c + ts.length ≤ s.params.tokcap) :
    State.emitAll c ts s = .going (s.appendTokens c (ts.map Emit.record)) := by
  induction ts generalizing s with
  | nil => rw [List.map_nil, State.appendTokens_nil]; rfl
  | cons t ts ih =>
    rw [List.length_cons] at h
    have h1 : ¬ s.params.tokcap ≤ s.tokcnt c := by omega
    simp only [State.emitAll, emit_eq, if_neg h1]
    rw [ih _ (by rw [State.tokcnt_appendTokens_self, List.length_singleton, State.appendTokens_params]; omega),
      State.appendTokens_appendTokens, List.map_cons, List.singleton_append]

/-- A list of emits without room for all of them fills the token memory and overflows. -/
theorem emitAll_full (c : Chan) (ts : List Emit) (s : State) (h0 : s.tokcnt c ≤ s.params.tokcap)
    (h : s.params.tokcap < s.tokcnt c + ts.length) :
    State.emitAll c ts s
      = .aborted (s.appendTokens c ((ts.map Emit.record).take (s.params.tokcap - s.tokcnt c))) .etokovf := by
  induction ts generalizing s with
  | nil => rw [List.length_nil] at h; omega
  | cons t ts ih =>
    rw [List.length_cons] at h
    simp only [State.emitAll, emit_eq]
    by_cases h1 : s.params.tokcap ≤ s.tokcnt c
    · simp only [if_pos h1]
      rw [Nat.sub_eq_zero_of_le h1, List.take_zero, State.appendTokens_nil]
    · simp only [if_neg h1]
      have hk : s.params.tokcap - s.tokcnt c = (s.params.tokcap - (s.tokcnt c + 1)) + 1 := by omega
      rw [ih _ (by rw [State.tokcnt_appendTokens_self, List.length_singleton, State.appendTokens_params]; omega)
          (by rw [State.tokcnt_appendTokens_self, List.length_singleton, State.appendTokens_params]; omega),
        State.appendTokens_appendTokens, State.tokcnt_appendTokens_self, List.length_singleton,
        State.appendTokens_params, hk, List.map_cons, List.take_succ_cons, List.singleton_append]

/-- Whatever the room, a list of emits appends the records of a first part of it, and stops only by an overflow. -/
theorem emitAll_cases (c : Chan) (ts : List Emit) (s : State) :
    ∃ us, us <+: ts ∧ (State.emitAll c ts s = .going (s.appendTokens c (us.map Emit.record))
      ∨ State.emitAll c ts s = .aborted (s.appendTokens c (us.map Emit.record)) .etokovf) := by
  induction ts generalizing s with
  | nil => exact ⟨[], List.prefix_rfl, .inl (by rw [List.map_nil, State.appendTokens_nil]; rfl)⟩
  | cons t ts ih =>
    simp only [State.emitAll, emit_eq]
    by_cases h1 : s.params.tokcap ≤ s.tokcnt c
    · exact ⟨[], List.nil_prefix, .inr (by simp only [if_pos h1]; rw [List.map_nil, State.appendTokens_nil])⟩
    · obtain ⟨us, hus, h⟩ := ih (s.appendTokens c [t.record])
      refine ⟨t :: us, (List.prefix_cons_inj t).2 hus, ?_⟩
      simp only [if_neg h1, List.map_cons]
      rw [State.appendTokens_appendTokens, List.singleton_append] at h
      exact h

/-- A list of frames with room for all of them appends all their records. -/
theorem emitFrames_room (c : Chan) (fs : List (List Emit)) (s : State)
    (h : s.tokcnt c + fs.flatten.length ≤ s.params.tokcap) :
    State.emitFrames c fs s = .going (s.appendTokens c (fs.flatten.map Emit.record)) := by
  induction fs generalizing s with
  | nil => rw [List.flatten_nil, List.map_nil, State.appendTokens_nil]; rfl
  | cons f fs ih =>
    rw [List.flatten_cons, List.length_append] at h
    have h1 : ¬ s.params.tokcap < s.tokcnt c + f.length := by omega
    simp only [State.emitFrames, State.emitFrame, if_neg h1]
    rw [emitAll_room c f s (by omega)]
    dsimp only
    rw [ih _ (by rw [State.tokcnt_appendTokens_self, List.length_map, State.appendTokens_params]; omega),
      State.appendTokens_appendTokens, List.flatten_cons, List.map_append]

/-- The first frame without room stops the emission with none of its records written. -/
theorem emitFrames_full (c : Chan) (fs gs : List (List Emit)) (f : List Emit) (s : State)
    (h0 : s.tokcnt c + fs.flatten.length ≤ s.params.tokcap)
    (h : s.params.tokcap < s.tokcnt c + fs.flatten.length + f.length) :
    State.emitFrames c (fs ++ f :: gs) s = .aborted (s.appendTokens c (fs.flatten.map Emit.record)) .etokovf := by
  induction fs generalizing s with
  | nil =>
    rw [List.flatten_nil, List.length_nil] at h
    have h1 : s.params.tokcap < s.tokcnt c + f.length := by omega
    rw [List.nil_append, List.flatten_nil, List.map_nil, State.appendTokens_nil]
    simp only [State.emitFrames, State.emitFrame, if_pos h1]
  | cons g fs ih =>
    rw [List.flatten_cons, List.length_append] at h0 h
    have h1 : ¬ s.params.tokcap < s.tokcnt c + g.length := by omega
    rw [List.cons_append]
    simp only [State.emitFrames, State.emitFrame, if_neg h1]
    rw [emitAll_room c g s (by omega)]
    dsimp only
    rw [ih _ (by rw [State.tokcnt_appendTokens_self, List.length_map, State.appendTokens_params]; omega)
        (by rw [State.tokcnt_appendTokens_self, List.length_map, State.appendTokens_params]; omega),
      State.appendTokens_appendTokens, List.flatten_cons, List.map_append]

/-- Whatever the room, a list of frames appends the records of a first part of it, and stops only by an overflow. -/
theorem emitFrames_cases (c : Chan) (fs : List (List Emit)) (s : State) :
    ∃ us, us <+: fs.flatten ∧ (State.emitFrames c fs s = .going (s.appendTokens c (us.map Emit.record))
      ∨ State.emitFrames c fs s = .aborted (s.appendTokens c (us.map Emit.record)) .etokovf) := by
  induction fs generalizing s with
  | nil => exact ⟨[], List.prefix_rfl, .inl (by rw [List.map_nil, State.appendTokens_nil]; rfl)⟩
  | cons f fs ih =>
    simp only [State.emitFrames, State.emitFrame]
    by_cases h1 : s.params.tokcap < s.tokcnt c + f.length
    · exact ⟨[], List.nil_prefix, .inr (by simp only [if_pos h1]; rw [List.map_nil, State.appendTokens_nil])⟩
    · rw [if_neg h1, emitAll_room c f s (by omega)]
      obtain ⟨us, hus, h⟩ := ih (s.appendTokens c (f.map Emit.record))
      refine ⟨f ++ us, (List.prefix_append_right_inj f).2 hus, ?_⟩
      rw [State.appendTokens_appendTokens, ← List.map_append] at h
      exact h

/-! ## 1-Wire -/

theorem allHigh_iff (s : State) (c : Chan) (lo n : Nat) :
    s.allHigh c lo n = true ↔ ∀ j, lo ≤ j → j < lo + n → s.get c j = true := by
  induction n generalizing lo with
  | zero => exact ⟨fun _ j h1 h2 => by omega, fun _ => rfl⟩
  | succ n ih =>
    simp only [State.allHigh, Bool.and_eq_true, ih]
    refine ⟨fun ⟨h0, h⟩ j h1 h2 => ?_, fun h => ⟨h lo (Nat.le_refl _) (by omega), fun j h1 h2 => h j (by omega) (by omega)⟩⟩
    by_cases e : j = lo
    · rw [e]; exact h0
    · exact h j (by omega) (by omega)

theorem lowPulse_eq_some {s : State} {c : Chan} {start : Int} {f r : Nat} :
    s.lowPulse c start = some (f, r) ↔ LowPulseFound s c start f r := by
  unfold State.lowPulse LowPulseFound
  split
  · next h =>
    refine ⟨fun e => (nomatch e), fun ⟨h0, hf, _⟩ => ?_⟩
    rw [nfe_eq_some.2 ⟨h0, hf⟩] at h; cases h
  · next f' h =>
    obtain ⟨h0, hf⟩ := nfe_eq_some.1 h
    split
    · next hr =>
      refine ⟨fun e => (nomatch e), fun ⟨_, hf', hr'⟩ => ?_⟩
      rw [← hf.unique hf'] at hr'
      exact absurd ⟨_, hr'⟩ (nreNat_eq_none.1 hr)
    · next r' hr =>
      have hr := nreNat_eq_some.1 hr
      refine ⟨fun e => by cases e; exact ⟨h0, hf, hr⟩, fun ⟨_, hf', hr'⟩ => ?_⟩
      have e1 := hf.unique hf'
      subst e1
      have e2 := hr.unique hr'
      subst e2
      rfl

theorem lowPulse_eq_none {s : State} {c : Chan} {start : Int} :
    s.lowPulse c start = none ↔ ¬ ∃ f r, LowPulseFound s c start f r := by
  rw [Option.eq_none_iff_forall_ne_some]
  simp only [ne_eq, Prod.forall, lowPulse_eq_some, not_exists]

end Sys2Proof.Machine
end

