-- ==== Sys2Proof/Laws/Exec.lean ====
section
/-! SUPPORT. Said once: every way a command can end. Each statement about all commands starts from `exec_ran`. -/

namespace Sys2Proof.Machine

/-- The ways a command ends. -/
inductive Ran (i : Instr) (s : State) : State → Prop
  /-- A check of 40_command_cycle.md R252 fails, or OW.BYTE meets an ambiguous bit. -/
  | stopped (e : ErrCode) (he : e ≠ .ok) (ho : e ≠ .etokovf) : Ran i s (s.aborted e)
  /-- NOP, DEC.CLK, DECODE of a clock channel, BLBEGIN in append mode. -/
  | nothing (h : (∃ ch, i = .nop ch) ∨ (∃ ch, i = .blbegin ch) ∨ isDecode i) : Ran i s (s.completed false false)
  /-- GET and LENGTH. -/
  | reading (r0 : Word) (h : ∃ ch, i = .get ch ∨ i = .length ch) : Ran i s { s.completed false false with res0 := r0 }
  /-- NFE and NRE. -/
  | edge (r0 : Word) (found : Bool) (h : ∃ ch, i = .nfe ch ∨ i = .nre ch) :
      Ran i s { s.completed found false with res0 := r0 }
  /-- The searches and measurements with two results. -/
  | search (r0 r1 : Word) (found : Bool)
      (h : ∃ ch, i = .nmp ch ∨ i = .clkfreq ch ∨ i = .clktol ch ∨ i = .owByte ch ∨ i = .owPres ch ∨ i = .owRst ch) :
      Ran i s { s.completed found false with res0 := r0, res1 := r1 }
  /-- SET and CLR. -/
  | write (ch : BitVec 4) (c : Chan) (n : Nat) (v : Bool) (h : i = .set ch ∨ i = .clr ch) (hc : ch.toNat = c.val)
      (hn : n < s.params.cap) (hw : n < 2 ^ 32) : Ran i s ((s.wr c n v).completed false false)
  /-- SETR and CLRR. -/
  | writeRange (ch : BitVec 4) (c : Chan) (lo hi : Nat) (v : Bool) (h : i = .setr ch ∨ i = .clrr ch)
      (hc : ch.toNat = c.val) (hl : lo ≤ hi) (hn : hi < s.params.cap) (hw : hi < 2 ^ 32) :
      Ran i s ((s.wrRange c lo hi v).completed false false)
  /-- CHRESET. -/
  | reset (ch : BitVec 4) (c : Chan) (h : i = .chreset ch) (hc : ch.toNat = c.val) :
      Ran i s ((s.chReset c).completed false false)
  /-- BLBEGIN in replace mode. -/
  | replace (ch : BitVec 4) (h : i = .blbegin ch) (hm : s.engine.a0.getLsbD 0 = false) :
      Ran i s (s.bulkReplace.completed false false)
  /-- BLDATA. -/
  | bulk (ch : BitVec 4) (h : i = .bldata ch) (hn : s.blptr.toNat < s.params.cap) :
      Ran i s (State.completed
        { s.bulkWrite s.blptr.toNat (byteOperand s.engine.a0) with blptr := storeNat (s.blptr.toNat + 1) } false false)
  /-- A decode that completes. -/
  | decoded (c : Chan) (ts : List Token) (low : Bool) (h : isDecode i) (hc : i.ch.toNat = c.val) :
      Ran i s ((s.appendTokens c ts).completed false low)
  /-- A decode that overflows the token memory. -/
  | overflowed (c : Chan) (ts : List Token) (h : isDecode i) (hc : i.ch.toNat = c.val) :
      Ran i s ((s.appendTokens c ts).aborted .etokovf)

/-! ## The decoders -/

theorem endDecode_going (low : Bool) (s : State) : endDecode low (.going s) = .next (s.completed false low) := rfl

theorem endDecode_aborted (low : Bool) (s : State) (e : ErrCode) :
    endDecode low (.aborted s e) = .next (s.aborted e) := rfl

theorem decodeUart_ran {i : Instr} {s : State} {c : Chan} (h : isDecode i) (hc : i.ch.toNat = c.val) :
    ∃ t, decodeUart c s = .next t ∧ Ran i s t := by
  unfold decodeUart
  split
  · obtain ⟨us, _, hu | hu⟩ := emitFrames_cases c (s.uartFrames c) s
    · rw [hu]; exact ⟨_, rfl, .decoded c _ _ h hc⟩
    · rw [hu]; exact ⟨_, rfl, .overflowed c _ h hc⟩
  · exact ⟨_, rfl, .stopped .ecfg (by decide) (by decide)⟩

theorem emitAll_ran {i : Instr} {s : State} {c : Chan} (low : Bool) (ts : List Emit) (h : isDecode i)
    (hc : i.ch.toNat = c.val) : ∃ t, endDecode low (State.emitAll c ts s) = .next t ∧ Ran i s t := by
  obtain ⟨us, _, hu | hu⟩ := emitAll_cases c ts s
  · rw [hu]; exact ⟨_, rfl, .decoded c _ _ h hc⟩
  · rw [hu]; exact ⟨_, rfl, .overflowed c _ h hc⟩

theorem withRate_ran {i : Instr} {s : State} (c : Chan) {k : Result} (h : ∃ t, k = .next t ∧ Ran i s t) :
    ∃ t, withRate c s k = .next t ∧ Ran i s t := by
  unfold withRate
  split
  · exact h
  · exact ⟨_, rfl, .stopped .ecfg (by decide) (by decide)⟩

theorem withClock_ran {i : Instr} {s : State} (c : Chan) {k : Chan → Result}
    (h : ∀ d, ∃ t, k d = .next t ∧ Ran i s t) : ∃ t, withClock c s k = .next t ∧ Ran i s t := by
  unfold withClock
  split
  · exact h _
  · exact ⟨_, rfl, .stopped .enoclk (by decide) (by decide)⟩

theorem withChannel_ran {i : Instr} {s : State} (ch : BitVec 4) {k : Chan → Result}
    (h : ∀ c : Chan, ch.toNat = c.val → ∃ t, k c = .next t ∧ Ran i s t) :
    ∃ t, withChannel ch s k = .next t ∧ Ran i s t := by
  obtain ⟨c, hc, hk⟩ | ⟨_, hk⟩ := withChannel_cases ch s k
  · rw [hk]; exact h c hc
  · exact ⟨_, hk, .stopped .ebadch (by decide) (by decide)⟩

theorem withOw_ran {i : Instr} {s : State} {k : Result} (h : ∃ t, k = .next t ∧ Ran i s t) :
    ∃ t, withOw s k = .next t ∧ Ran i s t := by
  unfold withOw
  split
  · exact h
  · exact ⟨_, rfl, .stopped .ebadop (by decide) (by decide)⟩

theorem decodeI2c_ran {i : Instr} {s : State} {c : Chan} (h : isDecode i) (hc : i.ch.toNat = c.val) :
    ∃ t, decodeI2c c s = .next t ∧ Ran i s t :=
  withRate_ran c (withClock_ran c (fun k => emitAll_ran (s.i2cLow k) (s.i2cTokens c k) h hc))

theorem decodeSpi_ran {i : Instr} {s : State} {c : Chan} (h : isDecode i) (hc : i.ch.toNat = c.val) :
    ∃ t, decodeSpi c s = .next t ∧ Ran i s t :=
  withRate_ran c (withClock_ran c (fun k => emitAll_ran (s.lowClock k) (s.spiTokens c k) h hc))

theorem decodeByTag_ran {i : Instr} {s : State} {c : Chan} (h : isDecode i) (hc : i.ch.toNat = c.val) :
    ∃ t, decodeByTag c s = .next t ∧ Ran i s t := by
  unfold decodeByTag
  split
  · exact decodeUart_ran h hc
  · exact decodeI2c_ran h hc
  · exact decodeSpi_ran h hc
  · exact ⟨_, rfl, .nothing (.inr (.inr h))⟩
  · exact ⟨_, rfl, .stopped .enotimpl (by decide) (by decide)⟩
  · exact ⟨_, rfl, .stopped .ecfg (by decide) (by decide)⟩

/-! ## Every command -/

/-- Every command ends in one of the ways of `Ran`. -/
theorem exec_ran (i : Instr) (s : State) : ∃ t, exec i s = .next t ∧ Ran i s t := by
  have ha0 : s.engine.a0.toNat < 2 ^ 32 := s.engine.a0.isLt
  have ha1 : s.engine.a1.toNat < 2 ^ 32 := s.engine.a1.isLt
  cases i with
  | nop ch => exact ⟨_, rfl, .nothing (.inl ⟨ch, rfl⟩)⟩
  | set ch =>
    refine withChannel_ran ch (fun c hc => ?_)
    rw [withIndex_eq]
    split
    · next h => exact ⟨_, rfl, .write ch c _ true (.inl rfl) hc h ha0⟩
    · exact ⟨_, rfl, .stopped .eidx (by decide) (by decide)⟩
  | clr ch =>
    refine withChannel_ran ch (fun c hc => ?_)
    rw [withIndex_eq]
    split
    · next h => exact ⟨_, rfl, .write ch c _ false (.inr rfl) hc h ha0⟩
    · exact ⟨_, rfl, .stopped .eidx (by decide) (by decide)⟩
  | setr ch =>
    refine withChannel_ran ch (fun c hc => ?_)
    rw [withRange_eq]
    split
    · next h => exact ⟨_, rfl, .writeRange ch c _ _ true (.inl rfl) hc h.1 h.2 ha1⟩
    · exact ⟨_, rfl, .stopped .eidx (by decide) (by decide)⟩
  | clrr ch =>
    refine withChannel_ran ch (fun c hc => ?_)
    rw [withRange_eq]
    split
    · next h => exact ⟨_, rfl, .writeRange ch c _ _ false (.inr rfl) hc h.1 h.2 ha1⟩
    · exact ⟨_, rfl, .stopped .eidx (by decide) (by decide)⟩
  | get ch => exact withChannel_ran ch (fun c hc => ⟨_, rfl, .reading _ ⟨ch, .inl rfl⟩⟩)
  | length ch => exact withChannel_ran ch (fun c hc => ⟨_, rfl, .reading _ ⟨ch, .inr rfl⟩⟩)
  | chreset ch => exact withChannel_ran ch (fun c hc => ⟨_, rfl, .reset ch c rfl hc⟩)
  | nfe ch => exact withChannel_ran ch (fun c hc => ⟨_, rfl, .edge _ _ ⟨ch, .inl rfl⟩⟩)
  | nre ch => exact withChannel_ran ch (fun c hc => ⟨_, rfl, .edge _ _ ⟨ch, .inr rfl⟩⟩)
  | nmp ch => exact withChannel_ran ch (fun c hc => ⟨_, rfl, .search _ _ _ ⟨ch, .inl rfl⟩⟩)
  | blbegin ch =>
    change ∃ t, complete (if modeOperand s.engine.a0 = true then s else s.bulkReplace) Results.none = .next t ∧ _
    by_cases h : s.engine.a0.getLsbD 0 = true
    · rw [modeOperand, if_pos h]; exact ⟨_, rfl, .nothing (.inr (.inl ⟨ch, rfl⟩))⟩
    · rw [modeOperand, if_neg h]; exact ⟨_, rfl, .replace ch rfl (Bool.eq_false_iff.2 h)⟩
  | bldata ch =>
    change ∃ t, withIndex (zext s.blptr) s _ = .next t ∧ _
    rw [withIndex_eq]
    split
    · next h => exact ⟨_, rfl, .bulk ch rfl h⟩
    · exact ⟨_, rfl, .stopped .eidx (by decide) (by decide)⟩
  | decode ch => exact withChannel_ran ch (fun c hc => decodeByTag_ran ⟨ch, .inl rfl⟩ hc)
  | decUart ch => exact withChannel_ran ch (fun c hc => decodeUart_ran ⟨ch, .inr (.inl rfl)⟩ hc)
  | decI2c ch => exact withChannel_ran ch (fun c hc => decodeI2c_ran ⟨ch, .inr (.inr (.inl rfl))⟩ hc)
  | decSpi ch => exact withChannel_ran ch (fun c hc => decodeSpi_ran ⟨ch, .inr (.inr (.inr (.inl rfl)))⟩ hc)
  | decClk ch =>
    exact withChannel_ran ch (fun c hc => ⟨_, rfl, .nothing (.inr (.inr ⟨ch, .inr (.inr (.inr (.inr rfl)))⟩))⟩)
  | decOw ch => exact withChannel_ran ch (fun c hc => ⟨_, rfl, .stopped .enotimpl (by decide) (by decide)⟩)
  | clkfreq ch =>
    refine withChannel_ran ch (fun c hc => withRate_ran c ?_)
    split <;> exact ⟨_, rfl, .search _ _ _ ⟨ch, .inr (.inl rfl)⟩⟩
  | clktol ch =>
    exact withChannel_ran ch (fun c hc => withRate_ran c ⟨_, rfl, .search _ _ _ ⟨ch, .inr (.inr (.inl rfl))⟩⟩)
  | owByte ch =>
    refine withOw_ran (withChannel_ran ch (fun c hc => withRate_ran c ?_))
    split
    · exact ⟨_, rfl, .search _ _ _ ⟨ch, .inr (.inr (.inr (.inl rfl)))⟩⟩
    · exact ⟨_, rfl, .search _ _ _ ⟨ch, .inr (.inr (.inr (.inl rfl)))⟩⟩
    · exact ⟨_, rfl, .stopped .eowambig (by decide) (by decide)⟩
  | owPres ch =>
    refine withOw_ran (withChannel_ran ch (fun c hc => withRate_ran c ?_))
    unfold State.owDetect
    split
    · split <;> exact ⟨_, rfl, .search _ _ _ ⟨ch, .inr (.inr (.inr (.inr (.inl rfl))))⟩⟩
    · exact ⟨_, rfl, .search _ _ _ ⟨ch, .inr (.inr (.inr (.inr (.inl rfl))))⟩⟩
  | owRst ch =>
    refine withOw_ran (withChannel_ran ch (fun c hc => withRate_ran c ?_))
    unfold State.owDetect
    split
    · split <;> exact ⟨_, rfl, .search _ _ _ ⟨ch, .inr (.inr (.inr (.inr (.inr rfl))))⟩⟩
    · exact ⟨_, rfl, .search _ _ _ ⟨ch, .inr (.inr (.inr (.inr (.inr rfl))))⟩⟩

/-- The form the provers use: what a next state of exec can be. -/
theorem ran_of_exec {i : Instr} {s t : State} (h : exec i s = .next t) : Ran i s t := by
  obtain ⟨u, hu, hr⟩ := exec_ran i s
  rw [h] at hu
  cases hu
  exact hr

end Sys2Proof.Machine
end

