-- ==== Sys2Proof/Laws/PerInstr.lean ====
section
/-! SUPPORT. Statements made per instruction, one lemma per constructor. -/

namespace Sys2Proof.Laws.EncodingFields

/-- The fields of 30_encoding.md R200 in the command word of `i`: OPCODE is the one of the table, CH is the field the
command carries, and the reserved bits are 0. -/
def Statement (i : Instr) : Prop :=
  opcodeField (encode i) = opcodeOf i ∧ chField (encode i) = i.ch ∧ reservedField (encode i) = 0

theorem nop (ch : BitVec 4) : Statement (.nop ch) := by revert ch; unfold Statement; decide
theorem set (ch : BitVec 4) : Statement (.set ch) := by revert ch; unfold Statement; decide
theorem clr (ch : BitVec 4) : Statement (.clr ch) := by revert ch; unfold Statement; decide
theorem setr (ch : BitVec 4) : Statement (.setr ch) := by revert ch; unfold Statement; decide
theorem clrr (ch : BitVec 4) : Statement (.clrr ch) := by revert ch; unfold Statement; decide
theorem get (ch : BitVec 4) : Statement (.get ch) := by revert ch; unfold Statement; decide
theorem length (ch : BitVec 4) : Statement (.length ch) := by revert ch; unfold Statement; decide
theorem chreset (ch : BitVec 4) : Statement (.chreset ch) := by revert ch; unfold Statement; decide
theorem nfe (ch : BitVec 4) : Statement (.nfe ch) := by revert ch; unfold Statement; decide
theorem nre (ch : BitVec 4) : Statement (.nre ch) := by revert ch; unfold Statement; decide
theorem nmp (ch : BitVec 4) : Statement (.nmp ch) := by revert ch; unfold Statement; decide
theorem blbegin (ch : BitVec 4) : Statement (.blbegin ch) := by revert ch; unfold Statement; decide
theorem bldata (ch : BitVec 4) : Statement (.bldata ch) := by revert ch; unfold Statement; decide
theorem decode (ch : BitVec 4) : Statement (.decode ch) := by revert ch; unfold Statement; decide
theorem decUart (ch : BitVec 4) : Statement (.decUart ch) := by revert ch; unfold Statement; decide
theorem decI2c (ch : BitVec 4) : Statement (.decI2c ch) := by revert ch; unfold Statement; decide
theorem decSpi (ch : BitVec 4) : Statement (.decSpi ch) := by revert ch; unfold Statement; decide
theorem decClk (ch : BitVec 4) : Statement (.decClk ch) := by revert ch; unfold Statement; decide
theorem decOw (ch : BitVec 4) : Statement (.decOw ch) := by revert ch; unfold Statement; decide
theorem clkfreq (ch : BitVec 4) : Statement (.clkfreq ch) := by revert ch; unfold Statement; decide
theorem clktol (ch : BitVec 4) : Statement (.clktol ch) := by revert ch; unfold Statement; decide
theorem owByte (ch : BitVec 4) : Statement (.owByte ch) := by revert ch; unfold Statement; decide
theorem owPres (ch : BitVec 4) : Statement (.owPres ch) := by revert ch; unfold Statement; decide
theorem owRst (ch : BitVec 4) : Statement (.owRst ch) := by revert ch; unfold Statement; decide

end Sys2Proof.Laws.EncodingFields
end

