-- ==== Sys2Proof/Machine/HostNotation.lean ====
section
/-! DEFINITION. The host's side of the spec: token labels and times (42_decode_common.md R334, R335), `bitParser`
(41_sample_buffer.md R298), and the notation of host programs (30_encoding.md R230 to R232). None of it is part of the
block, and the step uses none of it (log 23). -/

namespace Sys2Proof.Machine

/-! ## Labels and times -/

/-- The kind a KIND code stands for; every other code is reserved (30_encoding.md R221). -/
def Kind.ofCode (n : Nat) : Option Kind :=
  [Kind.uStart, .uData, .uParOk, .uParBad, .uStop, .uStop1, .uStop2, .iStart, .iRstart, .iStop, .iRead, .iWrite, .iAck,
    .iNak, .iByte, .iAddr, .iErr, .sWord].find? (fun k => k.code == n)

/-- `label(KIND, NBITS, VALUE)` (42_decode_common.md R334, 30_encoding.md R221; the direction labels are two characters,
90_conflicts.md C3). -/
def Kind.label (nbits value : Nat) : Kind → String
  | .uStart => "[S]"
  | .uData => Nat.repr value
  | .uParOk => "[P]"
  | .uParBad => "[P*]"
  | .uStop => "[SP]"
  | .uStop1 => "[SP1]"
  | .uStop2 => "[SP2]"
  | .iStart => "S"
  | .iRstart => "Sr"
  | .iStop => "P"
  | .iRead => "\\R"
  | .iWrite => "\\W"
  | .iAck => "ACK"
  | .iNak => "NAK"
  | .iByte => Nat.repr value
  | .iAddr => "A(" ++ Nat.repr value ++ ")"
  | .iErr => "E"
  | .sWord => Nat.repr nbits ++ "b " ++ Nat.repr value

/-- A record's label, or none for a reserved KIND (93_implementation_defined.md X8). -/
def Token.label (t : Token) : Option String := (Kind.ofCode t.kindCode).map (Kind.label t.nbits t.value)

/-- `offset + START / RATE` in seconds (42_decode_common.md R335). -/
def Token.startSeconds (t : Token) (offset : Rat) (rate : Word) : Rat := offset + (zext t.word1 : Rat) / (zext rate : Rat)

/-- `offset + END / RATE` in seconds (42_decode_common.md R335). -/
def Token.endSeconds (t : Token) (offset : Rat) (rate : Word) : Rat := offset + (zext t.word2 : Rat) / (zext rate : Rat)

/-! ## Host programs -/

/-- A number or a host variable h0..h7 (30_encoding.md R232). -/
inductive HostArg where
  | num (v : Word)
  | var (k : Fin 8)
deriving DecidableEq, Repr

/-- ADDR of a host operation: an offset from PDE_BASE, a register, or `TOK(c, t, w)` (30_encoding.md R232). -/
inductive HostAddr where
  | num (a : Addr)
  | reg (r : Reg)
  | tok (c : Chan) (t : HostArg) (w : Fin 4)
deriving DecidableEq, Repr

/-- The host operations (30_encoding.md R232), with branch targets as positions in the assembled program. -/
inductive HostOp where
  | wr (a : HostAddr) (x : HostArg)
  | rd (k : Fin 8) (a : HostAddr)
  | li (k : Fin 8) (x : HostArg)
  | add (k a : Fin 8) (x : HostArg)
  | land (k a : Fin 8) (x : HostArg)
  | lor (k a : Fin 8) (x : HostArg)
  | beq (a : HostArg) (x : HostArg) (target : Nat)
  | bne (a : HostArg) (x : HostArg) (target : Nat)
  | jump (target : Nat)
  | halt
deriving DecidableEq, Repr

/-- `enc(OPCODE, N)` written to CMD after the operands that are given (30_encoding.md R231, steps 1 to 3). -/
def issueOps (w : Word) (a0 a1 : Option HostArg) : List HostOp :=
  (a0.toList.map fun x => HostOp.wr (.reg .arg0) x)
    ++ (a1.toList.map fun x => HostOp.wr (.reg .arg1) x)
    ++ [.wr (.reg .cmd) (.num w)]

/-- `WAIT` placed at position `at` (30_encoding.md R231): read STATUS until BUSY = 0. -/
def waitOps (pos : Nat) : List HostOp :=
  [.rd 7 (.reg .status), .land 7 7 (.num 1), .bne (.var 7) (.num 0) pos]

/-- A command line at position `pos` (30_encoding.md R231). -/
def commandOps (pos : Nat) (i : Instr) (a0 a1 : Option HostArg) : List HostOp :=
  let head := issueOps (encode i) a0 a1
  head ++ waitOps (pos + head.length)

/-- The ranged writes `bitParser(c, s, n, m)` issues, as (level, lo, hi), with the write index after them
(41_sample_buffer.md R298). Characters other than 0 and 1 are skipped. -/
def bitParserOnce (n : Nat) : List Char → Nat → List (Bool × Nat × Nat)
  | [], _ => []
  | ch :: rest, idx =>
    if ch = '1' then (true, idx, idx + n - 1) :: bitParserOnce n rest (idx + n)
    else if ch = '0' then (false, idx, idx + n - 1) :: bitParserOnce n rest (idx + n)
    else bitParserOnce n rest idx

/-- `bitParser(c, s, n, m)` (41_sample_buffer.md R298): the whole pattern `m` times. -/
def bitParser (s : String) (n m : Nat) : List (Bool × Nat × Nat) :=
  bitParserOnce n (List.replicate m s.toList).flatten 0

/-- The SETR or CLRR instruction of one ranged write on channel `c`. -/
def rangeInstr (c : Chan) (level : Bool) : Instr :=
  if level then .setr (BitVec.ofNat 4 c.val) else .clrr (BitVec.ofNat 4 c.val)

/-- `LOADBITS` at position `pos`: the command lines of a list of ranged writes (30_encoding.md R231). -/
def loadOps (c : Chan) : List (Bool × Nat × Nat) → Nat → List HostOp
  | [], _ => []
  | (level, lo, hi) :: rest, pos =>
    let line := commandOps pos (rangeInstr c level) (some (.num (storeNat lo))) (some (.num (storeNat hi)))
    line ++ loadOps c rest (pos + line.length)

/-- A line of a host program (30_encoding.md R230 to R232). -/
inductive HostLine where
  | label (name : String)
  | op (o : HostOp)
  | beq (a x : HostArg) (target : String)
  | bne (a x : HostArg) (target : String)
  | jump (target : String)
  | command (i : Instr) (a0 a1 : Option HostArg)
  | wait
  | cfg (c : Chan) (v : HostArg)
  | baud (c : Chan) (v : HostArg)
  | rate (c : Chan) (v : HostArg)
  | bind (c clock : Chan)
  | spimode (c : Chan) (k : BitVec 2)
  | loadbits (c : Chan) (s : String) (n m : Nat)
deriving DecidableEq, Repr

/-- Read-modify-write of `CFG(c)` through h7, as `BIND` and `SPIMODE` do (30_encoding.md R231). -/
def modifyCfgOps (c : Chan) (keep value : Word) : List HostOp :=
  [.rd 7 (.reg (.cfg c)), .land 7 7 (.num keep), .lor 7 7 (.num value), .wr (.reg (.cfg c)) (.var 7)]

/-- The operations a line stands for at position `pos`, with `labels` the positions of the labels (30_encoding.md R231).
A missing label is position 0. -/
def HostLine.expand (labels : List (String × Nat)) (pos : Nat) : HostLine → List HostOp
  | .label _ => []
  | .op o => [o]
  | .beq a x t => [.beq a x ((labels.lookup t).getD 0)]
  | .bne a x t => [.bne a x ((labels.lookup t).getD 0)]
  | .jump t => [.jump ((labels.lookup t).getD 0)]
  | .command i a0 a1 => commandOps pos i a0 a1
  | .wait => waitOps pos
  | .cfg c v => [.wr (.reg (.cfg c)) v]
  | .baud c v => [.wr (.reg (.baud c)) v]
  | .rate c v => [.wr (.reg (.rate c)) v]
  | .bind c clock => modifyCfgOps c 0xFFFF0FFF (storeNat (clock.val * 0x1000))
  | .spimode c k => modifyCfgOps c 0xFFFFFCFF (storeNat (k.toNat * 0x100))
  | .loadbits c s n m => loadOps c (bitParser s n m) pos

/-- The positions of the labels of a program that starts at position `pos`. -/
def labelPositions : List HostLine → Nat → List (String × Nat)
  | [], _ => []
  | .label name :: rest, pos => (name, pos) :: labelPositions rest pos
  | l :: rest, pos => labelPositions rest (pos + (l.expand [] pos).length)

/-- The operations of a program that starts at position `pos`. -/
def expandAll (labels : List (String × Nat)) : List HostLine → Nat → List HostOp
  | [], _ => []
  | l :: rest, pos =>
    let ops := l.expand labels pos
    ops ++ expandAll labels rest (pos + ops.length)

/-- A program's host operations (30_encoding.md R231). -/
def assemble (lines : List HostLine) : List HostOp := expandAll (labelPositions lines 0) lines 0

/-- A host that runs a program against the block (30_encoding.md R232). -/
structure HostState where
  vars : Vector Word 8
  pc : Nat
  halted : Bool
  /-- How many reads the block has left without an answer. MODEL's own field (log 26). -/
  unanswered : Nat
  block : State
deriving DecidableEq, Repr

/-- The value of a number or a variable. -/
def HostState.arg (h : HostState) : HostArg → Word
  | .num v => v
  | .var k => h.vars[k]

/-- The bus address a host operation names (30_encoding.md R232). `TOK(c, t, w)` with t above 4095 is the sum of
20_memory.md R155 modulo 2^20, which lies outside channel c's window (DESIGN CHOICE, log 23). -/
def HostState.address (h : HostState) : HostAddr → Addr
  | .num a => a
  | .reg r => r.addr
  | .tok c t w => (Reg.tok c (zext (h.arg t)) w).addr

/-- The block after one input has happened. A stop would leave it as it was; no step stops. -/
def HostState.onBlock (h : HostState) (i : Input) : HostState :=
  match step { h.block with inputs := [i] } with
  | .next t => { h with block := t }
  | .fault _ => h
  | .refused _ => h

/-- Set a variable. -/
def HostState.setVar (h : HostState) (k : Fin 8) (v : Word) : HostState := { h with vars := h.vars.set k v }

/-- The next line. -/
def HostState.advance (h : HostState) : HostState := { h with pc := h.pc + 1 }

/-- The end of a `rd` into variable `k`: the data of the port's answer (20_memory.md R150). DESIGN CHOICE (log 26): while
`rst_n` = 0 the block gives no answer (70_reset_and_hazards.md R700), and the spec does not say what `rd` then does; here
the variable gets a free value, one for each such read. -/
def HostState.receive (h : HostState) (k : Fin 8) : HostState :=
  match h.block.resp with
  | some r => h.setVar k r.readData
  | none => { h.setVar k (Config.unansweredWord h.unanswered) with unanswered := h.unanswered + 1 }

/-- One host operation (30_encoding.md R232). A `rd` or `wr` that the block does not answer does not hold the program up:
it goes on to the next line (DESIGN CHOICE, log 26; for the variable of a `rd` see `HostState.receive`). -/
def HostState.run (h : HostState) : HostOp → HostState
  | .wr a x => (h.onBlock (.write (h.address a) (h.arg x))).advance
  | .rd k a => ((h.onBlock (.read (h.address a))).receive k).advance
  | .li k x => (h.setVar k (h.arg x)).advance
  | .add k a x => (h.setVar k (h.vars[a] + h.arg x)).advance
  | .land k a x => (h.setVar k (h.vars[a] &&& h.arg x)).advance
  | .lor k a x => (h.setVar k (h.vars[a] ||| h.arg x)).advance
  | .beq a x t => if h.arg a = h.arg x then { h with pc := t } else h.advance
  | .bne a x t => if h.arg a = h.arg x then h.advance else { h with pc := t }
  | .jump t => { h with pc := t }
  | .halt => { h with halted := true }

/-- Who moves next: the host program or the engine. A list of moves is one latency of every command. -/
inductive Move where
  | host
  | engine
deriving DecidableEq, Repr

/-- One move. A host that has halted does nothing; one that has run past its last line halts (DESIGN CHOICE, log 23). -/
def HostState.move (prog : List HostOp) (h : HostState) : Move → HostState
  | .host =>
    if h.halted then h
    else
      match prog[h.pc]? with
      | some o => h.run o
      | none => { h with halted := true }
  | .engine => h.onBlock .engine

/-- A list of moves. -/
def HostState.moves (prog : List HostOp) : List Move → HostState → HostState
  | [], h => h
  | m :: ms, h => HostState.moves prog ms (h.move prog m)

end Sys2Proof.Machine
end

