-- ==== Sys2Proof/Tests/Slice0.lean ====
section
/-! SUPPORT. Tests on fixed values, and for every statement with hypotheses a witness that meets them. Expected values are
those of 95_test_vectors.md (its vector is named) or hand calculations from the rule named. -/

namespace Sys2Proof.Tests

open Sys2Proof Sys2Proof.Machine

/-! ## Building a small state -/

/-- A small build: 64 samples and 8 records to a channel. -/
def small : Params := { cap := 64, tokcap := 8, hasOw := true, stopEdgeCheck := true }

/-- Runs of bytes from index `i`; bit c of a byte is channel c's sample. -/
def runsFrom : Nat → List (Byte × Nat) → Memory
  | _, [] => []
  | i, (_, 0) :: rest => runsFrom i rest
  | i, (v, n + 1) :: rest =>
    (if v = 0 then [] else (List.range (n + 1)).map (fun k => (i + k, v))) ++ runsFrom (i + n + 1) rest

/-- Runs of bytes from index 0. -/
def runs (l : List (Byte × Nat)) : Memory := runsFrom 0 l

/-- The last index of the runs. -/
def lastIndex (l : List (Byte × Nat)) : Word := BitVec.ofNat 32 ((l.map Prod.snd).sum - 1)

/-- A channel with CFG word `cfg` and RATE `rate`, loaded to index `len`. -/
def loaded (cfg rate len : Word) (tokens : List Token) : Channel :=
  { cfg := Cfg.ofWord cfg, baud := 9600, rate := rate, len := len, tokens := tokens }

/-- The small build with every channel's register as `x` and the samples `l`, running the word `w` on `a0` and `a1`. -/
def running (x : Channel) (l : List (Byte × Nat)) (w a0 a1 : Word) : State :=
  { State.resetOf small with
    chans := Vector.replicate 8 x
    samples := runs l
    cmd := w
    arg0 := a0
    arg1 := a1
    status := Status.reset.issue
    engine := { cw := w, a0 := a0, a1 := a1 } }

/-- The same with a CFG word, RATE and no token. -/
def fixture (cfg rate : Word) (l : List (Byte × Nat)) (a0 : Word) : State :=
  running (loaded cfg rate (lastIndex l) []) l 0 a0 0

/-- The state a result answers with. -/
def ends (r : Result) : State :=
  match r with
  | .next t => t
  | .fault _ => State.reset
  | .refused _ => State.reset

/-- STATUS as a word. -/
def statusOf (r : Result) : Word := (ends r).status.toWord

/-- The first three words of the records of channel 0. -/
def records (r : Result) : List (Nat × Nat × Nat) :=
  ((ends r).chan 0).tokens.map (fun t => (t.word0.toNat, t.word1.toNat, t.word2.toNat))

/-! ## Well-formedness and the encoding -/

theorem test_wf_refuses_owByte : (Instr.owByte 0).wf false = false := by decide
theorem test_wf_refuses_owPres : (Instr.owPres 0).wf false = false := by decide
theorem test_wf_refuses_owRst : (Instr.owRst 0).wf false = false := by decide
theorem test_wf_admits_decOw : (Instr.decOw 0).wf false = true := by decide

/-- The words of 30_encoding.md R203, CH in bits 11:8, opcode in bits 7:0, written out bit by bit. -/
theorem test_decode_nop : decode true 0b00000000000000000000_1111_00000000#32 = .ok (.nop 15) := by rfl
theorem test_decode_set : decode true 0b00000000000000000000_0001_00000001#32 = .ok (.set 1) := by rfl
theorem test_decode_clr : decode true 0b00000000000000000000_0010_00000010#32 = .ok (.clr 2) := by rfl
theorem test_decode_setr : decode true 0b00000000000000000000_0100_00000011#32 = .ok (.setr 4) := by rfl
theorem test_decode_clrr : decode true 0b00000000000000000000_1000_00000100#32 = .ok (.clrr 8) := by rfl
theorem test_decode_get : decode true 0b00000000000000000000_0011_00000101#32 = .ok (.get 3) := by rfl
theorem test_decode_length : decode true 0b00000000000000000000_0101_00000110#32 = .ok (.length 5) := by rfl
theorem test_decode_chreset : decode true 0b00000000000000000000_0110_00000111#32 = .ok (.chreset 6) := by rfl
theorem test_decode_nfe : decode true 0b00000000000000000000_0111_00001000#32 = .ok (.nfe 7) := by rfl
theorem test_decode_nre : decode true 0b00000000000000000000_0001_00001001#32 = .ok (.nre 1) := by rfl
theorem test_decode_nmp : decode true 0b00000000000000000000_0010_00001010#32 = .ok (.nmp 2) := by rfl
theorem test_decode_blbegin : decode true 0b00000000000000000000_0000_00001011#32 = .ok (.blbegin 0) := by rfl
theorem test_decode_bldata : decode true 0b00000000000000000000_0000_00001100#32 = .ok (.bldata 0) := by rfl
theorem test_decode_decode : decode true 0b00000000000000000000_0011_00010000#32 = .ok (.decode 3) := by rfl
theorem test_decode_decUart : decode true 0b00000000000000000000_0100_00010001#32 = .ok (.decUart 4) := by rfl
theorem test_decode_decI2c : decode true 0b00000000000000000000_0101_00010010#32 = .ok (.decI2c 5) := by rfl
theorem test_decode_decSpi : decode true 0b00000000000000000000_0110_00010011#32 = .ok (.decSpi 6) := by rfl
theorem test_decode_decClk : decode true 0b00000000000000000000_0011_00010100#32 = .ok (.decClk 3) := by rfl
theorem test_decode_decOw : decode false 0b00000000000000000000_1001_00010101#32 = .ok (.decOw 9) := by rfl
theorem test_decode_clkfreq : decode true 0b00000000000000000000_0001_00011000#32 = .ok (.clkfreq 1) := by rfl
theorem test_decode_clktol : decode true 0b00000000000000000000_0010_00011001#32 = .ok (.clktol 2) := by rfl
theorem test_decode_owByte : decode true 0b00000000000000000000_0011_00100000#32 = .ok (.owByte 3) := by rfl
theorem test_decode_owPres : decode true 0b00000000000000000000_0100_00100001#32 = .ok (.owPres 4) := by rfl
theorem test_decode_owRst : decode true 0b00000000000000000000_0101_00100010#32 = .ok (.owRst 5) := by rfl

/-- V-C2, V-C3, V-C14: the three ways of 30_encoding.md R206 in which a word is illegal. -/
theorem test_decode_refuses_reserved_opcode : decode true 0x16#32 = .error (.reservedOpcode 0x16) := by rfl
theorem test_decode_refuses_reserved_bit : decode true 0x1000#32 = .error .reservedBits := by rfl
theorem test_decode_refuses_absent_option : decode false 0x20#32 = .error .optionAbsent := by rfl

/-! ## One step per instruction -/

/-- `1111000011110000` on channel 0 (V-B7). -/
def vB7 (a0 : Word) : State := fixture 0xF020 1000 [(1, 4), (0, 4), (1, 4), (0, 4)] a0

/-- V-C5. -/
theorem test_nop : statusOf (exec (.nop 15) (vB7 0)) = 0x2 := by decide
/-- V-C2 and V-C3. -/
theorem test_illegal_word : (fun t => (t.status.toWord, t.errcmd)) (ends (step (running Channel.reset [] 0x16 0 0)))
    = (0x102, 0x16) := by decide
/-- V-B1. -/
theorem test_set : (fun t => (t.len 0, t.bit 0 7, t.bit 1 7)) (ends (exec (.set 0) (running Channel.reset [] 1 7 0)))
    = (7, true, false) := by decide
/-- V-B5, with CAP = 64. -/
theorem test_set_at_cap : statusOf (exec (.set 0) (running Channel.reset [] 1 64 0)) = 0x502 := by decide
/-- V-B2. -/
theorem test_clr : (fun t => (t.len 0, t.samples)) (ends (exec (.clr 0) (running Channel.reset [] 2 9 0)))
    = (9, []) := by decide
/-- V-B3. -/
theorem test_setr : (fun t => (t.len 1, t.samples)) (ends (exec (.setr 1) (running Channel.reset [] 0x103 10 12)))
    = (12, [(10, 2), (11, 2), (12, 2)]) := by decide
/-- V-B4. -/
theorem test_setr_empty_range : statusOf (exec (.setr 0) (running Channel.reset [] 3 5 4)) = 0x502 := by decide
/-- 41_sample_buffer.md R289. -/
theorem test_clrr : (ends (exec (.clrr 0) (running Channel.reset [(3, 4)] 4 1 2))).samples
    = [(0, 3), (1, 2), (2, 2), (3, 3)] := by decide
/-- V-B1. -/
theorem test_get : ((ends (exec (.get 0) (vB7 3))).res0, (ends (exec (.get 0) (vB7 0xFFFFFFFF))).res0) = (1, 0) := by
  decide
/-- 41_sample_buffer.md R291. -/
theorem test_length : (ends (exec (.length 0) (vB7 3))).res0 = 15 := by decide
/-- V-B15. -/
theorem test_chreset :
    (fun t => (t.len 1, (t.chan 1).tokens, t.samples, (t.chan 1).rate))
      (ends (exec (.chreset 1) (running (loaded 0xF020 1000 1 [⟨1, 2, 3, 0⟩]) [(3, 1), (2, 1)] 0x107 0 0)))
    = (0, [], [(0, 1)], 1000) := by decide
/-- V-B7 and V-B9. -/
theorem test_nfe : [4, 12, 0xFFFFFFFF, 0xFFFFFFFF]
    = [(ends (exec (.nfe 0) (vB7 0))).res0, (ends (exec (.nfe 0) (vB7 5))).res0, (ends (exec (.nfe 0) (vB7 13))).res0,
       (ends (exec (.nfe 0) (vB7 0xFFFFFFFF))).res0] := by decide
/-- V-B8. -/
theorem test_nre : ((ends (exec (.nre 0) (vB7 0))).res0, statusOf (exec (.nre 0) (vB7 9))) = (8, 2) := by decide
/-- V-B11. -/
theorem test_nmp : (fun t => (t.res0, t.res1, t.status.toWord))
      (ends (exec (.nmp 0) (fixture 0xF020 0 [(0, 2), (1, 4), (0, 4), (1, 4), (0, 2)] 0)))
    = (4, 6, 6) := by decide
/-- V-B14a. -/
theorem test_nmp_fall_at_len : (ends (exec (.nmp 0) (fixture 0xF020 0 [(0, 1), (1, 2), (0, 1)] 0))).res1 = 0xFFFFFFFF := by
  decide
/-- V-B16: replace mode. -/
theorem test_blbegin : (fun t => (t.samples, t.len 3, t.blptr))
      (ends (exec (.blbegin 9) { running (loaded 0xF020 0 3 []) [(1, 4)] 0x90B 2 0 with blptr := 7 }))
    = ([], 0, 0) := by decide
/-- V-B17. -/
theorem test_bldata : (fun t => (t.samples, t.len 7, t.blptr))
      (ends (exec (.bldata 0) { running (loaded 0xF020 0 1 []) [(1, 1), (2, 1)] 0xC 0xFF 0 with blptr := 2 }))
    = ([(0, 1), (1, 2), (2, 255)], 2, 3) := by decide
/-- V-B18, with CAP = 64. -/
theorem test_bldata_at_cap : statusOf (exec (.bldata 0) { running Channel.reset [] 0xC 0 0 with blptr := 64 }) = 0x502 := by
  decide

/-- 0xB5 at 2 samples per bit (V-U11). -/
def vU11 : State := fixture 0xF020 19200 [(1, 4), (0, 2), (1, 2), (0, 2), (1, 2), (0, 2), (1, 4), (0, 2), (1, 12)] 0

/-- V-U11. -/
theorem test_decUart : (records (exec (.decUart 0) vU11), statusOf (exec (.decUart 0) vU11))
    = ([(0x1, 4, 6), (0xB50002, 6, 22), (0x5, 22, 24)], 0xA) := by decide
/-- V-U2 and V-U3 at 2 samples per bit: a flipped parity bit gives KIND 0x04. -/
theorem test_decUart_parity :
    (records (exec (.decUart 0) (fixture 0xF000 19200
      [(1, 4), (0, 2), (1, 2), (0, 2), (1, 2), (0, 2), (1, 4), (0, 2), (1, 2), (0, 2), (1, 10)] 0))).map Prod.fst
    = [0x1, 0xB50002, 0x4, 0x5] := by decide
/-- V-C10. -/
theorem test_decode_ow : statusOf (exec (.decode 0) (fixture 0xF025 1000 [] 0)) = 0x802 := by decide
/-- V-C9. -/
theorem test_decode_none : statusOf (exec (.decode 0) (fixture 0xF020 1000 [] 0)) = 0x302 := by decide

/-- SDA on channel 0, SCL on channel 1: V-I8 (T = 2). -/
def vI8 : State :=
  fixture 0x1020 1000000 [(3, 2), (2, 1), (0, 1), (2, 1), (0, 1), (2, 1), (0, 1), (2, 1), (0, 1)] 0

/-- V-I8. -/
theorem test_decI2c : (records (exec (.decI2c 0) vI8), statusOf (exec (.decI2c 0) vI8)) = ([(0x10, 2, 2)], 0xA) := by
  decide
/-- V-I9. -/
theorem test_decI2c_unbound : statusOf (exec (.decI2c 0) (fixture 0xF020 1000000 [(3, 2), (2, 1)] 0)) = 0x402 := by decide

/-- V-S6: data on channel 0, clock `0101010` on channel 1. -/
def vS6 : State := fixture 0x1020 1000 [(0, 1), (2, 1), (0, 1), (2, 1), (0, 1), (2, 1), (0, 1)] 0

/-- V-S6. -/
theorem test_decSpi : (records (exec (.decSpi 0) vS6), statusOf (exec (.decSpi 0) vS6)) = ([(0x320, 1, 5)], 0xA) := by
  decide
/-- V-S5. -/
theorem test_decSpi_one_bit : records (exec (.decSpi 0) (fixture 0x1020 1000 [(0, 2), (3, 2)] 0)) = [(0x10120, 2, 2)] := by
  decide
/-- V-C15. -/
theorem test_decClk : statusOf (exec (.decClk 3) (fixture 0xF020 0 [] 0)) = 0x2 := by decide
/-- V-O12. -/
theorem test_decOw : (fun t => (t.status.toWord, t.errcmd)) (ends (exec (.decOw 0) (running Channel.reset [] 0x15 0 0)))
    = (0x802, 0x15) := by decide

/-- Rising edges 8 samples apart (V-K1). -/
def vK1 : State := fixture 0xF020 1000000 [(0, 4), (1, 4), (0, 4), (1, 4)] 0

/-- V-K1. -/
theorem test_clkfreq : (fun t => (t.res0, t.res1, t.status.toWord)) (ends (exec (.clkfreq 0) vK1)) = (125000, 8, 6) := by
  decide
/-- V-K1. -/
theorem test_clktol : (fun t => (t.res0, t.res1)) (ends (exec (.clktol 0) vK1)) = (0xE38E38E4, 0x3640) := by decide
/-- V-K5: a negative tolerance. -/
theorem test_clktol_negative :
    (fun t => (t.res0, t.res1)) (ends (exec (.clktol 0) (fixture 0xF020 1 [(0, 1), (1, 2), (0, 1), (1, 2)] 0)))
    = (0xC0000000, 0xFFFFFFFF) := by decide

/-- Eight bits 1,0,1,0,0,1,1,0 at 66667 samples a second (15 us each): a 1 is low for 1 sample and high for 5, a 0 is low
for 5 and high for 1 (hand calculation from 47_onewire.md R501). -/
def owByteWave (a0 : Word) : State :=
  fixture 0xF020 66667
    [(1, 1), (0, 1), (1, 5), (0, 5), (1, 1), (0, 1), (1, 5), (0, 5), (1, 1), (0, 5), (1, 1), (0, 1), (1, 5), (0, 1), (1, 5),
     (0, 5), (1, 2)] a0

/-- V-O1 at the lower rate. -/
theorem test_owByte : (fun t => (t.res0, t.res1, t.status.toWord)) (ends (exec (.owByte 0) (owByteWave 0)))
    = (0x65, 48, 6) := by decide
/-- V-O4 at the lower rate: a low pulse of 30 us is ambiguous. -/
theorem test_owByte_ambiguous :
    statusOf (exec (.owByte 0) (fixture 0xF020 66667 [(1, 1), (0, 2), (1, 9)] 0)) = 0x702 := by decide
/-- V-O3 at the lower rate: a low pulse of 75 us. -/
theorem test_owPres : (fun t => (t.res0, t.res1, t.status.toWord))
      (ends (exec (.owPres 0) (fixture 0xF020 66667 [(1, 1), (0, 5), (1, 9)] 0)))
    = (1, 6, 6) := by decide
/-- V-O11. -/
theorem test_owPres_negative :
    statusOf (exec (.owPres 0) (fixture 0xF020 66667 [(1, 1), (0, 5), (1, 9)] 0xFFFFFFFF)) = 0x2 := by decide
/-- V-O7 at the lower rate: 33 samples last 494.9 us. -/
theorem test_owRst : (fun t => (t.res0, t.res1, t.status.toWord))
      (ends (exec (.owRst 0) (fixture 0xF020 66667 [(1, 5), (0, 33), (1, 5)] 0)))
    = (5, 38, 6) := by decide
/-- V-O6 at the lower rate: 32 samples last 479.9 us. -/
theorem test_owRst_short : statusOf (exec (.owRst 0) (fixture 0xF020 66667 [(1, 5), (0, 32), (1, 5)] 0)) = 0x2 := by decide

/-! ## The bus, the pin and the host's notation -/

/-- The port's answer to one input. -/
def answer (s : State) (i : Input) : Option Response := (ends (step { s with inputs := [i] })).resp

/-- V-C16. -/
theorem test_params_word : answer State.reset (.read 0x4#20) = some (.data 0x38) := by rfl
/-- V-H4, with TOKCAP = 8: unlisted, misaligned, a write to a token window, a record at t = 8. -/
theorem test_bus_errors : [Input.read 0x34#20, .read 0x2#20, .write 0x10000#20 0, .read 0x10080#20].map (answer (vB7 0))
    = [some (.err .unlisted), some (.err .misaligned), some (.err .tokenWrite), some (.err .tokenRecord)] := by decide
/-- V-H1. -/
theorem test_busy_write_sets_coll :
    (ends (step { vB7 0 with inputs := [.write 0x18#20 5] })).status.toWord = 0x11 := by decide
/-- V-R3: SRST with IE. -/
theorem test_soft_reset : (fun t => (t.ie, t.len 0, t.samples)) (ends (step { vB7 0 with inputs := [.write 0x10#20 3] }))
    = (false, 0, []) := by decide
/-- The host's word runs as the first instruction after reset. -/
theorem test_place : (ends (step (State.reset.withFetchWord 16 0x0F00))).status.toWord = 0x2 := by rfl
/-- Log 26: with `rst_n` low a `rd` gives a free value and the program goes on. -/
theorem test_rd_unanswered :
    (fun h => (h.vars[0], h.pc, h.unanswered))
      (HostState.move [.rd 0 (.reg .id)]
        { vars := Vector.replicate 8 0, pc := 0, halted := false, unanswered := 0
          block := { State.reset with rstN := false } } .host)
    = (Config.unansweredWord 0, 1, 1) := by rfl
/-- V-B19. -/
theorem test_bitParser : bitParser "10" 3 2 = [(true, 0, 2), (false, 3, 5), (true, 6, 8), (false, 9, 11)] := by decide
/-- 42_decode_common.md R334, on records of V-I1 and V-S1. -/
theorem test_labels : [Token.mk 0x500018 16 68 0, ⟨0x14, 72, 76, 0⟩, ⟨0xA50820, 2, 30, 0⟩, ⟨0x08, 0, 0, 0⟩].map Token.label
    = [some "A(80)", some "\\W", some "8b 165", none] := by decide

/-! ## Witnesses: for each statement with hypotheses, a state and operands that meet them -/

/-- An instruction running in the small build on channel 0 of `vB7`. -/
def busyState : State := vB7 3

/-- The small build at rest after a command that found its target. -/
def idleState : State := ends (exec (.nfe 0) (vB7 0))

/-- The next thing to happen in `s` is `x`. -/
def input (s : State) (x : Input) : State := { s with inputs := [x] }

theorem witness_CommandWordLayout :
    (0x1000#32).extractLsb' 12 20 ≠ 0#20 ∧ (0x80000000#32).extractLsb' 12 20 ≠ 0#20 := by decide

theorem witness_StepRunsDecodedInstruction :
    let s := running Channel.reset [] 0xF22 0 0
    (s.rstN = true ∧ s.status.busy = true ∧ decode s.params.hasOw s.engine.cw = .ok (.owRst 15) ∧ s.inputs = [])
    ∧ (input s .engine).inputs = .engine :: [] := by
  refine ⟨⟨rfl, rfl, rfl, rfl⟩, rfl⟩

theorem witness_PlacedCommandRunsNext : (Instr.owRst 15).wf State.reset.params.hasOw = true := by decide

theorem witness_EngineTurnEndsTheCommand :
    (busyState.rstN = true ∧ busyState.inputs = [] ∧ busyState.status.busy = true)
    ∧ (idleState.rstN = true ∧ idleState.inputs = [] ∧ idleState.status.busy = false) := by decide

theorem witness_InvariantHoldsAtReset :
    Params.legal { small with cap := 1, tokcap := 1 } ∧ Params.legal { small with cap := 2 ^ 30, tokcap := 4096 } := by
  decide

/-- A running SET, with one sample, one record and a pointer at CAP. -/
def invState : State :=
  { State.resetOf small with
    chans := (Vector.replicate 8 Channel.reset).set 0 (loaded 0x1021 1000 63 [⟨0x320, 1, 5, 0⟩])
    samples := [(63, 1)]
    blptr := 64
    status := Status.reset.issue
    engine := { cw := 1, a0 := 5, a1 := 0 } }

theorem invState_chan (c : Chan) (h : c ≠ 0) : invState.chan c = Channel.reset := by
  fin_cases c <;> first | exact absurd rfl h | rfl

theorem witness_InvariantKeptByStep : invState.Inv ∧ ∃ t, step invState = .next t := by
  refine ⟨?_, _, rfl⟩
  refine
    { legal := by decide
      memory := by decide
      inCap := by decide
      lenInCap := by decide
      quiet := ?_
      room := by decide
      tokens := ?_
      bulk := by decide
      running := fun _ => ⟨rfl, rfl, rfl, rfl⟩
      idle := fun h => by cases h
      failed := fun h => absurd rfl h
      held := fun h => by cases h }
  · intro c i hi
    have e : invState.bit c i = (if i = 63 then 1#8 else 0#8).getLsbD c := rfl
    rw [e]
    by_cases h : c = 0
    · subst h
      have hl : invState.len 0 = 63 := by decide
      rw [hl] at hi
      rw [if_neg (by omega)]; rfl
    · split
      · fin_cases c <;> first | exact absurd rfl h | rfl
      · simp only [BitVec.getLsbD_zero]
  · intro c t ht
    by_cases h : c = 0
    · subst h
      have e : t = ⟨0x320, 1, 5, 0⟩ := List.mem_singleton.1 ht
      subst e
      unfold Token.wf
      decide
    · rw [invState_chan c h] at ht
      exact absurd ht List.not_mem_nil

theorem witness_CommandWriteIssues :
    let idle := input idleState (.write 0x18#20 0xFFFFFFFF)
    let busy := input busyState (.write 0x18#20 0)
    (NextInput idle (.write 0x18#20 0xFFFFFFFF) [] ∧ idle.status.busy = false)
    ∧ (NextInput busy (.write 0x18#20 0) [] ∧ busy.status.busy = true) :=
  ⟨⟨⟨rfl, rfl⟩, rfl⟩, ⟨rfl, rfl⟩, rfl⟩

/-- An illegal word, and for each of the six codes of the checks an instruction and a state that fail that check first. -/
theorem witness_ChecksInTheirOrder :
    (IllegalWord true 0x23#32 ∧ IllegalWord true 0x0D#32 ∧ IllegalWord true 0x1000#32 ∧ IllegalWord false 0x22#32
      ∧ (running Channel.reset [] 0x23 0 0).status.busy = true ∧ (running Channel.reset [] 0x23 0 0).inputs = [])
    ∧ FirstFailed (.owByte 8) { busyState with params := { small with hasOw := false } } .ebadop
    ∧ FirstFailed (.decOw 8) busyState .ebadch
    ∧ FirstFailed (.decOw 7) busyState .enotimpl
    ∧ FirstFailed (.decI2c 0) (fixture 0xF020 0 [] 0) .ecfg
    ∧ FirstFailed (.decI2c 0) (fixture 0x8020 1 [] 0) .enoclk
    ∧ FirstFailed (.setr 0) (running Channel.reset [] 3 5 4) .eidx := by
  refine ⟨⟨Or.inr (Or.inl (by decide)), Or.inl (by decide), Or.inr (Or.inr (Or.inl (by decide))),
    Or.inr (Or.inr (Or.inr (by decide))), rfl, rfl⟩, ?_, ?_, ?_, ?_, ?_, ?_⟩
  · unfold FirstFailed; rw [if_pos (by decide)]
  · unfold FirstFailed; rw [if_neg (by decide), if_pos (by decide)]
  · unfold FirstFailed; rw [if_neg (by decide), if_neg (by decide)]
    exact .inl ⟨7, rfl, rfl, .inl ⟨.inl ⟨7, rfl⟩, rfl⟩⟩
  · unfold FirstFailed; rw [if_neg (by decide), if_neg (by decide)]
    refine .inl ⟨0, rfl, rfl, .inr (.inl ⟨?_, .inl (by decide), rfl⟩)⟩
    rintro (⟨_, h⟩ | ⟨⟨_, h⟩, _⟩) <;> cases h
  · unfold FirstFailed; rw [if_neg (by decide), if_neg (by decide)]
    refine .inl ⟨0, rfl, rfl, .inr (.inr ⟨?_, ?_, ⟨.inl ⟨0, rfl⟩, by decide⟩, rfl⟩)⟩
    · rintro (⟨_, h⟩ | ⟨⟨_, h⟩, _⟩) <;> cases h
    · simp only [cfgBad, badRate]; decide
  · unfold FirstFailed; rw [if_neg (by decide), if_neg (by decide)]
    exact .inr ⟨.inr (.inl ⟨⟨0, .inl rfl⟩, .inl (by decide)⟩), rfl⟩

/-- A SET at the last index fails no check. -/
theorem witness_ChecksInTheirOrder_pass : ¬ ∃ e, FirstFailed (.set 7) (running Channel.reset [] 0x701 63 0) e := by
  rintro ⟨e, h⟩
  unfold FirstFailed at h
  rw [if_neg (by decide), if_neg (by decide)] at h
  rcases h with ⟨c, _, _, (⟨h, _⟩ | ⟨_, h, _⟩ | ⟨_, _, h, _⟩)⟩ | ⟨h, _⟩
  · rcases h with ⟨_, h⟩ | ⟨⟨_, h⟩, _⟩ <;> cases h
  · exact h
  · rcases h.1 with ⟨_, h⟩ | ⟨_, h⟩ | ⟨⟨_, h⟩, _⟩ <;> cases h
  · rcases h with ⟨_, h⟩ | ⟨⟨_, h | h⟩, _⟩ | ⟨⟨_, h⟩, _⟩
    · revert h; decide
    · cases h
    · cases h
    · cases h

/-- One bit of SPI with the token memory of every channel full: ETOKOVF. -/
def fullState : State :=
  running (loaded 0x1020 1000 3 (List.replicate 8 ⟨0x10120, 2, 2, 0⟩)) [(0, 2), (3, 2)] 0x13 0 0

theorem witness_AbortsKeepEarlierResults :
    ∃ t, exec (.decSpi 0) fullState = .next t ∧ t.status.err ≠ .ok ∧ t.status.err = .etokovf :=
  ⟨_, rfl, by decide, by decide⟩

theorem witness_CompletionSetsStatus :
    ∃ t, exec (.nfe 0) (vB7 0) = .next t ∧ t.status.err = .ok ∧ t.status.found = true ∧ t.res0 ≠ (vB7 0).res0 :=
  ⟨_, rfl, by decide, by decide, by decide⟩

theorem witness_ErrcmdNamesTheLastAbort :
    (∃ t, exec (.decOw 0) busyState = .next t)
    ∧ NextInput (input (running Channel.reset [] 0xFFFFFFFF 0 0) .engine) .engine []
    ∧ IllegalWord true (running Channel.reset [] 0xFFFFFFFF 0 0).engine.cw
    ∧ NextInput (input busyState (.write 0x10#20 2)) (.write 0x10#20 2) []
    ∧ NextInput (input busyState (.read 0x2C#20)) (.read 0x2C#20) []
    ∧ NextInput (input busyState (.rstN false)) (.rstN false) [] :=
  ⟨⟨_, rfl⟩, ⟨rfl, rfl⟩, .inr (.inl (by decide)), ⟨rfl, rfl⟩, ⟨rfl, rfl⟩, rfl, rfl⟩

theorem witness_CommandReadsOnlyItsCopies : ∃ t, exec (.set 0) (vB7 63) = .next t ∧ t.len 0 = 63 := ⟨_, rfl, by decide⟩

theorem witness_HostCannotDisturbARunningCommand :
    busyState.rstN = true ∧ busyState.status.busy = true
    ∧ ∀ x ∈ [Input.read 0x24#20, .write 0x18#20 0, .write 0x10#20 1, .write 0x14#20 0x12], x.sparesEngine := by
  refine ⟨rfl, rfl, ?_⟩
  intro x hx
  simp only [List.mem_cons, List.not_mem_nil, or_false] at hx
  rcases hx with rfl | rfl | rfl | rfl
  · trivial
  · exact fun h => by revert h; decide
  · exact fun h => by revert h; decide
  · exact fun h => by revert h; decide

/-- Both with `rst_n` high and with it low. -/
theorem witness_ReadsHaveNoSideEffect :
    (busyState.rstN = false → busyState = busyState.heldReset)
    ∧ (let s := { State.reset with rstN := false }; s.rstN = false ∧ s = s.heldReset) :=
  ⟨fun h => (by cases h), rfl, rfl⟩

theorem witness_OtherChannelsUntouched :
    (Instr.set 7).usesCh = true ∧ (7#4).toNat = (7 : Chan).val ∧ (0 : Chan) ≠ 7 ∧ busyState.samples.wf
    ∧ ∃ t, exec (.set 7) busyState = .next t := by
  refine ⟨rfl, rfl, by decide, by decide, _, rfl⟩

theorem witness_CommandsKeepWhatTheyDoNotName :
    ∃ t, exec (.decUart 0) vU11 = .next t ∧ t.tokcnt 0 = 3 := ⟨_, rfl, by decide⟩

theorem witness_ClockPassThroughOnlyCompletes : (7#4).toNat < 8 ∧ 8 ≤ (8#4).toNat := by decide

/-- The last index of a channel, and the first index that is none. -/
theorem witness_SetAndClrWriteOneSample :
    (7#4).toNat = (7 : Chan).val ∧ (vB7 63).engine.a0.toNat < (vB7 63).params.cap
    ∧ (vB7 64).params.cap ≤ (vB7 64).engine.a0.toNat := by decide

/-- A range of one sample at the end, an empty range, and a range past the end. -/
theorem witness_SetrAndClrrWriteARange :
    let s (lo hi : Word) := running Channel.reset [] 3 lo hi
    (0#4).toNat = (0 : Chan).val
    ∧ ((s 63 63).engine.a0.toNat ≤ (s 63 63).engine.a1.toNat ∧ (s 63 63).engine.a1.toNat < (s 63 63).params.cap)
    ∧ (s 5 4).engine.a1.toNat < (s 5 4).engine.a0.toNat
    ∧ (s 0 64).params.cap ≤ (s 0 64).engine.a1.toNat := by decide

/-- An index above a LEN of 0 in a state that meets the invariant. -/
theorem witness_GetAndLengthReadTheChannel :
    (7#4).toNat = (7 : Chan).val
    ∧ ∃ s : State, s.Inv ∧ (s.chan 7).len.toNat < s.engine.a0.toNat :=
  ⟨rfl, invState, witness_InvariantKeptByStep.1, by decide⟩

/-- NOP with the largest legal CH and with the first reserved bit set. -/
theorem witness_NopOnlyCompletes :
    ((0xF00#32).toNat % 256 = 0 ∧ (0xF00#32).toNat < 4096) ∧ ((0x1000#32).toNat % 256 = 0 ∧ 4096 ≤ (0x1000#32).toNat) := by
  decide

theorem witness_ChresetEmptiesTheChannel : (7#4).toNat = (7 : Chan).val ∧ busyState.samples.wf := by decide

theorem witness_EdgeCommandsFindTheNextEdge :
    (0 ≤ (vB7 5).engine.a0.toInt ∧ EdgeFound (vB7 5) 0 true (vB7 5).engine.a0.toInt.toNat 12)
    ∧ (0 ≤ (vB7 0).engine.a0.toInt ∧ EdgeFound (vB7 0) 0 false (vB7 0).engine.a0.toInt.toNat 8)
    ∧ (vB7 0x80000000).engine.a0.toInt < 0
    ∧ ¬ ∃ j, EdgeFound (vB7 13) 0 true (vB7 13).engine.a0.toInt.toNat j :=
  ⟨⟨by decide, edgeFrom_eq_some.1 (by decide)⟩, ⟨by decide, edgeFrom_eq_some.1 (by decide)⟩, by decide,
    edgeFrom_eq_none.1 (by decide)⟩

theorem witness_EdgeSearchProperties :
    ((vB7 0).len 0 : Int) - 1 ≤ 14 ∧ (vB7 0).pulse 0 0 = some { rise := 8, fall := 12, mid := 10 }
    ∧ (fixture 0xF020 0 [(0, 1), (1, 1), (0, 2)] 0).pulse 0 0 = some { rise := 1, fall := 2, mid := 1 }
    ∧ (vB7 1).len 0 = (vB7 0).len 0 ∧ ∀ k, k < (vB7 0).len 0 → (vB7 1).get 0 k = (vB7 0).get 0 k :=
  ⟨by decide, by decide, by decide, by decide, fun _ _ => rfl⟩

theorem witness_NmpFindsThePulseMidpoint :
    (0 ≤ (vB7 0).engine.a0.toInt ∧ PulseFound (vB7 0) 0 (vB7 0).engine.a0.toInt.toNat 8 12)
    ∧ (vB7 0xFFFFFFFF).engine.a0.toInt < 0
    ∧ ¬ ∃ r f, PulseFound (vB7 8) 0 (vB7 8).engine.a0.toInt.toNat r f := by
  refine ⟨⟨by decide, edgeFrom_eq_some.1 (by decide), edgeFrom_eq_some.1 (by decide)⟩, by decide, ?_⟩
  rintro ⟨r, f, h, _⟩
  exact edgeFrom_eq_none.1 (by decide) ⟨r, h⟩

theorem witness_BlbeginReplacesOrAppends :
    (vB7 3).engine.a0.getLsbD 0 = true ∧ (vB7 2).engine.a0.getLsbD 0 = false := by decide

/-- The pointer at the last index, and at CAP. -/
theorem witness_BldataWritesEveryChannel :
    ({ busyState with blptr := 63 }).blptr.toNat < busyState.params.cap
    ∧ busyState.params.cap ≤ ({ busyState with blptr := 64 }).blptr.toNat := by decide

theorem witness_LengthNeverShrinks : ∃ t, exec (.chreset 0) busyState = .next t ∧ t.len 0 < busyState.len 0 :=
  ⟨_, rfl, by decide⟩

/-- The largest fields a record holds, into the last record and into a full memory. -/
theorem witness_EmitAppendsOneRecord :
    let e : Emit := { kind := .sWord, nbits := 8, value := 511, first := 2 ^ 32 - 1, last := 0 }
    (e.nbits ≤ 8 ∧ e.value ≤ 511 ∧ e.first < 2 ^ 32 ∧ e.last < 2 ^ 32)
    ∧ (running (loaded 0 0 0 (List.replicate 7 ⟨0, 0, 0, 0⟩)) [] 0 0 0).tokcnt 0 < small.tokcap
    ∧ fullState.tokcnt 0 = fullState.params.tokcap := by decide

theorem witness_DecodesWriteOnlyTokens :
    isDecode (.decUart 0) ∧ ∃ t, exec (.decUart 0) vU11 = .next t ∧ t.tokcnt 0 = 3 :=
  ⟨⟨0, .inr (.inl rfl)⟩, _, rfl, by decide⟩

theorem witness_TokensStayInAppendOrder :
    ∃ t ts, exec (.decUart 0) vU11 = .next t ∧ vU11.params.legal ∧ (∀ d, vU11.len d < vU11.params.cap)
      ∧ (t.chan 0).tokens = (vU11.chan 0).tokens ++ ts ∧ ts.length = 3 :=
  ⟨_, _, rfl, by decide, by decide, rfl, by decide⟩

theorem witness_RedecodeAppendsAgain :
    ∃ t ts, isDecode (.decSpi 0) ∧ (0#4).toNat = (0 : Chan).val ∧ exec (.decSpi 0) vS6 = .next t ∧ t.status.err = .ok
      ∧ (t.chan 0).tokens = (vS6.chan 0).tokens ++ ts ∧ t.tokcnt 0 + ts.length ≤ vS6.params.tokcap ∧ ts.length = 1 :=
  ⟨_, _, ⟨0, .inr (.inr (.inr (.inl rfl)))⟩, rfl, rfl, by decide, rfl, by decide, by decide⟩

/-! ### UART -/

/-- The frame of 0xB5 at 2 samples per bit that starts at 1 and ends at LEN, with `n` records already there. -/
def uartState (n : Nat) : State :=
  running (loaded 0xF020 19200 21 (List.replicate n ⟨1, 0, 0, 0⟩))
    [(1, 1), (0, 2), (1, 2), (0, 2), (1, 2), (0, 2), (1, 4), (0, 2), (1, 5)] 0x11 0 0

theorem uartState_scan (n : Nat) (h : n = 5 ∨ n = 6) :
    ∃ f, UartScan (uartState n) 0 0 [f] ∧ f.length = 3 ∧ ¬ uartCfgBad (uartState n) 0 := by
  rcases h with rfl | rfl <;>
    exact ⟨_, .good 0 1 181 [] (by decide) (edgeFrom_eq_some.1 (by decide)) (by decide) (by decide) (by decide) (by decide)
      (.short _ (by decide)), by decide, by simp only [uartCfgBad, badRate]; decide⟩

/-- An illegal configuration; the last three records of the memory; one record too few. -/
theorem witness_UartDecodeAppendsTheScan :
    uartCfgBad (fixture 0xF020 0x80000000 [] 0) 0
    ∧ (∃ fs, ¬ uartCfgBad (uartState 5) 0 ∧ UartScan (uartState 5) 0 0 fs
        ∧ (uartState 5).tokcnt 0 + fs.flatten.length ≤ (uartState 5).params.tokcap)
    ∧ ∃ fs f gs, ¬ uartCfgBad (uartState 6) 0 ∧ UartScan (uartState 6) 0 0 (fs ++ f :: gs)
        ∧ (uartState 6).tokcnt 0 + fs.flatten.length ≤ (uartState 6).params.tokcap
        ∧ (uartState 6).params.tokcap < (uartState 6).tokcnt 0 + fs.flatten.length + f.length := by
  refine ⟨.inl (.inr (by decide)), ?_, ?_⟩
  · obtain ⟨f, h, hl, hb⟩ := uartState_scan 5 (.inl rfl)
    refine ⟨[f], hb, h, ?_⟩
    rw [List.flatten_cons, List.flatten_nil, List.append_nil, hl]; decide
  · obtain ⟨f, h, hl, hb⟩ := uartState_scan 6 (.inr rfl)
    refine ⟨[], f, [], hb, h, by decide, ?_⟩
    rw [hl]; decide

theorem witness_UartFrameRoundTrip :
    let s := uartState 5
    (0#4).toNat = (0 : Chan).val ∧ ¬ uartCfgBad s 0 ∧ (s.chan 0).cfg.ninebit = false ∧ (s.chan 0).cfg.twostop = false
    ∧ (s.chan 0).cfg.parity = 2 ∧ uartSpb s 0 = 2 ∧ (181 : Nat) < 256 ∧ 1 + 10 * uartSpb s 0 ≤ s.len 0
    ∧ UartWave s 0 1 (uartSpb s 0) 181 ∧ s.tokcnt 0 + 3 ≤ s.params.tokcap := by
  refine ⟨rfl, by simp only [uartCfgBad, badRate]; decide, by decide, by decide, by decide, by decide, by decide,
    by decide, ⟨by decide, by decide, by decide, by decide⟩, by decide⟩

/-! ### I2C and SPI -/

/-- SCL with a period of 3 samples and high from 4 on; SDA high at 5 only; `n` records already there. -/
def i2cState (n : Nat) : State :=
  running (loaded 0x1020 0x7FFFFFFF 7 (List.replicate n ⟨0x12, 0, 0, 0⟩))
    [(0, 1), (2, 2), (0, 1), (2, 1), (3, 1), (2, 2)] 0x12 0 0

/-- One start and nothing after it. -/
theorem i2cState_records (n : Nat) (h : n = 7 ∨ n = 8) :
    I2cRecords (i2cState n) 0 1 [plainRecord 0x10 0 6 6] ∧ ¬ badRate ((i2cState n).chan 0).rate := by
  have key : ∀ s : State, s.nreNat 1 6 = none → ¬ ∃ bs, bs.length = 8 ∧ BitsRead s 0 1 6 bs := by
    rintro s hs ⟨bs, hl, hb⟩
    cases bs with
    | nil => cases hl
    | cons b bs => exact nreNat_eq_none.1 hs ⟨_, hb.1.1⟩
  rcases h with rfl | rfl
  all_goals
    refine ⟨.inr ⟨3, period_eq_some.1 (by decide), ?_⟩, by simp only [badRate]; decide⟩
    refine .start 0 0 5 6 false [] ⟨⟨by decide, by decide, by decide, by decide⟩, ?_⟩ (edgeFrom_eq_some.1 (by decide))
      (by decide) (.addressCut 0 6 false (key _ (by decide)))
    rintro p ⟨_, _, hp, _⟩
    by_contra hlt
    exact absurd hp (by
      have : p < 5 := by omega
      interval_cases p <;> decide)

/-- Room for exactly the records there are, and none at all. -/
theorem witness_I2cDecodeAppendsTheRecords :
    ∃ ts, ts.length = 1
    ∧ (¬ badRate ((i2cState 7).chan 0).rate ∧ ((i2cState 7).chan 0).cfg.clksrc.toNat = (1 : Chan).val
        ∧ I2cRecords (i2cState 7) 0 1 ts ∧ (i2cState 7).tokcnt 0 + ts.length ≤ (i2cState 7).params.tokcap)
    ∧ (¬ badRate ((i2cState 8).chan 0).rate ∧ ((i2cState 8).chan 0).cfg.clksrc.toNat = (1 : Chan).val
        ∧ I2cRecords (i2cState 8) 0 1 ts ∧ (i2cState 8).tokcnt 0 ≤ (i2cState 8).params.tokcap
        ∧ (i2cState 8).params.tokcap < (i2cState 8).tokcnt 0 + ts.length) := by
  obtain ⟨h7, b7⟩ := i2cState_records 7 (.inl rfl)
  obtain ⟨h8, b8⟩ := i2cState_records 8 (.inr rfl)
  exact ⟨_, rfl, ⟨b7, by decide, h7, by decide⟩, b8, by decide, h8, by decide, by decide⟩

theorem witness_I2cOnItsOwnClockEmitsNothing :
    let s := fixture 0x0020 1 [(1, 1), (0, 1), (1, 1)] 0
    (0#4).toNat = (0 : Chan).val ∧ ¬ badRate (s.chan 0).rate ∧ (s.chan 0).cfg.clksrc.toNat = (0 : Chan).val :=
  ⟨rfl, by simp only [badRate]; decide, by decide⟩

/-- The clock of V-S6 with `n` records already there. -/
def spiState (n : Nat) : State :=
  running (loaded 0x1020 1000 6 (List.replicate n ⟨0x12, 0, 0, 0⟩))
    [(0, 1), (2, 1), (0, 1), (2, 1), (0, 1), (2, 1), (0, 1)] 0x13 0 0

theorem spiState_edges (n : Nat) (h : n = 7 ∨ n = 8) : CaptureEdges (spiState n) 1 false 0 [1, 3, 5] := by
  rcases h with rfl | rfl <;>
    exact ⟨edgeFrom_eq_some.1 (by decide), edgeFrom_eq_some.1 (by decide), edgeFrom_eq_some.1 (by decide),
      edgeFrom_eq_none.1 (by decide)⟩

/-- Room for exactly the one group, and none at all. -/
theorem witness_SpiDecodeAppendsByteGroups :
    let before (s : State) := decide ((s.chan 0).cfg.cpol ≠ (s.chan 0).cfg.cpha)
    (¬ badRate ((spiState 7).chan 0).rate ∧ ((spiState 7).chan 0).cfg.clksrc.toNat = (1 : Chan).val
      ∧ CaptureEdges (spiState 7) 1 (before (spiState 7)) 0 [1, 3, 5]
      ∧ (spiState 7).tokcnt 0 + (byteGroups [1, 3, 5]).length ≤ (spiState 7).params.tokcap)
    ∧ (CaptureEdges (spiState 8) 1 (before (spiState 8)) 0 [1, 3, 5]
      ∧ (spiState 8).tokcnt 0 ≤ (spiState 8).params.tokcap
      ∧ (spiState 8).params.tokcap < (spiState 8).tokcnt 0 + (byteGroups [1, 3, 5]).length) :=
  ⟨⟨by simp only [badRate]; decide, by decide, spiState_edges 7 (.inl rfl), by decide⟩, spiState_edges 8 (.inr rfl),
    by decide, by decide⟩

theorem witness_SpiModesPairUp : (0#4).toNat = (0 : Chan).val ∧ ∃ t, exec (.decSpi 0) vS6 = .next t := ⟨rfl, _, rfl⟩

/-- Every value of PROTO. -/
theorem witness_DecodeDispatchesOnProto :
    (0#4).toNat = (0 : Chan).val
    ∧ [0xF020, 0xF021, 0xF022, 0xF023, 0xF024, 0xF025, 0xF026, 0xF027].map
        (fun w => ((fixture w 1000 [] 0).chan 0).cfg.proto) = [0, 1, 2, 3, 4, 5, 6, 7] := by decide

theorem witness_OneWireDecodeIsNotImplemented :
    (7#4).toNat < 8 ∧ (7#4).toNat = (7 : Chan).val ∧ ((fixture 0xF025 0 [] 0).chan 7).cfg.proto = 5 := by decide

/-! ### Measurements and 1-Wire -/

/-- The lowest and the highest legal rate, a period and none. -/
theorem witness_ClkfreqMeasuresTheFrequency :
    let s := fixture 0xF020 1 [(0, 1), (1, 2), (0, 1), (1, 2)] 0
    let u := fixture 0xF020 0x7FFFFFFF [(0, 2), (1, 2)] 0
    (¬ badRate (s.chan 0).rate ∧ PeriodFound s 0 3) ∧ (¬ badRate (u.chan 0).rate ∧ ¬ ∃ T, PeriodFound u 0 T) :=
  ⟨⟨by simp only [badRate]; decide, period_eq_some.1 (by decide)⟩, by simp only [badRate]; decide,
    period_eq_none.1 (by decide)⟩

theorem witness_ClktolMeasuresTheTolerance :
    let u := fixture 0xF020 0x7FFFFFFF [(0, 2), (1, 2)] 0
    (¬ badRate (vK1.chan 0).rate ∧ PeriodFound vK1 0 8
      ∧ 2 * (8 : Int) * 125000 ≤ 2 * (vK1.chan 0).rate.toNat + 8
      ∧ 2 * ((vK1.chan 0).rate.toNat : Int) + 8 < 2 * 8 * (125000 + 1))
    ∧ (¬ badRate (u.chan 0).rate ∧ ¬ ∃ T, PeriodFound u 0 T) :=
  ⟨⟨by simp only [badRate]; decide, period_eq_some.1 (by decide), by decide, by decide⟩,
    by simp only [badRate]; decide, period_eq_none.1 (by decide)⟩

/-- The falls and the rises of `owByteWave`. -/
def owFall (i : Nat) : Nat := [1, 7, 13, 19, 25, 31, 37, 43].getD i 0

/-- The falls and the rises of `owByteWave`. -/
def owRise (i : Nat) : Nat := [2, 12, 14, 24, 30, 32, 38, 48].getD i 0

/-- The bits of 0x65. -/
def owLevel (i : Nat) : Bool := (0x65 : Nat).testBit i

theorem owByteWave_bits : OwBits (owByteWave 0) 0 0 8 owFall owRise owLevel := by
  have one : ∀ i, i < 8 → (owByteWave 0).lowPulse 0 (if i = 0 then 0 else (owRise (i - 1) : Int))
      = some (owFall i, owRise i) := by decide
  intro i hi
  refine ⟨lowPulse_eq_some.1 (one i hi), ?_⟩
  interval_cases i
  all_goals simp only [OwOne, OwZero]
  all_goals decide

/-- Eight bits; a first low pulse that is missing; a first low pulse that is ambiguous. -/
theorem witness_OwByteReadsEightBits :
    let w := fixture 0xF020 66667 [(1, 3)] 0
    let x := fixture 0xF020 66667 [(1, 1), (0, 2), (1, 9)] 0
    ((owByteWave 0).params.hasOw = true ∧ ¬ badRate ((owByteWave 0).chan 0).rate
      ∧ OwBits (owByteWave 0) 0 (owByteWave 0).engine.a0.toInt 8 owFall owRise owLevel)
    ∧ (¬ badRate (w.chan 0).rate ∧ OwBits w 0 0 0 owFall owRise owLevel ∧ ¬ ∃ f r, LowPulseFound w 0 0 f r)
    ∧ (¬ badRate (x.chan 0).rate ∧ OwBits x 0 0 0 owFall (fun _ => 3) owLevel
      ∧ LowPulseFound x 0 0 (owFall 0) ((fun _ => 3) 0) ∧ ¬ OwOne x 0 (x.rate 0) (owFall 0) ((fun _ => 3) 0)
      ∧ ¬ OwZero (x.rate 0) (owFall 0) ((fun _ => 3) 0)) := by
  refine ⟨⟨rfl, by simp only [badRate]; decide, owByteWave_bits⟩,
    ⟨by simp only [badRate]; decide, fun i hi => absurd hi (Nat.not_lt_zero i), lowPulse_eq_none.1 (by decide)⟩,
    by simp only [badRate]; decide, fun i hi => absurd hi (Nat.not_lt_zero i), lowPulse_eq_some.1 (by decide), ?_, ?_⟩
  · rintro ⟨_, h, _⟩; revert h; decide
  · simp only [OwZero]; decide

/-- From the second bit on there are seven bits, and no eighth low pulse. -/
theorem witness_OwByteReadsEightBits_last :
    OwBits (owByteWave 2) 0 (owByteWave 2).engine.a0.toInt 7 (fun i => owFall (i + 1)) (fun i => owRise (i + 1))
      (fun i => owLevel (i + 1))
    ∧ ¬ ∃ f r, LowPulseFound (owByteWave 2) 0 (owRise 7 : Int) f r := by
  have one : ∀ i, i < 7 → (owByteWave 2).lowPulse 0 (if i = 0 then 2 else (owRise (i - 1 + 1) : Int))
      = some (owFall (i + 1), owRise (i + 1)) := by decide
  refine ⟨fun i hi => ⟨lowPulse_eq_some.1 (one i hi), ?_⟩, lowPulse_eq_none.1 (by decide)⟩
  interval_cases i
  all_goals simp only [OwOne, OwZero]
  all_goals decide

/-- The lowest CH that names no channel, in the smallest and the largest build. -/
theorem witness_ChecksChannel :
    (Instr.owByte 8).wf busyState.params.hasOw = true ∧ 8 ≤ (8#4).toNat ∧ (Instr.set 15).wf false = true := by decide

/-- The two ends of the illegal rates. -/
theorem witness_ChecksRate :
    let s (r : Word) := fixture 0xF020 r [] 0
    badRate (((s 0).chan 0).rate) ∧ badRate (((s 0x80000000).chan 0).rate) :=
  ⟨.inl (by decide), .inr (by decide)⟩

/-- A build without the option. -/
theorem witness_ChecksOption : ({ busyState with params := { small with hasOw := false } }).params.hasOw = false := by decide

/-- Low for 60 samples: exactly 60 us at 1000000 samples a second and 480 us at 125000; and one sample less. -/
def lowWave (n : Nat) (rate : Word) : State := fixture 0xF020 rate [(1, 1), (0, n), (1, 2)] 0

theorem witness_OwDetectorsTestTheFirstPulse :
    ((lowWave 60 1000000).params.hasOw = true ∧ ¬ badRate ((lowWave 60 1000000).chan 0).rate
      ∧ LowPulseFound (lowWave 60 1000000) 0 (lowWave 60 1000000).engine.a0.toInt 1 61
      ∧ 60 * ((lowWave 60 1000000).chan 0).rate.toNat ≤ (61 - 1) * 10 ^ 6)
    ∧ (¬ badRate ((lowWave 60 125000).chan 0).rate ∧ LowPulseFound (lowWave 60 125000) 0 0 1 61
      ∧ 480 * ((lowWave 60 125000).chan 0).rate.toNat ≤ (61 - 1) * 10 ^ 6)
    ∧ (∀ f r, LowPulseFound (lowWave 59 1000000) 0 (lowWave 59 1000000).engine.a0.toInt f r →
        (r - f) * 10 ^ 6 < 60 * ((lowWave 59 1000000).chan 0).rate.toNat)
    ∧ ∀ f r, LowPulseFound (lowWave 59 125000) 0 (lowWave 59 125000).engine.a0.toInt f r →
        (r - f) * 10 ^ 6 < 480 * ((lowWave 59 125000).chan 0).rate.toNat := by
  refine ⟨⟨rfl, by simp only [badRate]; decide, lowPulse_eq_some.1 (by decide), by decide⟩,
    ⟨by simp only [badRate]; decide, lowPulse_eq_some.1 (by decide), by decide⟩, ?_, ?_⟩
  · intro f r h
    have e : (lowWave 59 1000000).lowPulse 0 (lowWave 59 1000000).engine.a0.toInt = some (1, 60) := by decide
    rw [lowPulse_eq_some.2 h] at e; cases e; decide
  · intro f r h
    have e : (lowWave 59 125000).lowPulse 0 (lowWave 59 125000).engine.a0.toInt = some (1, 60) := by decide
    rw [lowPulse_eq_some.2 h] at e; cases e; decide

/-! ### The bus -/

/-- The last listed register, the last word of the last record, and their neighbours. -/
theorem witness_BusErrorsExactly :
    ListedRegister 0x1F4 ∧ ¬ ListedRegister 0x1F8 ∧ ListedRegister 0x30 ∧ ¬ ListedRegister 0x34
    ∧ ListedTokenWord small.tokcap 0x1007C ∧ ¬ ListedTokenWord small.tokcap 0x10080
    ∧ NextInput (input busyState (.read 0x1007C#20)) (.read 0x1007C#20) []
    ∧ NextInput (input busyState (.write 0x34#20 0)) (.write 0x34#20 0) [] := by
  unfold ListedRegister ListedTokenWord
  exact ⟨by decide, by decide, by decide, by decide, by decide, by decide, ⟨rfl, rfl⟩, rfl, rfl⟩

theorem witness_RegisterMapReads :
    let s := { fullState with status := Status.reset }
    s.status.busy = false ∧ 7 < s.params.tokcap ∧ (s.chan 0).tokens[7]? = some ⟨0x10120, 2, 2, 0⟩ :=
  ⟨rfl, by decide, by decide⟩

theorem witness_UnspecifiedReadsAreFree :
    (busyState.rstN = true ∧ busyState.status.busy = true)
    ∧ (GuardedAddress 0x1E8 ∧ ReadsAs { busyState with status := { busyState.status with busy := false } } 0x1E8#20 1000)
    ∧ ReadsAs { busyState with status := { busyState.status with busy := false } } 0x14#20 Status.reset.toWord
    ∧ ListedRegister 0x1F4 ∧ ListedTokenWord busyState.params.tokcap 0x1007C
    ∧ (busyState.tokcnt 7 ≤ 7 ∧ 7 < busyState.params.tokcap) := by
  refine ⟨⟨rfl, rfl⟩, ⟨.inr (.inr (.inr ⟨7, .inr (.inr rfl)⟩)), fun _ _ => rfl⟩, fun _ _ => rfl, ?_, ?_, ?_⟩
  · unfold ListedRegister; decide
  · unfold ListedTokenWord; decide
  · decide

theorem witness_BusyWritesAreIgnored :
    busyState.status.busy = true ∧ GuardedAddress (0x1E8#20).toNat
    ∧ NextInput (input busyState (.write 0x1E8#20 0)) (.write 0x1E8#20 0) [] :=
  ⟨rfl, .inr (.inr (.inr ⟨7, .inr (.inr rfl)⟩)), rfl, rfl⟩

theorem witness_IdleWritesAreStored :
    let w (a : Addr) := Input.write a 0xFFFFFFFF
    idleState.status.busy = false ∧ NextInput (input idleState (w 0x1C#20)) (w 0x1C#20) []
    ∧ NextInput (input idleState (w 0x20#20)) (w 0x20#20) [] ∧ NextInput (input idleState (w 0x1E4#20)) (w 0x1E4#20) []
    ∧ NextInput (input idleState (w 0x1E8#20)) (w 0x1E8#20) [] ∧ NextInput (input idleState (w 0x1E0#20)) (w 0x1E0#20) []
    ∧ ({ idleState with chans := Vector.replicate 8 (loaded 0xFFFFFFFF 0 0 []) }.chan 7).cfg = Cfg.ofWord 0xFFFFFFFF :=
  ⟨rfl, ⟨rfl, rfl⟩, ⟨rfl, rfl⟩, ⟨rfl, rfl⟩, ⟨rfl, rfl⟩, ⟨rfl, rfl⟩, rfl⟩

theorem witness_ControlWritesActAtOnce :
    NextInput (input busyState (.write 0x10#20 1)) (.write 0x10#20 1) [] ∧ (1#32).getLsbD 1 = false
    ∧ NextInput (input busyState (.write 0x14#20 0x12)) (.write 0x14#20 0x12) []
    ∧ ReadOnlyAddress (0x1F4#20).toNat ∧ NextInput (input busyState (.write 0x1F4#20 1)) (.write 0x1F4#20 1) [] :=
  ⟨⟨rfl, rfl⟩, by decide, ⟨rfl, rfl⟩, .inr ⟨7, .inr (.inr rfl)⟩, rfl, rfl⟩

theorem witness_InterruptLineIsEnableAndDone :
    (∃ t, exec (.nop 0) { busyState with ie := true } = .next t ∧ t.irq = true)
    ∧ NextInput (input idleState (.write 0x10#20 1)) (.write 0x10#20 1) [] ∧ (1#32).getLsbD 1 = false
    ∧ NextInput (input idleState (.write 0x14#20 2)) (.write 0x14#20 2) [] ∧ (2#32).getLsbD 1 = true
    ∧ NextInput (input idleState (.rstN false)) (.rstN false) [] :=
  ⟨⟨_, rfl, rfl⟩, ⟨rfl, rfl⟩, by decide, ⟨rfl, rfl⟩, by decide, rfl, rfl⟩

theorem witness_DoneIsClearedExactlyBy :
    idleState.status.done = true
    ∧ (∃ t, step (input idleState (.write 0x14#20 2)) = .next t ∧ t.status.done = false)
    ∧ ∃ t, step (input idleState (.write 0x14#20 0)) = .next t ∧ t.status.done = true :=
  ⟨by decide, ⟨_, rfl, by decide⟩, _, rfl, by decide⟩

theorem witness_SoftResetGivesTheResetState :
    NextInput (input busyState (.write 0x10#20 2)) (.write 0x10#20 2) [] ∧ (2#32).getLsbD 1 = true
    ∧ NextInput (input busyState (.write 0x10#20 1)) (.write 0x10#20 1) [] ∧ (1#32).getLsbD 1 = false :=
  ⟨⟨rfl, rfl⟩, by decide, ⟨rfl, rfl⟩, by decide⟩

theorem witness_ResetValuesAsRead : 7 < small.tokcap ∧ 7 < 4096 := by decide

theorem witness_ResetPinHoldsTheResetState :
    NextInput (input busyState (.rstN false)) (.rstN false) []
    ∧ (let s := { State.reset with rstN := false, inputs := [.rstN true] }
       s.rstN = false ∧ s.inputs = .rstN true :: []) :=
  ⟨⟨rfl, rfl⟩, rfl, rfl⟩

end Sys2Proof.Tests
end

section
/-! Which addresses the port's map knows, what a read and a write answer there, and O49 from the two. -/

namespace Sys2Proof.Machine

/-! ## The addresses the map knows, region by region of 20_memory.md R155 -/

theorem regAt_misaligned {n : Nat} {a : Addr} (h : a.toNat % 4 ≠ 0) : regAt n a = .error .misaligned := if_pos h

theorem regAt_global_ok_iff (n : Nat) {a : Addr} (h4 : a.toNat % 4 = 0) (hlt : a.toNat < 0x100) :
    (∃ r, regAt n a = .ok r) ↔ a.toNat ≤ 0x30 := by
  have hlisted : globalRegs[a.toNat / 4]?.isSome ↔ a.toNat ≤ 0x30 := by
    simp only [isSome_getElem?, globalRegs, List.length]; omega
  rw [← hlisted]
  cases hr : globalRegs[a.toNat / 4]? <;> simp [regAt, h4, hlt, hr]

theorem regAt_channel_ok_iff (n : Nat) {a : Addr} (h4 : a.toNat % 4 = 0) (hge : 0x100 ≤ a.toNat)
    (hlt : a.toNat < 0x200) : (∃ r, regAt n a = .ok r) ↔ a.toNat % 0x20 < 0x18 := by
  generalize hc : (Fin.ofNat 8 ((a.toNat - 0x100) / 0x20) : Chan) = c
  have hlisted : (channelRegs c)[a.toNat % 0x20 / 4]?.isSome ↔ a.toNat % 0x20 < 0x18 := by
    simp only [isSome_getElem?, channelRegs, List.length]; omega
  rw [← hlisted]
  cases hr : (channelRegs c)[a.toNat % 0x20 / 4]? <;> simp [regAt, h4, Nat.not_lt.2 hge, hlt, hc, hr, -Fin.ofNat_eq_cast]

theorem regAt_gap {n : Nat} {a : Addr} (h4 : a.toNat % 4 = 0) (hge : 0x200 ≤ a.toNat) (hlt : a.toNat < 0x10000) :
    regAt n a = .error .unlisted := by
  have hglobal : ¬ a.toNat < 0x100 := by omega
  have hchannel : ¬ a.toNat < 0x200 := by omega
  simp [regAt, h4, hglobal, hchannel, hlt]

theorem regAt_window_ok_iff (n : Nat) {a : Addr} (h4 : a.toNat % 4 = 0) (hge : 0x10000 ≤ a.toNat)
    (hlt : a.toNat < 0x90000) : (∃ r, regAt n a = .ok r) ↔ a.toNat % 0x10000 / 16 < n := by
  have hglobal : ¬ a.toNat < 0x100 := by omega
  have hchannel : ¬ a.toNat < 0x200 := by omega
  have hgap : ¬ a.toNat < 0x10000 := by omega
  by_cases hn : a.toNat % 0x10000 / 16 < n <;> simp [regAt, h4, hglobal, hchannel, hgap, hlt, hn]

theorem regAt_above {n : Nat} {a : Addr} (h4 : a.toNat % 4 = 0) (hge : 0x90000 ≤ a.toNat) :
    regAt n a = .error .unlisted := by
  have hglobal : ¬ a.toNat < 0x100 := by omega
  have hchannel : ¬ a.toNat < 0x200 := by omega
  have hgap : ¬ a.toNat < 0x10000 := by omega
  have hwindow : ¬ a.toNat < 0x90000 := by omega
  simp [regAt, h4, hglobal, hchannel, hgap, hwindow]

/-- The executable map agrees with the address map as the spec lists it (20_memory.md R155, R156). -/
theorem regAt_ok_iff (n : Nat) (a : Addr) :
    (∃ r, regAt n a = .ok r) ↔ ListedRegister a.toNat ∨ ListedTokenWord n a.toNat := by
  unfold ListedRegister ListedTokenWord
  by_cases h4 : a.toNat % 4 = 0
  case neg => simp [regAt_misaligned h4, h4]
  by_cases hglobal : a.toNat < 0x100
  · rw [regAt_global_ok_iff n h4 hglobal]; omega
  by_cases hchannel : a.toNat < 0x200
  · rw [regAt_channel_ok_iff n h4 (by omega) hchannel]; omega
  by_cases hgap : a.toNat < 0x10000
  · simp only [regAt_gap h4 (by omega) hgap, reduceCtorEq, exists_false, false_iff]; omega
  by_cases hwindow : a.toNat < 0x90000
  · rw [regAt_window_ok_iff n h4 (by omega) hwindow]; omega
  · simp only [regAt_above h4 (by omega), reduceCtorEq, exists_false, false_iff]; omega

theorem regAt_error_of_unlisted {n : Nat} {a : Addr} (h : ¬ (ListedRegister a.toNat ∨ ListedTokenWord n a.toNat)) :
    ∃ f, regAt n a = .error f := by
  cases hr : regAt n a with
  | error f => exact ⟨f, rfl⟩
  | ok r => exact absurd ((regAt_ok_iff n a).1 ⟨r, hr⟩) h

theorem inTokenWindow_iff (a : Addr) : inTokenWindow a = true ↔ 0x10000 ≤ a.toNat ∧ a.toNat < 0x90000 := by
  simp only [inTokenWindow, Bool.and_eq_true, decide_eq_true_eq]

theorem inTokenWindow_of_listedRegister {a : Addr} (h : ListedRegister a.toNat) : inTokenWindow a = false := by
  rw [← Bool.not_eq_true, inTokenWindow_iff]
  unfold ListedRegister at h
  omega

theorem inTokenWindow_of_listedTokenWord {n : Nat} {a : Addr} (h : ListedTokenWord n a.toNat) :
    inTokenWindow a = true := by
  obtain ⟨_, hge, hlt, _⟩ := h
  exact (inTokenWindow_iff a).2 ⟨hge, hlt⟩

/-! ## What a read and a write answer -/

theorem busRead_of_error {s : State} {a : Addr} {f : Fault} (h : regAt s.params.tokcap a = .error f) :
    s.busRead a = s.respond (.err f) := by simp only [State.busRead, h]

/-- A read of a listed thing gets OK, whether its value is fixed or free. -/
theorem busRead_resp_of_ok {s : State} {a : Addr} {r : Reg} (h : regAt s.params.tokcap a = .ok r) :
    ∃ w, (s.busRead a).resp = some (.data w) := by
  cases hv : s.readNow r with
  | some v => exact ⟨v, by simp only [State.busRead, h, hv, State.respond_resp]⟩
  | none => exact ⟨Config.unspecifiedWord s.freeCount, by simp only [State.busRead, h, hv, State.respond_resp]⟩

theorem busWrite_of_error {s : State} {a : Addr} {f : Fault} (v : Word) (h : regAt s.params.tokcap a = .error f) :
    s.busWrite a v = s.respond (.err f) := by simp only [State.busWrite, h]

theorem busWrite_of_ok {s : State} {a : Addr} {r : Reg} (v : Word) (h : regAt s.params.tokcap a = .ok r) :
    s.busWrite a v = if inTokenWindow a then s.respond (.err .tokenWrite) else (s.writeReg r v).respond .done := by
  simp only [State.busWrite, h]

/-- A write where no register is listed answers ERR and nothing else happens: outside the map by the map's own error,
in a token window by R156. -/
theorem busWrite_of_not_listedRegister (s : State) {a : Addr} (v : Word) (h : ¬ ListedRegister a.toNat) :
    ∃ f, s.busWrite a v = s.respond (.err f) := by
  cases hr : regAt s.params.tokcap a with
  | error f => exact ⟨f, busWrite_of_error v hr⟩
  | ok r =>
    have htok : ListedTokenWord s.params.tokcap a.toNat := ((regAt_ok_iff _ a).1 ⟨r, hr⟩).resolve_left h
    exact ⟨.tokenWrite, by rw [busWrite_of_ok v hr, inTokenWindow_of_listedTokenWord htok, if_pos rfl]⟩

/-- A write to a listed register gets OK, also where the register ignores it (R64, R710). -/
theorem busWrite_resp_of_listedRegister (s : State) {a : Addr} (v : Word) (h : ListedRegister a.toNat) :
    (s.busWrite a v).resp = some .done := by
  obtain ⟨r, hr⟩ := (regAt_ok_iff s.params.tokcap a).2 (.inl h)
  rw [busWrite_of_ok v hr, inTokenWindow_of_listedRegister h, if_neg Bool.false_ne_true, State.respond_resp]

/-! ## The obligation -/

/-- Settles O49: the map decides which transactions get ERR (`regAt_ok_iff`), and the port's answer follows it. -/
theorem busErrorsExactly : Obligations.BusErrorsExactly := by
  unfold Obligations.BusErrorsExactly
  intro s a v rest
  refine ⟨fun hread => ⟨fun hunlisted => ?_, fun hlisted => ?_⟩, fun hwrite => ⟨fun hunlisted => ?_, fun hlisted => ?_⟩⟩
  · obtain ⟨f, hf⟩ := regAt_error_of_unlisted hunlisted
    have hresp := busRead_of_error (s := { s with inputs := rest }) hf
    exact ⟨f, by rw [step_read hread, hresp]; rfl, rfl⟩
  · obtain ⟨r, hr⟩ := (regAt_ok_iff s.params.tokcap a).2 hlisted
    obtain ⟨w, hw⟩ := busRead_resp_of_ok (s := { s with inputs := rest }) hr
    exact ⟨_, w, step_read hread, hw⟩
  · obtain ⟨f, hf⟩ := busWrite_of_not_listedRegister { s with inputs := rest } v hunlisted
    exact ⟨f, by rw [step_write hwrite, hf]; rfl⟩
  · exact ⟨_, step_write hwrite, busWrite_resp_of_listedRegister { s with inputs := rest } v hlisted⟩

end Sys2Proof.Machine
end

section
/-! The command word as its three fields of 30_encoding.md R200, and O2: the fields of every encoded command, and what the
decoder answers when the reserved one is not 0. -/

namespace Sys2Proof

/-- A word is its three fields, each at its place (30_encoding.md R200). -/
theorem toNat_eq_fields (w : Word) :
    w.toNat = (opcodeField w).toNat + 256 * (chField w).toNat + 4096 * (reservedField w).toNat := by
  simp only [opcodeField, chField, reservedField, BitVec.extractLsb'_toNat, Nat.shiftRight_eq_div_pow]
  omega

/-- The fields of every command word, from the lemma of each command. -/
theorem encode_fields : ∀ i : Instr, Laws.EncodingFields.Statement i
  | .nop ch => Laws.EncodingFields.nop ch
  | .set ch => Laws.EncodingFields.set ch
  | .clr ch => Laws.EncodingFields.clr ch
  | .setr ch => Laws.EncodingFields.setr ch
  | .clrr ch => Laws.EncodingFields.clrr ch
  | .get ch => Laws.EncodingFields.get ch
  | .length ch => Laws.EncodingFields.length ch
  | .chreset ch => Laws.EncodingFields.chreset ch
  | .nfe ch => Laws.EncodingFields.nfe ch
  | .nre ch => Laws.EncodingFields.nre ch
  | .nmp ch => Laws.EncodingFields.nmp ch
  | .blbegin ch => Laws.EncodingFields.blbegin ch
  | .bldata ch => Laws.EncodingFields.bldata ch
  | .decode ch => Laws.EncodingFields.decode ch
  | .decUart ch => Laws.EncodingFields.decUart ch
  | .decI2c ch => Laws.EncodingFields.decI2c ch
  | .decSpi ch => Laws.EncodingFields.decSpi ch
  | .decClk ch => Laws.EncodingFields.decClk ch
  | .decOw ch => Laws.EncodingFields.decOw ch
  | .clkfreq ch => Laws.EncodingFields.clkfreq ch
  | .clktol ch => Laws.EncodingFields.clktol ch
  | .owByte ch => Laws.EncodingFields.owByte ch
  | .owPres ch => Laws.EncodingFields.owPres ch
  | .owRst ch => Laws.EncodingFields.owRst ch

@[simp] theorem opcodeField_encode (i : Instr) : opcodeField (encode i) = opcodeOf i := (encode_fields i).1

@[simp] theorem chField_encode (i : Instr) : chField (encode i) = i.ch := (encode_fields i).2.1

@[simp] theorem reservedField_encode (i : Instr) : reservedField (encode i) = 0 := (encode_fields i).2.2

/-- `enc(op, c)` as a number (30_encoding.md R200): the value of its fields, the reserved one being 0. -/
theorem encode_toNat (i : Instr) : (encode i).toNat = (opcodeOf i).toNat + 256 * i.ch.toNat := by
  have hfields := toNat_eq_fields (encode i)
  simpa using hfields

/-- 30_encoding.md R206 point 2: the reserved bits are checked before the opcode and the option. -/
theorem decode_of_reservedField_ne_zero (hasOw : Bool) {w : Word} (h : reservedField w ≠ 0) :
    decode hasOw w = .error .reservedBits := if_neg h

/-- Settles O2: the fields of an encoded command give its value, and the decoder's first check refuses other words. -/
theorem commandWordLayout : Obligations.CommandWordLayout := by
  unfold Obligations.CommandWordLayout
  refine ⟨fun i => ⟨opcodeField_encode i, chField_encode i, reservedField_encode i, encode_toNat i⟩, ?_⟩
  rintro hasOw w hreserved ⟨i, hi⟩
  rw [decode_of_reservedField_ne_zero hasOw hreserved] at hi
  cases hi

end Sys2Proof
end

section
/-! The decoder's checks, the words that fail them (30_encoding.md R206), O10 and O20. -/

namespace Sys2Proof.Machine

/-! ## Words and commands -/

theorem toNat_opcodeField (w : Word) : (opcodeField w).toNat = w.toNat % 256 := by
  rw [opcodeField, BitVec.extractLsb'_toNat, Nat.shiftRight_zero]

theorem reservedField_eq_zero_iff {w : Word} : reservedField w = 0 ↔ w.toNat < 4096 := by
  have hfields := toNat_eq_fields w
  rw [← BitVec.toNat_inj, show (0 : BitVec 20).toNat = 0 from rfl]
  omega

/-- The decoder's three checks (30_encoding.md R206). -/
theorem decode_eq_ok_iff {hasOw : Bool} {w : Word} {i : Instr} :
    decode hasOw w = .ok i ↔
      reservedField w = 0 ∧ opcodeMap (opcodeField w) (chField w) = some i ∧ i.wf hasOw = true := by
  by_cases hreserved : reservedField w = 0
  case neg => simp only [decode_of_reservedField_ne_zero hasOw hreserved, hreserved, reduceCtorEq, false_and]
  rw [decode, if_pos hreserved]
  cases opcodeMap (opcodeField w) (chField w) with
  | none => simp only [reduceCtorEq, false_and, and_false]
  | some j =>
    by_cases hwf : j.wf hasOw = true
    · simp only [if_pos hwf, hreserved, Except.ok.injEq, Option.some.injEq, true_and]
      exact ⟨fun h => ⟨h, h ▸ hwf⟩, And.left⟩
    · simp only [if_neg hwf, hreserved, reduceCtorEq, Option.some.injEq, true_and, false_iff]
      exact fun ⟨hj, hi⟩ => hwf (hj ▸ hi)

/-- The opcode map answers only the command of that row of 30_encoding.md R203. -/
theorem opcodeOf_of_opcodeMap {op : Byte} {ch : BitVec 4} {i : Instr} (h : opcodeMap op ch = some i) :
    op = opcodeOf i := by
  apply BitVec.eq_of_toNat_eq
  unfold opcodeMap at h
  split at h <;> cases h
  all_goals assumption

/-- A word that is a command of the build has that command's opcode in its low byte and nothing above CH. -/
theorem toNat_of_decode {hasOw : Bool} {w : Word} {i : Instr} (h : decode hasOw w = .ok i) :
    w.toNat % 256 = (opcodeOf i).toNat ∧ w.toNat < 4096 ∧ i.wf hasOw = true := by
  obtain ⟨hreserved, hmap, hwf⟩ := decode_eq_ok_iff.1 h
  exact ⟨opcodeOf_of_opcodeMap hmap ▸ (toNat_opcodeField w).symm, reservedField_eq_zero_iff.1 hreserved, hwf⟩

/-- One direction of R206: no command of a build has an opcode that is illegal there. -/
theorem not_illegalWord_of_decode {hasOw : Bool} {w : Word} {i : Instr} (h : decode hasOw w = .ok i) :
    ¬ IllegalWord hasOw w := by
  obtain ⟨hop, hlt, hwf⟩ := toNat_of_decode h
  have hge : ¬ 4096 ≤ w.toNat := by omega
  unfold IllegalWord
  rw [hop]
  revert hwf
  cases i <;> simp [opcodeOf, Instr.wf, Instr.isOw, hge]

theorem decode_of_illegalWord {hasOw : Bool} {w : Word} (h : IllegalWord hasOw w) :
    ∃ x, decode hasOw w = .error x := by
  cases hd : decode hasOw w with
  | error x => exact ⟨x, rfl⟩
  | ok i => exact absurd h (not_illegalWord_of_decode hd)

/-- Opcode 0 with no reserved bit set is NOP, in every build and for every CH. -/
theorem decode_nop {hasOw : Bool} {w : Word} (hop : w.toNat % 256 = 0) (hlt : w.toNat < 4096) :
    decode hasOw w = .ok (.nop (chField w)) := by
  have hopcode : opcodeField w = 0 := BitVec.eq_of_toNat_eq ((toNat_opcodeField w).trans hop)
  refine decode_eq_ok_iff.2 ⟨reservedField_eq_zero_iff.2 hlt, by rw [hopcode]; rfl, ?_⟩
  simp only [Instr.wf, Instr.isOw, Bool.not_false, Bool.or_true]

/-! ## The obligations -/

/-- Settles O10: the CMD address is the CMD register, whose write issues when idle and sets COLL when busy. -/
theorem commandWriteIssues : Obligations.CommandWriteIssues := by
  unfold Obligations.CommandWriteIssues
  intro s w rest hnext
  have hwrite : step s = .next ((State.whenIdle { s with inputs := rest }
      (State.issue { s with inputs := rest } w)).respond .done) := step_write hnext
  rw [hwrite]
  refine ⟨fun hidle => ?_, fun hbusy => ?_⟩
  · rw [State.whenIdle, if_neg (by simp only [hidle, Bool.false_eq_true, not_false_eq_true])]; rfl
  · rw [State.whenIdle, if_pos hbusy]; rfl

/-- Settles O20: opcode 0 is NOP's row of the decoder, and NOP is a completion with no result. -/
theorem nopOnlyCompletes : Obligations.NopOnlyCompletes := by
  unfold Obligations.NopOnlyCompletes
  refine ⟨rfl, fun ch => encode_toNat (.nop ch), fun hasOw w hop => ⟨fun hlt => ?_, fun hge => ?_⟩, fun s ch => ?_⟩
  · exact ⟨chField w, decode_nop hop hlt⟩
  · exact .inr (.inr (.inl hge))
  · exact complete_none s

end Sys2Proof.Machine
end

section
/-! O11: one lemma per check of 40_command_cycle.md R252 says which error it decides, and how a body ends once the checks
have passed (R253). -/

namespace Sys2Proof.Machine

/-! ## How a body ends -/

/-- A body ends with no error, or with an error that no check of 40_command_cycle.md R252 finds (R253). -/
def BodyEnds (r : Result) : Prop :=
  ∃ t, r = .next t ∧ (t.status.err = .ok ∨ t.status.err = .etokovf ∨ t.status.err = .eowambig)

theorem bodyEnds_complete (s : State) (r : Results) : BodyEnds (complete s r) := ⟨_, rfl, .inl rfl⟩

theorem bodyEnds_abort_etokovf (s : State) : BodyEnds (abort s .etokovf) := ⟨_, rfl, .inr (.inl rfl)⟩

theorem bodyEnds_abort_eowambig (s : State) : BodyEnds (abort s .eowambig) := ⟨_, rfl, .inr (.inr rfl)⟩

theorem bodyEnds_emitAll (low : Bool) (c : Chan) (ts : List Emit) (s : State) :
    BodyEnds (endDecode low (State.emitAll c ts s)) := by
  obtain ⟨us, _, h | h⟩ := emitAll_cases c ts s <;> rw [h]
  · exact bodyEnds_complete _ _
  · exact bodyEnds_abort_etokovf _

theorem bodyEnds_emitFrames (low : Bool) (c : Chan) (fs : List (List Emit)) (s : State) :
    BodyEnds (endDecode low (State.emitFrames c fs s)) := by
  obtain ⟨us, _, h | h⟩ := emitFrames_cases c fs s <;> rw [h]
  · exact bodyEnds_complete _ _
  · exact bodyEnds_abort_etokovf _

/-! ## What a chain of checks decides -/

/-- No check is left. -/
def noCheck (_ : ErrCode) : Prop := False

/-- A check that raises `e₀` when `bad`, and the `later` ones, of which the first that fails counts. -/
def checkThen (bad : Prop) (e₀ : ErrCode) (later : ErrCode → Prop) (e : ErrCode) : Prop :=
  (bad ∧ e = e₀) ∨ (¬ bad ∧ later e)

/-- `r` is the abort with the code of the check that fails first, and with none failing, an end of the body. -/
def Decides (s : State) (failed : ErrCode → Prop) (r : Result) : Prop :=
  (∀ e, failed e → r = .next (s.aborted e)) ∧ ((¬ ∃ e, failed e) → BodyEnds r)

theorem Decides.congr {s : State} {f g : ErrCode → Prop} {r : Result} (h : Decides s f r) (hfg : ∀ e, g e ↔ f e) :
    Decides s g r := by
  rwa [show g = f from funext fun e => propext (hfg e)]

theorem decides_abort {s : State} (e : ErrCode) : Decides s (· = e) (.next (s.aborted e)) :=
  ⟨fun _ he => by rw [he], fun h => absurd ⟨e, rfl⟩ h⟩

theorem decides_noCheck {s : State} {r : Result} (h : BodyEnds r) : Decides s noCheck r :=
  ⟨fun _ he => he.elim, fun _ => h⟩

theorem decides_checkThen {s : State} {bad : Prop} {e₀ : ErrCode} {later : ErrCode → Prop} {r : Result}
    (hbad : bad → r = .next (s.aborted e₀)) (hpass : ¬ bad → Decides s later r) :
    Decides s (checkThen bad e₀ later) r := by
  by_cases hb : bad
  · rw [hbad hb]
    exact (decides_abort e₀).congr (by simp only [checkThen, hb, true_and, not_true_eq_false, false_and, or_false,
      implies_true])
  · exact (hpass hb).congr (by simp only [checkThen, hb, false_and, not_false_eq_true, true_and, false_or, implies_true])

/-! ## Checks 4 to 6 -/

theorem decides_withRate {s : State} {c : Chan} {later : ErrCode → Prop} {k : Result} (h : Decides s later k) :
    Decides s (checkThen (badRate (s.chan c).rate) .ecfg later) (withRate c s k) :=
  decides_checkThen (fun hb => withRate_fail hb k) (fun hb => by rwa [withRate_pass hb])

theorem decides_withClock {s : State} {c : Chan} {later : ErrCode → Prop} {k : Chan → Result}
    (h : ∀ d, Decides s later (k d)) :
    Decides s (checkThen (8 ≤ (s.chan c).cfg.clksrc.toNat) .enoclk later) (withClock c s k) :=
  decides_checkThen (fun hb => withClock_fail hb k)
    (fun hb => by rw [withClock_pass (d := ⟨_, Nat.not_le.1 hb⟩) rfl]; exact h _)

theorem decides_withIndex {s : State} {i : Nat} {later : ErrCode → Prop} {k : Result} (h : Decides s later k) :
    Decides s (checkThen (s.params.cap ≤ i) .eidx later) (withIndex i s k) :=
  decides_checkThen (fun hb => by rw [withIndex_eq, if_neg (Nat.not_lt.2 hb)])
    (fun hb => by rwa [withIndex_eq, if_pos (Nat.not_le.1 hb)])

theorem decides_withRange {s : State} {lo hi : Nat} {later : ErrCode → Prop} {k : Result} (h : Decides s later k) :
    Decides s (checkThen (hi < lo ∨ s.params.cap ≤ hi) .eidx later) (withRange lo hi s k) :=
  decides_checkThen (fun hb => by rw [withRange_eq, if_neg (by omega)])
    (fun hb => by rwa [withRange_eq, if_pos (by omega)])

/-! ## The decoders -/

/-- The checks of a command on channel `c` that needs only RATE. -/
def rateChecks (s : State) (c : Chan) : ErrCode → Prop := checkThen (badRate (s.chan c).rate) .ecfg noCheck

/-- The checks of the UART decode of channel `c`. -/
def uartChecks (s : State) (c : Chan) : ErrCode → Prop := checkThen (uartCfgBad s c) .ecfg noCheck

/-- The checks of the I2C and SPI decodes of channel `c`. -/
def clockedChecks (s : State) (c : Chan) : ErrCode → Prop :=
  checkThen (badRate (s.chan c).rate) .ecfg (checkThen (8 ≤ (s.chan c).cfg.clksrc.toNat) .enoclk noCheck)

/-- The checks of DECODE on channel `c`, by its PROTO. -/
def tagChecks (s : State) (c : Chan) : ErrCode → Prop :=
  match (s.chan c).cfg.proto.toNat with
  | 1 => uartChecks s c
  | 2 => clockedChecks s c
  | 3 => clockedChecks s c
  | 4 => noCheck
  | 5 => (· = .enotimpl)
  | _ => (· = .ecfg)

theorem uartLegal_iff (s : State) (c : Chan) : s.uartLegal c = true ↔ ¬ uartCfgBad s c := by
  simp only [State.uartLegal, uartCfgBad, Bool.and_eq_true, Bool.not_eq_true', beq_eq_false_iff_ne, legalRate_iff,
    ne_eq, not_or, and_assoc]

theorem decides_rate {s : State} {c : Chan} {k : Result} (h : BodyEnds k) :
    Decides s (rateChecks s c) (withRate c s k) := decides_withRate (decides_noCheck h)

theorem decides_decodeUart (s : State) (c : Chan) : Decides s (uartChecks s c) (decodeUart c s) := by
  refine decides_checkThen (fun hbad => ?_) (fun hpass => decides_noCheck ?_)
  · rw [decodeUart, if_neg (fun h => (uartLegal_iff s c).1 h hbad)]; rfl
  · rw [decodeUart, if_pos ((uartLegal_iff s c).2 hpass)]; exact bodyEnds_emitFrames _ _ _ _

theorem decides_decodeI2c (s : State) (c : Chan) : Decides s (clockedChecks s c) (decodeI2c c s) :=
  decides_withRate (decides_withClock fun _ => decides_noCheck (bodyEnds_emitAll _ _ _ _))

theorem decides_decodeSpi (s : State) (c : Chan) : Decides s (clockedChecks s c) (decodeSpi c s) :=
  decides_withRate (decides_withClock fun _ => decides_noCheck (bodyEnds_emitAll _ _ _ _))

theorem decides_decodeByTag (s : State) (c : Chan) : Decides s (tagChecks s c) (decodeByTag c s) := by
  unfold tagChecks decodeByTag
  match (s.chan c).cfg.proto.toNat with
  | 0 => exact decides_abort .ecfg
  | 1 => exact decides_decodeUart s c
  | 2 => exact decides_decodeI2c s c
  | 3 => exact decides_decodeSpi s c
  | 4 => exact decides_noCheck (bodyEnds_complete _ _)
  | 5 => exact decides_abort .enotimpl
  | _ + 6 => exact decides_abort .ecfg

/-! ## The first failing check of each command -/

/-- The checks 3 to 6 of 40_command_cycle.md R252 that each command makes, in their order, those of channel `c` for a
command that uses CH. -/
def checksOn (i : Instr) (s : State) (c : Chan) : ErrCode → Prop :=
  match i with
  | .set _ | .clr _ => checkThen (s.params.cap ≤ s.engine.a0.toNat) .eidx noCheck
  | .setr _ | .clrr _ =>
    checkThen (s.engine.a1.toNat < s.engine.a0.toNat ∨ s.params.cap ≤ s.engine.a1.toNat) .eidx noCheck
  | .decode _ => tagChecks s c
  | .decUart _ => uartChecks s c
  | .decI2c _ | .decSpi _ => clockedChecks s c
  | .decOw _ => (· = .enotimpl)
  | .clkfreq _ | .clktol _ | .owByte _ | .owPres _ | .owRst _ => rateChecks s c
  | .bldata _ => checkThen (s.params.cap ≤ s.blptr.toNat) .eidx noCheck
  | .nop _ | .get _ | .length _ | .chreset _ | .nfe _ | .nre _ | .nmp _ | .blbegin _ | .decClk _ => noCheck

/-- What `FirstFailed` says of a command on channel `c` once checks 1 and 2 have passed. -/
def LaterFailed (i : Instr) (s : State) (c : Chan) (e : ErrCode) : Prop :=
  ((notImplemented i s c ∧ e = .enotimpl)
    ∨ (¬ notImplemented i s c ∧ cfgBad i s c ∧ e = .ecfg)
    ∨ (¬ notImplemented i s c ∧ ¬ cfgBad i s c ∧ clockMissing i s c ∧ e = .enoclk))
  ∨ (indexBad i s ∧ e = .eidx)

/-- R252 lists the checks of DECODE as conditions on PROTO; here they stand one value of PROTO at a time. -/
theorem laterFailed_decode_iff (ch : BitVec 4) (s : State) (c : Chan) (e : ErrCode) :
    LaterFailed (.decode ch) s c e ↔ tagChecks s c e := by
  have hcases : ∀ p : BitVec 3, p = 0 ∨ p = 1 ∨ p = 2 ∨ p = 3 ∨ p = 4 ∨ p = 5 ∨ p = 6 ∨ p = 7 := by decide
  unfold LaterFailed tagChecks notImplemented cfgBad clockMissing indexBad
  obtain h | h | h | h | h | h | h | h := hcases (s.chan c).cfg.proto <;>
    simp [h, uartChecks, clockedChecks, checkThen, noCheck]

/-- R252 lists, for each check, the commands that make it; `checksOn` lists, for each command, its checks. -/
theorem laterFailed_iff_checksOn (i : Instr) (s : State) (c : Chan) (e : ErrCode) :
    LaterFailed i s c e ↔ checksOn i s c e := by
  cases i
  case decode ch => exact laterFailed_decode_iff ch s c e
  all_goals
    simp [LaterFailed, checksOn, notImplemented, cfgBad, clockMissing, indexBad, rateChecks, uartChecks, clockedChecks,
      checkThen, noCheck]

theorem firstFailed_of_optionAbsent {i : Instr} {s : State} (how : i.isOw = true) (hno : s.params.hasOw = false)
    (e : ErrCode) : FirstFailed i s e ↔ e = .ebadop := by
  rw [FirstFailed, if_pos ⟨how, hno⟩]

theorem firstFailed_of_badChannel {i : Instr} {s : State} (hoption : ¬ (i.isOw = true ∧ s.params.hasOw = false))
    (huse : i.usesCh = true) (hch : 8 ≤ i.ch.toNat) (e : ErrCode) : FirstFailed i s e ↔ e = .ebadch := by
  rw [FirstFailed, if_neg hoption, if_pos ⟨huse, hch⟩]

theorem firstFailed_of_channel {i : Instr} {s : State} {c : Chan} (hoption : ¬ (i.isOw = true ∧ s.params.hasOw = false))
    (huse : i.usesCh = true) (hch : i.ch.toNat = c.val) (e : ErrCode) : FirstFailed i s e ↔ checksOn i s c e := by
  have hchannel : ¬ (i.usesCh = true ∧ 8 ≤ i.ch.toNat) := fun h => absurd h.2 (by omega)
  have honly : ∀ d : Chan, c.val = d.val ↔ d = c := fun d => ⟨fun h => (Fin.ext h).symm, fun h => h ▸ rfl⟩
  rw [FirstFailed, if_neg hoption, if_neg hchannel, ← laterFailed_iff_checksOn]
  simp only [huse, hch, honly, true_and, exists_eq_left, LaterFailed]

theorem firstFailed_of_noChannel {i : Instr} {s : State} (how : i.isOw = false) (huse : i.usesCh = false) (e : ErrCode) :
    FirstFailed i s e ↔ indexBad i s ∧ e = .eidx := by
  simp only [FirstFailed, how, huse, Bool.false_eq_true, false_and, if_false, exists_const, false_or]

/-! ## Checks 1 and 2 -/

theorem decides_withOw {i : Instr} {s : State} {k : Result} (how : i.isOw = true)
    (h : s.params.hasOw = true → Decides s (FirstFailed i s) k) : Decides s (FirstFailed i s) (withOw s k) := by
  rw [withOw_eq]
  split
  · next hhas => exact h hhas
  · next hno => exact (decides_abort .ebadop).congr (firstFailed_of_optionAbsent how (Bool.not_eq_true _ ▸ hno))

theorem decides_withChannel {i : Instr} {s : State} {k : Chan → Result}
    (hoption : ¬ (i.isOw = true ∧ s.params.hasOw = false)) (huse : i.usesCh = true)
    (h : ∀ c, Decides s (checksOn i s c) (k c)) : Decides s (FirstFailed i s) (withChannel i.ch s k) := by
  obtain ⟨c, hch, hk⟩ | ⟨hch, hk⟩ := withChannel_cases i.ch s k <;> rw [hk]
  · exact (h c).congr (firstFailed_of_channel hoption huse hch)
  · exact (decides_abort .ebadch).congr (firstFailed_of_badChannel hoption huse hch)

/-! ## Every command -/

/-- A command of the base set that acts on its channel. -/
theorem decides_base {i : Instr} {s : State} {k : Chan → Result} (how : i.isOw = false) (huse : i.usesCh = true)
    (h : ∀ c, Decides s (checksOn i s c) (k c)) : Decides s (FirstFailed i s) (withChannel i.ch s k) :=
  decides_withChannel (fun hopt => Bool.false_ne_true (how.symm.trans hopt.1)) huse h

/-- A command of option OW: each acts on a channel and checks RATE. -/
theorem decides_ow {i : Instr} {s : State} {k : Chan → Result} (how : i.isOw = true) (huse : i.usesCh = true)
    (h : ∀ c, Decides s (checksOn i s c) (k c)) :
    Decides s (FirstFailed i s) (withOw s (withChannel i.ch s k)) :=
  decides_withOw how fun hhas => decides_withChannel (fun hopt => Bool.false_ne_true (hopt.2.symm.trans hhas)) huse h

/-- A command that uses no channel and makes no check. -/
theorem decides_unchecked {i : Instr} {s : State} {r : Result} (how : i.isOw = false) (huse : i.usesCh = false)
    (hindex : ¬ indexBad i s) (h : BodyEnds r) : Decides s (FirstFailed i s) r :=
  (decides_noCheck h).congr fun e => by
    simp only [firstFailed_of_noChannel how huse, hindex, false_and, noCheck]

/-- The checks of R252 decide the outcome of every command. -/
theorem exec_decides (i : Instr) (s : State) : Decides s (FirstFailed i s) (exec i s) := by
  have completes (x : State) (r : Results) : Decides s noCheck (complete x r) := decides_noCheck (bodyEnds_complete x r)
  cases i with
  | nop ch => exact decides_unchecked rfl rfl (by simp [indexBad]) (bodyEnds_complete _ _)
  | set ch => exact decides_base rfl rfl fun _ => decides_withIndex (completes _ _)
  | clr ch => exact decides_base rfl rfl fun _ => decides_withIndex (completes _ _)
  | setr ch => exact decides_base rfl rfl fun _ => decides_withRange (completes _ _)
  | clrr ch => exact decides_base rfl rfl fun _ => decides_withRange (completes _ _)
  | get ch => exact decides_base rfl rfl fun _ => completes _ _
  | length ch => exact decides_base rfl rfl fun _ => completes _ _
  | chreset ch => exact decides_base rfl rfl fun _ => completes _ _
  | nfe ch => exact decides_base rfl rfl fun _ => completes _ _
  | nre ch => exact decides_base rfl rfl fun _ => completes _ _
  | nmp ch => exact decides_base rfl rfl fun _ => completes _ _
  | blbegin ch => exact decides_unchecked rfl rfl (by simp [indexBad]) (bodyEnds_complete _ _)
  | bldata ch =>
    refine (decides_withIndex (i := s.blptr.toNat) (completes _ _)).congr fun e => ?_
    rw [firstFailed_of_noChannel rfl rfl]
    simp [indexBad, checkThen, noCheck]
  | decode ch => exact decides_base rfl rfl (decides_decodeByTag s)
  | decUart ch => exact decides_base rfl rfl (decides_decodeUart s)
  | decI2c ch => exact decides_base rfl rfl (decides_decodeI2c s)
  | decSpi ch => exact decides_base rfl rfl (decides_decodeSpi s)
  | decClk ch => exact decides_base rfl rfl fun _ => completes _ _
  | decOw ch => exact decides_base rfl rfl fun _ => decides_abort .enotimpl
  | clkfreq ch =>
    refine decides_base rfl rfl fun c => decides_rate ?_
    split <;> exact bodyEnds_complete _ _
  | clktol ch => exact decides_base rfl rfl fun _ => decides_rate (bodyEnds_complete _ _)
  | owByte ch =>
    refine decides_ow rfl rfl fun c => decides_rate ?_
    split
    · exact bodyEnds_complete _ _
    · exact bodyEnds_complete _ _
    · exact bodyEnds_abort_eowambig s
  | owPres ch => exact decides_ow rfl rfl fun _ => decides_rate (bodyEnds_complete _ _)
  | owRst ch => exact decides_ow rfl rfl fun _ => decides_rate (bodyEnds_complete _ _)

/-! ## The obligation -/

theorem engineTurn_of_illegalWord {s : State} (hbusy : s.status.busy = true)
    (h : IllegalWord s.params.hasOw s.engine.cw) : engineTurn s = .next (s.aborted .ebadop) := by
  obtain ⟨x, hx⟩ := decode_of_illegalWord h
  simp only [engineTurn, if_pos hbusy, hx, execIllegal, abort_eq]

/-- Settles O11: an illegal word is refused by the decoder, and `exec_decides` gives the rest. -/
theorem checksInTheirOrder : Obligations.ChecksInTheirOrder := by
  unfold Obligations.ChecksInTheirOrder
  refine ⟨fun s hrst hinputs hbusy hillegal => ?_, fun i s => (exec_decides i s).1, fun i s => (exec_decides i s).2⟩
  rw [step_last hrst hinputs, engineTurn_of_illegalWord hbusy hillegal]

end Sys2Proof.Machine
end

section
/-! O22 to O24, O26, O28 to O30: one equation per sample buffer command (41_sample_buffer.md R286 to R297) says in which
state it ends, and the laws of the sample store and of the searches say what that state holds. -/

namespace Sys2Proof.Machine

/-! ## The channel check and the operands -/

/-- Check 2 is the first that a command of the base set can fail, so a CH that names no channel decides it. -/
theorem checksChannel_of_base {i : BitVec 4 → Instr} (how : ∀ ch, (i ch).isOw = false := by intro; rfl)
    (huse : ∀ ch, (i ch).usesCh = true := by intro; rfl) (hfield : ∀ ch, (i ch).ch = ch := by intro; rfl) :
    ChecksChannel i := by
  intro s ch _ hch
  have hoption : ¬ ((i ch).isOw = true ∧ s.params.hasOw = false) := fun h => Bool.false_ne_true ((how ch).symm.trans h.1)
  have hbad : 8 ≤ (i ch).ch.toNat := (hfield ch).symm ▸ hch
  exact (exec_decides (i ch) s).1 .ebadch ((firstFailed_of_badChannel hoption (huse ch) hbad _).2 rfl)

/-- The bits of operand kind byte are the low eight of the word (30_encoding.md R204). -/
theorem getLsbD_byteOperand (w : Word) (d : Chan) : (byteOperand w).getLsbD d = w.getLsbD d := by
  simp only [byteOperand, BitVec.getLsbD_extractLsb', d.isLt, decide_true, Bool.true_and, Nat.zero_add]

/-! ## SET, CLR, SETR and CLRR -/

theorem exec_setOrClr {ch : BitVec 4} {c : Chan} (hc : ch.toNat = c.val) (v : Bool) (s : State) :
    exec (if v then .set ch else .clr ch) s =
      if s.engine.a0.toNat < s.params.cap then .next ((s.wr c s.engine.a0.toNat v).completed false false)
      else .next (s.aborted .eidx) := by
  cases v with
  | true => exact withChannel_pass hc s _
  | false => exact withChannel_pass hc s _

theorem exec_setrOrClrr {ch : BitVec 4} {c : Chan} (hc : ch.toNat = c.val) (v : Bool) (s : State) :
    exec (if v then .setr ch else .clrr ch) s =
      if s.engine.a0.toNat ≤ s.engine.a1.toNat ∧ s.engine.a1.toNat < s.params.cap then
        .next ((s.wrRange c s.engine.a0.toNat s.engine.a1.toNat v).completed false false)
      else .next (s.aborted .eidx) := by
  cases v with
  | true => exact withChannel_pass hc s _
  | false => exact withChannel_pass hc s _

/-- Settles O22: the state is the one after `wr`, whose samples and channels its laws give. -/
theorem setAndClrWriteOneSample : Obligations.SetAndClrWriteOneSample := by
  unfold Obligations.SetAndClrWriteOneSample
  refine ⟨fun ch => encode_toNat (.set ch), fun ch => encode_toNat (.clr ch),
    checksChannel_of_base, checksChannel_of_base, fun s ch c v hc => ?_⟩
  rw [exec_setOrClr hc]
  refine ⟨fun hin => ?_, fun hout => if_neg (Nat.not_lt.2 hout)⟩
  exact ⟨(s.wr c s.engine.a0.toNat v).completed false false, if_pos hin, rfl,
    fun d i => State.bit_wr s c d _ i v, fun d => State.chan_wr s c d _ v⟩

/-- Settles O23: as O22, by the laws of the ranged write. -/
theorem setrAndClrrWriteARange : Obligations.SetrAndClrrWriteARange := by
  unfold Obligations.SetrAndClrrWriteARange
  refine ⟨fun ch => encode_toNat (.setr ch), fun ch => encode_toNat (.clrr ch),
    checksChannel_of_base, checksChannel_of_base, fun s ch c v hc => ?_⟩
  rw [exec_setrOrClrr hc]
  refine ⟨fun hle hin => ?_, fun hout => if_neg (by omega)⟩
  exact ⟨(s.wrRange c s.engine.a0.toNat s.engine.a1.toNat v).completed false false, if_pos ⟨hle, hin⟩, rfl,
    fun d i => State.bit_wrRange s c d _ _ i v hle, fun d => State.chan_wrRange s c d _ _ v⟩

/-! ## GET and LENGTH -/

/-- `get` as the number that RES0 takes. -/
theorem storeNat_get (s : State) (c : Chan) (i : Nat) :
    storeNat (s.get c i).toNat = if i < s.params.cap ∧ s.bit c i = true then 1 else 0 := by
  have hget : (i < s.params.cap ∧ s.bit c i = true) ↔ s.get c i = true := by
    simp only [State.get, Bool.and_eq_true, decide_eq_true_eq]
  rw [if_congr hget rfl rfl]
  cases s.get c i <;> rfl

theorem exec_get {ch : BitVec 4} {c : Chan} (hc : ch.toNat = c.val) (s : State) :
    exec (.get ch) s = .next { s.completed false false with
      res0 := if s.engine.a0.toNat < s.params.cap ∧ s.bit c s.engine.a0.toNat = true then 1 else 0 } := by
  rw [← storeNat_get]
  exact withChannel_pass hc s _

theorem exec_length {ch : BitVec 4} {c : Chan} (hc : ch.toNat = c.val) (s : State) :
    exec (.length ch) s = .next { s.completed false false with res0 := (s.chan c).len } :=
  withChannel_pass hc s _

/-- Settles O24: above LEN the invariant's `quiet` clause gives the sample. -/
theorem getAndLengthReadTheChannel : Obligations.GetAndLengthReadTheChannel := by
  unfold Obligations.GetAndLengthReadTheChannel
  refine ⟨fun ch => encode_toNat (.get ch), fun ch => encode_toNat (.length ch),
    checksChannel_of_base, checksChannel_of_base, fun s ch c hc => ?_⟩
  refine ⟨exec_get hc s, fun hinv habove => ?_, exec_length hc s⟩
  have hquiet : s.bit c s.engine.a0.toNat = false := hinv.quiet c _ habove
  rw [exec_get hc, if_neg (fun h => Bool.false_ne_true (hquiet.symm.trans h.2))]

/-! ## NFE and NRE -/

/-- The search of NFE (`falling`) or of NRE. -/
def State.nextEdge (s : State) (c : Chan) (falling : Bool) (start : Int) : Option Nat :=
  if falling then s.nfe c start else s.nre c start

theorem nextEdge_eq_some {s : State} {c : Chan} {falling : Bool} {start : Int} {j : Nat} :
    s.nextEdge c falling start = some j ↔ 0 ≤ start ∧ EdgeFound s c falling start.toNat j := by
  cases falling with
  | true => exact nfe_eq_some
  | false => exact nre_eq_some

theorem nextEdge_eq_none {s : State} {c : Chan} {falling : Bool} {start : Int} :
    s.nextEdge c falling start = none ↔ ¬ (0 ≤ start ∧ ∃ j, EdgeFound s c falling start.toNat j) := by
  simp only [Option.eq_none_iff_forall_ne_some, ne_eq, nextEdge_eq_some, not_and, not_exists]
  exact forall_comm

theorem exec_nfeOrNre {ch : BitVec 4} {c : Chan} (hc : ch.toNat = c.val) {falling : Bool} {s : State} {j : Option Nat}
    (hj : s.nextEdge c falling s.engine.a0.toInt = j) :
    exec (if falling then .nfe ch else .nre ch) s
      = .next { s.completed j.isSome false with res0 := indexResult j } := by
  subst hj
  cases falling with
  | true => exact withChannel_pass hc s _
  | false => exact withChannel_pass hc s _

/-- Settles O26: the search's two outcomes are the two clauses. -/
theorem edgeCommandsFindTheNextEdge : Obligations.EdgeCommandsFindTheNextEdge := by
  unfold Obligations.EdgeCommandsFindTheNextEdge
  refine ⟨fun ch => encode_toNat (.nfe ch), fun ch => encode_toNat (.nre ch),
    checksChannel_of_base, checksChannel_of_base, fun s ch c falling hc => ?_⟩
  refine ⟨fun j hstart hfound => ?_, fun hnone => ?_⟩
  · exact exec_nfeOrNre hc (nextEdge_eq_some.2 ⟨hstart, hfound⟩)
  · exact exec_nfeOrNre hc (nextEdge_eq_none.2 (not_and_or.2 (hnone.imp_left Int.not_le.2)))

/-! ## NMP -/

theorem pulse_eq_none {s : State} {c : Chan} {start : Int} :
    s.pulse c start = none ↔ ¬ (0 ≤ start ∧ ∃ r f, PulseFound s c start.toNat r f) := by
  rw [Option.eq_none_iff_forall_ne_some]
  refine ⟨fun hnone ⟨hstart, r, f, hfound⟩ => ?_, fun hnone p hp => ?_⟩
  · exact hnone ⟨r, f, r + (f - r) / 2⟩ (pulse_eq_some.2 ⟨hstart, hfound, rfl⟩)
  · obtain ⟨hstart, hfound, _⟩ := pulse_eq_some.1 hp
    exact hnone ⟨hstart, p.rise, p.fall, hfound⟩

theorem exec_nmp {ch : BitVec 4} {c : Chan} (hc : ch.toNat = c.val) {s : State} {p : Option Pulse}
    (hp : s.pulse c s.engine.a0.toInt = p) :
    exec (.nmp ch) s = .next { s.completed p.isSome false with
      res0 := indexResult (p.map Pulse.mid), res1 := indexResult (p.map Pulse.fall) } := by
  subst hp
  exact withChannel_pass hc s _

/-- Settles O28: the pulse search's two outcomes are the two clauses. -/
theorem nmpFindsThePulseMidpoint : Obligations.NmpFindsThePulseMidpoint := by
  unfold Obligations.NmpFindsThePulseMidpoint
  refine ⟨fun ch => encode_toNat (.nmp ch), checksChannel_of_base,
    fun s ch c hc => ⟨fun r f hstart hfound => ?_, fun hnone => ?_⟩⟩
  · exact exec_nmp hc (pulse_eq_some (p := ⟨r, f, r + (f - r) / 2⟩) |>.2 ⟨hstart, hfound, rfl⟩)
  · exact exec_nmp hc (pulse_eq_none.2 (not_and_or.2 (hnone.imp_left Int.not_le.2)))

/-! ## BLBEGIN and BLDATA -/

theorem exec_blbegin (ch : BitVec 4) (s : State) :
    exec (.blbegin ch) s
      = .next ((if s.engine.a0.getLsbD 0 = true then s else s.bulkReplace).completed false false) := rfl

theorem exec_bldata (ch : BitVec 4) (s : State) :
    exec (.bldata ch) s =
      if s.blptr.toNat < s.params.cap then
        .next (State.completed
          { s.bulkWrite s.blptr.toNat (byteOperand s.engine.a0) with blptr := storeNat (s.blptr.toNat + 1) } false false)
      else .next (s.aborted .eidx) := rfl

/-- Settles O29: append mode ends in the state itself, replace mode in the one after `bulkReplace`. -/
theorem blbeginReplacesOrAppends : Obligations.BlbeginReplacesOrAppends := by
  unfold Obligations.BlbeginReplacesOrAppends
  refine ⟨fun ch => encode_toNat (.blbegin ch), fun s ch => ?_⟩
  rw [exec_blbegin]
  refine ⟨fun happend => by rw [if_pos happend], fun hreplace => ?_⟩
  rw [if_neg (Bool.eq_false_iff.1 hreplace)]
  exact ⟨s.bulkReplace.completed false false, rfl, rfl, State.bit_bulkReplace s, State.chan_bulkReplace s⟩

/-- Settles O30: the state is the one after `bulkWrite` with BLPTR advanced, and bit d of the byte is bit d of the word. -/
theorem bldataWritesEveryChannel : Obligations.BldataWritesEveryChannel := by
  unfold Obligations.BldataWritesEveryChannel
  refine ⟨fun ch => encode_toNat (.bldata ch), fun s ch => ?_⟩
  rw [exec_bldata]
  refine ⟨fun hin => ?_, fun hout => if_neg (Nat.not_lt.2 hout)⟩
  refine ⟨_, if_pos hin, rfl, fun d i => ?_, State.chan_bulkWrite s _ (byteOperand s.engine.a0)⟩
  rw [← getLsbD_byteOperand]
  exact State.bit_bulkWrite s _ _ d i

end Sys2Proof.Machine
end

section
/-! The record of one `emit` (42_decode_common.md R331, 30_encoding.md R220) as numbers, O32, and the pass-through of
DEC.CLK, O21. -/

namespace Sys2Proof.Machine

/-! ## The words of a record -/

/-- A number that a word can hold is stored as it is (00_scope.md R12). -/
theorem toNat_storeNat {n : Nat} (h : n < 2 ^ 32) : (storeNat n).toNat = n := by
  rw [storeNat, BitVec.toNat_ofNat, Nat.mod_eq_of_lt h]

/-- Every KIND fits its eight bits (30_encoding.md R220, R221). -/
theorem Kind.code_lt (k : Kind) : k.code < 256 := by cases k <;> decide

/-- Word 0 of a record loses no bit of NBITS and VALUE within their bounds. -/
theorem Emit.toNat_record_word0 {e : Emit} (hnbits : e.nbits ≤ 8) (hvalue : e.value ≤ 511) :
    e.record.word0.toNat = e.kind.code + 256 * e.nbits + 65536 * e.value := by
  have hcode := e.kind.code_lt
  exact toNat_storeNat (by omega)

theorem Emit.toNat_record_word1 {e : Emit} (hfirst : e.first < 2 ^ 32) : e.record.word1.toNat = e.first :=
  toNat_storeNat hfirst

/-- END is the later of the two indices (42_decode_common.md R332). -/
theorem Emit.toNat_record_word2 {e : Emit} (hfirst : e.first < 2 ^ 32) (hlast : e.last < 2 ^ 32) :
    e.record.word2.toNat = max e.first e.last := by
  by_cases hbelow : e.last < e.first
  · rw [Emit.record, if_pos hbelow, toNat_storeNat hfirst, Nat.max_eq_left hbelow.le]
  · rw [Emit.record, if_neg hbelow, toNat_storeNat hlast, Nat.max_eq_right (Nat.not_lt.1 hbelow)]

/-! ## The fields of word 0 -/

theorem Token.kindCode_eq (t : Token) : t.kindCode = t.word0.toNat % 2 ^ 8 := by
  rw [Token.kindCode, BitVec.extractLsb'_toNat, Nat.shiftRight_zero]

theorem Token.nbits_eq (t : Token) : t.nbits = t.word0.toNat / 2 ^ 8 % 2 ^ 4 := by
  rw [Token.nbits, BitVec.extractLsb'_toNat, Nat.shiftRight_eq_div_pow]

theorem Token.value_eq (t : Token) : t.value = t.word0.toNat / 2 ^ 16 % 2 ^ 9 := by
  rw [Token.value, BitVec.extractLsb'_toNat, Nat.shiftRight_eq_div_pow]

/-- The fields of a record read back what was emitted. -/
theorem Emit.record_fields {e : Emit} (hnbits : e.nbits ≤ 8) (hvalue : e.value ≤ 511) :
    e.record.kindCode = e.kind.code ∧ e.record.nbits = e.nbits ∧ e.record.value = e.value := by
  have hcode := e.kind.code_lt
  rw [Token.kindCode_eq, Token.nbits_eq, Token.value_eq, Emit.toNat_record_word0 hnbits hvalue]
  refine ⟨?_, ?_, ?_⟩ <;> omega

/-! ## The obligations -/

/-- Settles O32: with room `emit` appends `Emit.record`, whose words and fields the lemmas above give. -/
theorem emitAppendsOneRecord : Obligations.EmitAppendsOneRecord := by
  unfold Obligations.EmitAppendsOneRecord
  intro s c e hnbits hvalue hfirst hlast
  rw [emit_eq]
  refine ⟨fun hroom => ?_, fun hfull => if_pos hfull.ge⟩
  obtain ⟨hkind, hbits, hval⟩ := Emit.record_fields hnbits hvalue
  exact ⟨e.record, if_neg (Nat.not_le.2 hroom), Emit.toNat_record_word0 hnbits hvalue, Emit.toNat_record_word1 hfirst,
    Emit.toNat_record_word2 hfirst hlast, rfl, hkind, hbits, hval, State.tokcnt_appendTokens_self s c [e.record]⟩

/-- Settles O21: past the channel check the body of DEC.CLK is a completion with no result on every channel. -/
theorem clockPassThroughOnlyCompletes : Obligations.ClockPassThroughOnlyCompletes := by
  unfold Obligations.ClockPassThroughOnlyCompletes
  refine ⟨fun ch => encode_toNat (.decClk ch), checksChannel_of_base, fun s ch hch => ?_⟩
  calc exec (.decClk ch) s
      = complete s Results.none := withChannel_pass (c := ⟨ch.toNat, hch⟩) rfl s _
    _ = .next (s.completed false false) := complete_none s

end Sys2Proof.Machine
end

section
/-! O44, O47 and O48: the checks of the 1-Wire commands, the bits that OW.BYTE reads, and the first pulse that OW.PRES
and OW.RST test (47_onewire.md R500 to R505). -/

namespace Sys2Proof.Machine

/-! ## Checks 1, 2 and 4 -/

theorem not_optionAbsent_of_wf {i : Instr} {hasOw : Bool} (hwf : i.wf hasOw = true) :
    ¬ (i.isOw = true ∧ hasOw = false) := by
  rintro ⟨how, rfl⟩
  rw [Instr.wf, how] at hwf
  exact Bool.false_ne_true hwf

/-- Check 1 decides a command of option OW in a build without the option. -/
theorem checksOption_of_ow {i : BitVec 4 → Instr} (how : ∀ ch, (i ch).isOw = true := by intro; rfl) :
    ChecksOption i := by
  intro s ch hno
  exact (exec_decides (i ch) s).1 .ebadop ((firstFailed_of_optionAbsent (how ch) hno _).2 rfl)

/-- Check 2 is the first that a command of the build can fail, so a CH that names no channel decides it. -/
theorem checksChannel_of_usesCh {i : BitVec 4 → Instr} (huse : ∀ ch, (i ch).usesCh = true := by intro; rfl)
    (hfield : ∀ ch, (i ch).ch = ch := by intro; rfl) : ChecksChannel i := by
  intro s ch hwf hch
  have hbad : 8 ≤ (i ch).ch.toNat := (hfield ch).symm ▸ hch
  have hfailed := firstFailed_of_badChannel (not_optionAbsent_of_wf hwf) (huse ch) hbad
  exact (exec_decides (i ch) s).1 .ebadch ((hfailed _).2 rfl)

/-- RATE is the one thing that a command with the checks `rateChecks` can fail on its channel. -/
theorem checksRate_of_rateChecks {i : BitVec 4 → Instr}
    (hchecks : ∀ ch s c, checksOn (i ch) s c = rateChecks s c := by intros; rfl)
    (huse : ∀ ch, (i ch).usesCh = true := by intro; rfl) (hfield : ∀ ch, (i ch).ch = ch := by intro; rfl) :
    ChecksRate i := by
  intro s ch c hwf hc hrate
  have hch : (i ch).ch.toNat = c.val := (hfield ch).symm ▸ hc
  refine (exec_decides (i ch) s).1 .ecfg ((firstFailed_of_channel (not_optionAbsent_of_wf hwf) (huse ch) hch _).2 ?_)
  rw [hchecks]
  exact .inl ⟨hrate, rfl⟩

/-- The body of an OW command once checks 1, 2 and 4 have passed. -/
theorem owChecks_pass {ch : BitVec 4} {c : Chan} {s : State} (how : s.params.hasOw = true) (hc : ch.toNat = c.val)
    (hrate : ¬ badRate (s.chan c).rate) (k : Chan → Result) :
    withOw s (withChannel ch s fun d => withRate d s (k d)) = k c := by
  rw [withOw_eq, if_pos how, withChannel_pass hc, withRate_pass hrate]

theorem rate_pos {s : State} {c : Chan} (hrate : ¬ badRate (s.chan c).rate) : 0 < s.rate c :=
  Nat.pos_of_ne_zero fun hzero => hrate (.inl hzero)

/-! ## DEC.OW, and DECODE of PROTO 5 -/

theorem exec_decOw {ch : BitVec 4} (hch : ch.toNat < 8) (s : State) :
    exec (.decOw ch) s = .next (s.aborted .enotimpl) :=
  withChannel_pass (c := ⟨ch.toNat, hch⟩) rfl s _

theorem decodeByTag_of_proto_five {s : State} {c : Chan} (h : (s.chan c).cfg.proto = 5) :
    decodeByTag c s = .next (s.aborted .enotimpl) := by
  rw [decodeByTag, h]
  rfl

/-- Settles O44: the body of DEC.OW is the abort, and so is the row of PROTO 5 in DECODE. -/
theorem oneWireDecodeIsNotImplemented : Obligations.OneWireDecodeIsNotImplemented := by
  unfold Obligations.OneWireDecodeIsNotImplemented
  refine ⟨fun ch => encode_toNat (.decOw ch), checksChannel_of_base, fun hasOw ch => Bool.or_true hasOw,
    fun s ch hch => exec_decOw hch s, fun s ch c hc hproto => ?_⟩
  calc exec (.decode ch) s
      = decodeByTag c s := withChannel_pass hc s _
    _ = .next (s.aborted .enotimpl) := decodeByTag_of_proto_five hproto

/-! ## One bit -/

theorem atLeastUs_iff {w us rate : Nat} : atLeastUs w us rate = true ↔ us * rate ≤ w * 10 ^ 6 := decide_eq_true_iff

theorem atMostUs_iff {w us rate : Nat} : atMostUs w us rate = true ↔ w * 10 ^ 6 ≤ us * rate := decide_eq_true_iff

/-- The test of a 1 that the block makes is the one of 47_onewire.md R501. -/
theorem owOneTest_iff {s : State} {c : Chan} {f r : Nat} :
    (atLeastUs (r - f) 1 (s.rate c) && atMostUs (r - f) 15 (s.rate c)
        && s.allHigh c r (f + owSlot (s.rate c) - r)) = true ↔ OwOne s c (s.rate c) f r := by
  have hslot : ∀ j, r ≤ j → (j < r + (f + owSlot (s.rate c) - r) ↔ j < f + owSlot (s.rate c)) := by omega
  rw [Bool.and_eq_true, Bool.and_eq_true, atLeastUs_iff, atMostUs_iff, allHigh_iff, one_mul, and_assoc]
  exact and_congr_right' (and_congr_right' (forall₂_congr fun j hj => imp_congr_left (hslot j hj)))

/-- No pulse is both a 1 and a 0: at a legal RATE 60 us is longer than 15 us. -/
theorem OwOne.not_owZero {s : State} {c : Chan} {rate f r : Nat} (hpos : 0 < rate) (h : OwOne s c rate f r) :
    ¬ OwZero rate f r := by
  obtain ⟨_, hshort, _⟩ := h
  unfold OwZero
  omega

theorem owBit_of_owOne {s : State} {c : Chan} {f r : Nat} (h : OwOne s c (s.rate c) f r) :
    s.owBit c f r = some true :=
  if_pos (owOneTest_iff.2 h)

theorem owBit_of_not_owOne {s : State} {c : Chan} {f r : Nat} (h : ¬ OwOne s c (s.rate c) f r) :
    s.owBit c f r = if atLeastUs (r - f) 60 (s.rate c) then some false else none :=
  if_neg (mt owOneTest_iff.1 h)

/-- A bit that reads as `b` by 47_onewire.md R501 is read as `b`. -/
theorem owBit_eq_some {s : State} {c : Chan} {f r : Nat} {b : Bool} (hpos : 0 < s.rate c)
    (h : if b then OwOne s c (s.rate c) f r else OwZero (s.rate c) f r) : s.owBit c f r = some b := by
  cases b with
  | true => exact owBit_of_owOne h
  | false => rw [owBit_of_not_owOne fun hone => hone.not_owZero hpos h, if_pos (atLeastUs_iff.2 h)]

theorem owBit_eq_none {s : State} {c : Chan} {f r : Nat} (hone : ¬ OwOne s c (s.rate c) f r)
    (hzero : ¬ OwZero (s.rate c) f r) : s.owBit c f r = none := by
  rw [owBit_of_not_owOne hone, if_neg (mt atLeastUs_iff.1 hzero)]

/-! ## One turn of the loop of OW.BYTE -/

theorem owBits_of_bit {s : State} {c : Chan} {pos : Int} {f r : Nat} {b : Bool} (left v : Nat)
    (hpulse : LowPulseFound s c pos f r) (hbit : s.owBit c f r = some b) :
    s.owBits c (left + 1) pos v = s.owBits c left r (v + b.toNat * 2 ^ (7 - left)) := by
  simp only [State.owBits, lowPulse_eq_some.2 hpulse, hbit]

theorem owBits_of_ambiguous {s : State} {c : Chan} {pos : Int} {f r : Nat} (left v : Nat)
    (hpulse : LowPulseFound s c pos f r) (hbit : s.owBit c f r = none) :
    s.owBits c (left + 1) pos v = .ambiguous := by
  simp only [State.owBits, lowPulse_eq_some.2 hpulse, hbit]

theorem owBits_of_missing {s : State} {c : Chan} {pos : Int} (left v : Nat)
    (hnone : ¬ ∃ f r, LowPulseFound s c pos f r) : s.owBits c (left + 1) pos v = .missing := by
  simp only [State.owBits, lowPulse_eq_none.2 hnone]

/-! ## The byte -/

/-- Where the next low pulse is looked for after `n` bits with rising edges `r` (47_onewire.md R501). -/
def owPos (start : Int) (r : Nat → Nat) (n : Nat) : Int := if n = 0 then start else (r (n - 1) : Int)

theorem OwBits.mono {s : State} {c : Chan} {start : Int} {m n : Nat} {f r : Nat → Nat} {b : Nat → Bool}
    (h : OwBits s c start n f r b) (hmn : m ≤ n) : OwBits s c start m f r b :=
  fun i hi => h i (Nat.lt_of_lt_of_le hi hmn)

/-- After the first `n` bits the loop stands at the last rising edge, with the number of those bits. -/
theorem owBits_after {s : State} {c : Chan} {start : Int} {n : Nat} {f r : Nat → Nat} {b : Nat → Bool}
    (hpos : 0 < s.rate c) (hn : n ≤ 8) (h : OwBits s c start n f r b) :
    s.owBits c 8 start 0 = s.owBits c (8 - n) (owPos start r n) (lsbFirst b n) := by
  induction n with
  | zero => rfl
  | succ n ih =>
    obtain ⟨hpulse, hbit⟩ := h n (Nat.lt_succ_self n)
    have hleft : 8 - n = 8 - (n + 1) + 1 := by omega
    have hweight : 7 - (8 - (n + 1)) = n := by omega
    calc s.owBits c 8 start 0
        = s.owBits c (8 - n) (owPos start r n) (lsbFirst b n) := ih (by omega) (h.mono (Nat.le_succ n))
      _ = s.owBits c (8 - (n + 1)) (r n) (lsbFirst b n + (b n).toNat * 2 ^ (7 - (8 - (n + 1)))) := by
          rw [hleft]; exact owBits_of_bit _ _ hpulse (owBit_eq_some hpos hbit)
      _ = s.owBits c (8 - (n + 1)) (owPos start r (n + 1)) (lsbFirst b (n + 1)) := by rw [hweight]; rfl

/-- With fewer than 8 bits read, one more turn follows. -/
theorem owBits_before_next {s : State} {c : Chan} {start : Int} {n : Nat} {f r : Nat → Nat} {b : Nat → Bool}
    (hpos : 0 < s.rate c) (hn : n < 8) (h : OwBits s c start n f r b) :
    s.owBits c 8 start 0 = s.owBits c (7 - n + 1) (owPos start r n) (lsbFirst b n) := by
  rw [owBits_after hpos hn.le h, show 8 - n = 7 - n + 1 by omega]

theorem lsbFirst_lt (b : Nat → Bool) (n : Nat) : lsbFirst b n < 2 ^ n := by
  induction n with
  | zero => exact Nat.one_pos
  | succ n ih =>
    have hbit : (b n).toNat * 2 ^ n ≤ 2 ^ n := mul_le_of_le_one_left (Nat.zero_le _) (Bool.toNat_le _)
    rw [lsbFirst, Nat.pow_succ]
    omega

/-- Bit `i` of the number is the `i`th bit read. -/
theorem testBit_lsbFirst (b : Nat → Bool) {n i : Nat} (hi : i < n) : (lsbFirst b n).testBit i = b i := by
  induction n with
  | zero => exact absurd hi (Nat.not_lt_zero i)
  | succ n ih =>
    rw [lsbFirst, Nat.add_comm, Nat.mul_comm, Nat.testBit_two_pow_mul_add _ (lsbFirst_lt b n)]
    by_cases hlt : i < n
    · rw [if_pos hlt, ih hlt]
    · obtain rfl : i = n := by omega
      rw [if_neg hlt, Nat.sub_self, Nat.testBit_zero]
      cases b i <;> rfl

/-! ## OW.BYTE -/

/-- The state in which OW.BYTE ends, by how it read its bits (47_onewire.md R501, R504). -/
def State.owByteEnd (s : State) : OwRead → State
  | .bits v pos => { s.completed true false with res0 := storeNat v, res1 := storeNat pos }
  | .missing => { s.completed false false with res0 := noneWord, res1 := noneWord }
  | .ambiguous => s.aborted .eowambig

theorem exec_owByte {ch : BitVec 4} {c : Chan} {s : State} {x : OwRead} (how : s.params.hasOw = true)
    (hc : ch.toNat = c.val) (hrate : ¬ badRate (s.chan c).rate) (hx : s.owBits c 8 s.engine.a0.toInt 0 = x) :
    exec (.owByte ch) s = .next (s.owByteEnd x) := by
  refine (owChecks_pass how hc hrate _).trans ?_
  rw [show s.owBits c 8 (sext s.engine.a0) 0 = x from hx]
  cases x <;> rfl

/-- Settles O47: the loop stands at the last rising edge after the bits that can be read (`owBits_after`), and what the
next search finds there, if it is reached, decides the outcome. -/
theorem owByteReadsEightBits : Obligations.OwByteReadsEightBits := by
  unfold Obligations.OwByteReadsEightBits
  refine ⟨fun ch => encode_toNat (.owByte ch), checksOption_of_ow, checksChannel_of_usesCh, checksRate_of_rateChecks,
    fun s ch c f r b how hc hrate => ?_⟩
  have hpos := rate_pos hrate
  refine ⟨fun hbits => ?_, fun n hn hbits hnone => ?_, fun n hn hbits hpulse hone hzero => ?_⟩
  · have hread : s.owBits c 8 s.engine.a0.toInt 0 = .bits (lsbFirst b 8) (r 7) := owBits_after hpos le_rfl hbits
    exact ⟨lsbFirst b 8, exec_owByte how hc hrate hread, lsbFirst_lt b 8, fun i hi => testBit_lsbFirst b hi⟩
  · have hread : s.owBits c 8 s.engine.a0.toInt 0 = .missing :=
      (owBits_before_next hpos hn hbits).trans (owBits_of_missing _ _ hnone)
    exact exec_owByte how hc hrate hread
  · have hread : s.owBits c 8 s.engine.a0.toInt 0 = .ambiguous :=
      (owBits_before_next hpos hn hbits).trans (owBits_of_ambiguous _ _ hpulse (owBit_eq_none hone hzero))
    exact exec_owByte how hc hrate hread

/-! ## OW.PRES and OW.RST -/

/-- The first low pulse is long enough. -/
theorem owDetect_of_long {s : State} {c : Chan} {us : Nat} {start : Int} {f r : Nat}
    (hpulse : LowPulseFound s c start f r) (hlong : us * s.rate c ≤ (r - f) * 10 ^ 6) :
    s.owDetect c us start = Results.search (storeNat f) (some (storeNat r)) true := by
  simp only [State.owDetect, lowPulse_eq_some.2 hpulse, if_pos (atLeastUs_iff.2 hlong)]

/-- The first low pulse is too short, or there is none. -/
theorem owDetect_of_short {s : State} {c : Chan} {us : Nat} {start : Int}
    (hshort : ∀ f r, LowPulseFound s c start f r → (r - f) * 10 ^ 6 < us * s.rate c) :
    s.owDetect c us start = Results.search noneWord (some noneWord) false := by
  cases hpulse : s.lowPulse c start with
  | none => simp only [State.owDetect, hpulse]
  | some p =>
    have hlt := hshort p.1 p.2 (lowPulse_eq_some.1 hpulse)
    simp only [State.owDetect, hpulse, if_neg (mt atLeastUs_iff.1 (Nat.not_le.2 hlt))]

/-- OW.RST (`reset`) and OW.PRES are one detector with two thresholds. -/
theorem exec_owPresOrRst {ch : BitVec 4} {c : Chan} {s : State} (reset : Bool) (how : s.params.hasOw = true)
    (hc : ch.toNat = c.val) (hrate : ¬ badRate (s.chan c).rate) :
    exec (if reset then .owRst ch else .owPres ch) s
      = complete s (s.owDetect c (if reset then 480 else 60) s.engine.a0.toInt) := by
  cases reset with
  | true => exact owChecks_pass how hc hrate _
  | false => exact owChecks_pass how hc hrate _

/-- Settles O48: the detector's two outcomes are the two clauses. -/
theorem owDetectorsTestTheFirstPulse : Obligations.OwDetectorsTestTheFirstPulse := by
  unfold Obligations.OwDetectorsTestTheFirstPulse
  refine ⟨fun ch => encode_toNat (.owPres ch), fun ch => encode_toNat (.owRst ch), checksOption_of_ow,
    checksOption_of_ow, checksChannel_of_usesCh, checksChannel_of_usesCh, checksRate_of_rateChecks,
    checksRate_of_rateChecks, fun s ch c reset how hc hrate => ?_⟩
  rw [exec_owPresOrRst reset how hc hrate]
  refine ⟨fun f r hpulse hlong => ?_, fun hshort => ?_⟩
  · rw [owDetect_of_long hpulse hlong]; rfl
  · rw [owDetect_of_short hshort]; rfl

end Sys2Proof.Machine
end

section
/-! The family of 60_exceptions.md: what each input does to ERRCMD, DONE and `irq`; O14, O55 and O56. -/

namespace Sys2Proof.Machine

/-! ## What a command that ends reports (R605, R606) -/

/-- Whichever way a command ends, DONE rises. -/
theorem Ran.done {i : Instr} {s t : State} (h : Ran i s t) : t.status.done = true := by cases h <;> rfl

theorem Ran.ie {i : Instr} {s t : State} (h : Ran i s t) : t.ie = s.ie := by cases h <;> rfl

theorem Ran.errcmd {i : Instr} {s t : State} (h : Ran i s t) :
    t.errcmd = if t.status.err = .ok then s.errcmd else s.engine.cw := by
  cases h with
  | stopped e he ho => exact (if_neg he).symm
  | overflowed c ts h hc => exact (if_neg ErrCode.noConfusion).symm
  | _ => rfl

theorem engineTurn_of_idle {s : State} (hidle : s.status.busy = false) : engineTurn s = .next s := by
  rw [engineTurn, if_neg (Bool.eq_false_iff.1 hidle)]

/-- A running command is executed, or its word is refused. -/
theorem engineTurn_of_busy {s : State} (hbusy : s.status.busy = true) :
    (∃ i, engineTurn s = exec i s) ∨ engineTurn s = .next (s.aborted .ebadop) := by
  rw [engineTurn, if_pos hbusy]
  cases decode s.params.hasOw s.engine.cw with
  | ok i => exact .inl ⟨i, rfl⟩
  | error x => exact .inr rfl

/-- The engine's turn ends a running command, legal or not, with DONE set and ERRCMD as R606 says. -/
theorem engineTurn_reports {s : State} (hbusy : s.status.busy = true) :
    ∃ t, engineTurn s = .next t ∧ t.status.done = true
      ∧ t.errcmd = if t.status.err = .ok then s.errcmd else s.engine.cw := by
  obtain ⟨i, hexec⟩ | hrefused := engineTurn_of_busy hbusy
  · obtain ⟨t, ht, hran⟩ := exec_ran i s
    exact ⟨t, hexec.trans ht, hran.done, hran.errcmd⟩
  · exact ⟨_, hrefused, rfl, rfl⟩

/-! ## Which address a listed register answers at -/

theorem globalRegs_addr : ∀ (k : Nat) (h : k < globalRegs.length), globalRegs[k].addr = BitVec.ofNat 20 (4 * k) := by
  decide

theorem channelRegs_addr : ∀ (c : Chan) (k : Nat) (h : k < (channelRegs c).length),
    (channelRegs c)[k].addr = BitVec.ofNat 20 (0x100 + 0x20 * c.val + 4 * k) := by
  decide

/-- The map inverts `Reg.addr`: no register answers at a second address (20_memory.md R155). -/
theorem addr_of_regAt {n : Nat} {a : Addr} {r : Reg} (h : regAt n a = .ok r) : r.addr = a := by
  apply BitVec.eq_of_toNat_eq
  unfold regAt at h
  dsimp only at h
  split_ifs at h with haligned hglobal hchannel hgap hwindow hrecord
  · split at h <;> cases h
    next hr =>
      obtain ⟨hk, rfl⟩ := List.getElem?_eq_some_iff.1 hr
      rw [globalRegs_addr _ hk, BitVec.toNat_ofNat]
      omega
  · split at h <;> cases h
    next hr =>
      obtain ⟨hk, rfl⟩ := List.getElem?_eq_some_iff.1 hr
      rw [channelRegs_addr _ _ hk, BitVec.toNat_ofNat, Fin.val_ofNat]
      omega
  · cases h
    rw [Reg.addr, BitVec.toNat_ofNat, Fin.val_ofNat, Fin.val_ofNat]
    omega

/-! ## What the bus leaves unchanged -/

/-- `t` still names the last abort and the completion that `s` names. -/
def KeepsReport (s t : State) : Prop := t.errcmd = s.errcmd ∧ t.status.done = s.status.done

theorem keepsReport_busRead (s : State) (a : Addr) : KeepsReport s (s.busRead a) := by
  unfold State.busRead
  split
  · exact ⟨rfl, rfl⟩
  · split <;> exact ⟨rfl, rfl⟩

/-- A write turned away while BUSY = 1 sets COLL only. -/
theorem keepsReport_whenIdle {s t : State} (h : KeepsReport s t) : KeepsReport s (s.whenIdle t) := by
  unfold State.whenIdle
  split
  · exact ⟨rfl, rfl⟩
  · exact h

theorem keepsReport_writeReg (s : State) {r : Reg} (v : Word) (hctrl : r ≠ .ctrl) (hstatus : r ≠ .status)
    (hcmd : r ≠ .cmd) : KeepsReport s (s.writeReg r v) := by
  cases r with
  | ctrl => exact absurd rfl hctrl
  | status => exact absurd rfl hstatus
  | cmd => exact absurd rfl hcmd
  | arg0 | arg1 | cfg _ | baud _ | rate _ => exact keepsReport_whenIdle ⟨rfl, rfl⟩
  | _ => exact ⟨rfl, rfl⟩

/-- Only writes to CTRL, STATUS and CMD can change ERRCMD or DONE. -/
theorem keepsReport_busWrite (s : State) {a : Addr} (v : Word) (hctrl : a ≠ 0x10#20) (hstatus : a ≠ 0x14#20)
    (hcmd : a ≠ 0x18#20) : KeepsReport s (s.busWrite a v) := by
  by_cases hlisted : ListedRegister a.toNat
  · obtain ⟨r, hr⟩ := (regAt_ok_iff s.params.tokcap a).2 (.inl hlisted)
    have ha : r.addr = a := addr_of_regAt hr
    rw [busWrite_of_ok v hr, inTokenWindow_of_listedRegister hlisted, if_neg Bool.false_ne_true]
    exact keepsReport_writeReg s v (fun h => hctrl (ha ▸ h ▸ rfl)) (fun h => hstatus (ha ▸ h ▸ rfl))
      (fun h => hcmd (ha ▸ h ▸ rfl))
  · obtain ⟨f, hf⟩ := busWrite_of_not_listedRegister s v hlisted
    rw [hf]
    exact ⟨rfl, rfl⟩

/-! ## Writes to CTRL, STATUS and CMD, and the pin -/

/-- CTRL with SRST (70_reset_and_hazards.md R701). -/
theorem busWrite_ctrl_srst (s : State) {v : Word} (h : v.getLsbD 1 = true) :
    s.busWrite 0x10#20 v = s.blockReset.respond .done :=
  congrArg (State.respond · .done) (if_pos h)

/-- CTRL without SRST only writes IE. -/
theorem busWrite_ctrl_ie (s : State) {v : Word} (h : v.getLsbD 1 = false) :
    s.busWrite 0x10#20 v = State.respond { s with ie := v.getLsbD 0 } .done :=
  congrArg (State.respond · .done) (if_neg (Bool.eq_false_iff.1 h))

theorem busWrite_status (s : State) (v : Word) :
    s.busWrite 0x14#20 v = State.respond { s with status := s.status.hostWrite v } .done := rfl

theorem busWrite_cmd (s : State) (w : Word) : s.busWrite 0x18#20 w = (s.whenIdle (s.issue w)).respond .done := rfl

theorem setRstN_true {s : State} (h : s.rstN = true) : s.setRstN true = s := by
  rw [State.setRstN, h]; rfl

theorem setRstN_false (s : State) : s.setRstN false = { s.heldReset with rstN := false } := by
  rw [State.setRstN, Bool.and_false]; rfl

/-! ## ERRCMD -/

/-- Of all bus writes only a soft reset reaches ERRCMD. -/
theorem busWrite_errcmd (s : State) (a : Addr) (v : Word) :
    (s.busWrite a v).errcmd = if a = 0x10#20 ∧ v.getLsbD 1 = true then 0 else s.errcmd := by
  by_cases hctrl : a = 0x10#20
  · subst hctrl
    cases hsrst : v.getLsbD 1 with
    | true => rw [busWrite_ctrl_srst s hsrst]; rfl
    | false => rw [busWrite_ctrl_ie s hsrst]; rfl
  rw [if_neg fun h => hctrl h.1]
  by_cases hstatus : a = 0x14#20
  · subst hstatus; rfl
  by_cases hcmd : a = 0x18#20
  · subst hcmd
    rw [busWrite_cmd, State.whenIdle]
    split <;> rfl
  exact (keepsReport_busWrite s v hctrl hstatus hcmd).1

theorem setRstN_errcmd {s : State} (h : s.rstN = true) (level : Bool) :
    (s.setRstN level).errcmd = if level then s.errcmd else 0 := by
  cases level with
  | true => rw [setRstN_true h]; rfl
  | false => rw [setRstN_false]; rfl

/-- Settles O14: one equation for ERRCMD per kind of input. -/
theorem errcmdNamesTheLastAbort : Obligations.ErrcmdNamesTheLastAbort := by
  unfold Obligations.ErrcmdNamesTheLastAbort
  refine ⟨fun i s t hexec => (ran_of_exec hexec).errcmd, fun s rest hnext => ?_, fun s a v rest hnext => ?_,
    fun s a rest hnext => ?_, fun s level rest hnext => ?_⟩
  · rw [step_engine hnext]
    cases hbusy : s.status.busy with
    | false => exact ⟨_, engineTurn_of_idle hbusy, fun _ => rfl, nofun, nofun⟩
    | true =>
      obtain ⟨t, ht, _, herrcmd⟩ := engineTurn_reports (s := { s with inputs := rest }) hbusy
      refine ⟨t, ht, nofun, fun _ => herrcmd, fun _ hillegal => ?_⟩
      rw [engineTurn_of_illegalWord (s := { s with inputs := rest }) hbusy hillegal] at ht
      cases ht
      rfl
  · exact ⟨_, step_write hnext, busWrite_errcmd _ a v⟩
  · exact ⟨_, step_read hnext, (keepsReport_busRead _ a).1⟩
  · exact ⟨_, step_rstN hnext, setRstN_errcmd (s := { s with inputs := rest }) hnext.1 level⟩

/-! ## DONE -/

/-- The bus writes that clear DONE. -/
theorem busWrite_clears_done_iff {s : State} (hdone : s.status.done = true) (a : Addr) (v : Word) :
    (s.busWrite a v).status.done = false ↔
      a = 0x14#20 ∧ v.getLsbD 1 = true ∨ a = 0x18#20 ∧ s.status.busy = false ∨ a = 0x10#20 ∧ v.getLsbD 1 = true := by
  by_cases hctrl : a = 0x10#20
  · subst hctrl
    cases hsrst : v.getLsbD 1 with
    | true => simp [busWrite_ctrl_srst s hsrst, State.blockReset, State.resetOf, Status.reset]
    | false => simp [busWrite_ctrl_ie s hsrst, hdone]
  by_cases hstatus : a = 0x14#20
  · subst hstatus
    simp [busWrite_status, Status.hostWrite, hdone]
  by_cases hcmd : a = 0x18#20
  · subst hcmd
    cases hbusy : s.status.busy <;> simp [busWrite_cmd, State.whenIdle, hbusy, Status.issue, hdone]
  simp [(keepsReport_busWrite s v hctrl hstatus hcmd).2, hdone, hctrl, hstatus, hcmd]

/-- The engine's turn never clears DONE. -/
theorem engineTurn_keeps_done {s t : State} (hdone : s.status.done = true) (h : engineTurn s = .next t) :
    t.status.done = true := by
  cases hbusy : s.status.busy with
  | false =>
    rw [engineTurn_of_idle hbusy] at h
    cases h
    exact hdone
  | true =>
    obtain ⟨u, hu, hudone, _⟩ := engineTurn_reports hbusy
    rw [h] at hu
    cases hu
    exact hudone

/-- Settles O56: case by input; the bus writes are `busWrite_clears_done_iff`. -/
theorem doneIsClearedExactlyBy : Obligations.DoneIsClearedExactlyBy := by
  unfold Obligations.DoneIsClearedExactlyBy
  intro s t x rest hnext hdone hstep
  cases x with
  | read a =>
    rw [step_read hnext] at hstep
    cases hstep
    have hkept := (keepsReport_busRead { s with inputs := rest } a).2
    simp [hkept, hdone]
  | write a v =>
    rw [step_write hnext] at hstep
    cases hstep
    rw [busWrite_clears_done_iff (s := { s with inputs := rest }) hdone]
    simp
  | engine =>
    rw [step_engine hnext] at hstep
    simp [engineTurn_keeps_done (s := { s with inputs := rest }) hdone hstep]
  | rstN level =>
    rw [step_rstN hnext] at hstep
    cases hstep
    cases level with
    | true => simp [setRstN_true (s := { s with inputs := rest }) hnext.1, hdone]
    | false => simp [setRstN_false, State.heldReset, State.blockReset, State.resetOf, Status.reset]

/-! ## The interrupt line -/

/-- Settles O55: DONE rises with every end of a command and IE is kept, so the line is IE then; the other clauses are the
equations of the input that each names. -/
theorem interruptLineIsEnableAndDone : Obligations.InterruptLineIsEnableAndDone := by
  unfold Obligations.InterruptLineIsEnableAndDone
  refine ⟨fun _ => rfl, fun i s t hexec => ?_, fun s v rest hnext hv => ?_, fun s v rest hnext hv => ?_, fun _ => rfl,
    fun s rest hnext => ?_⟩
  · have hran := ran_of_exec hexec
    rw [State.irq, hran.done, hran.ie, Bool.and_true]
  · exact ⟨_, step_write hnext, by rw [busWrite_ctrl_ie _ hv]; rfl⟩
  · exact ⟨_, step_write hnext, by simp [busWrite_status, State.irq, Status.hostWrite, hv]⟩
  · exact ⟨_, step_rstN hnext, by rw [setRstN_false]; rfl⟩

end Sys2Proof.Machine
end

section
/-! The family of 70_reset_and_hazards.md: the registers a running command guards against writes (R710); O52. -/

namespace Sys2Proof.Machine

/-- The registers whose writes BUSY = 1 turns away (70_reset_and_hazards.md R710). -/
def Reg.isGuarded : Reg → Bool
  | .cmd | .arg0 | .arg1 | .cfg _ | .baud _ | .rate _ => true
  | _ => false

/-- The guarded addresses, as the spec lists them, are those of the guarded registers. -/
theorem regAt_of_guardedAddress (n : Nat) {a : Addr} (h : GuardedAddress a.toNat) :
    ∃ r, regAt n a = .ok r ∧ r.isGuarded = true := by
  have addr_eq {x : Nat} (hx : a.toNat = x) : a = BitVec.ofNat 20 x := by
    rw [← hx, BitVec.ofNat_toNat, BitVec.setWidth_eq]
  obtain hcmd | harg0 | harg1 | ⟨c, hcfg | hbaud | hrate⟩ := h
  · exact ⟨.cmd, addr_eq hcmd ▸ regAt_cmd n, rfl⟩
  · exact ⟨.arg0, addr_eq harg0 ▸ regAt_arg0 n, rfl⟩
  · exact ⟨.arg1, addr_eq harg1 ▸ regAt_arg1 n, rfl⟩
  · exact ⟨.cfg c, addr_eq hcfg ▸ regAt_cfg n c, rfl⟩
  · exact ⟨.baud c, addr_eq hbaud ▸ regAt_baud n c, rfl⟩
  · exact ⟨.rate c, addr_eq hrate ▸ regAt_rate n c, rfl⟩

theorem listedRegister_of_guardedAddress {a : Nat} (h : GuardedAddress a) : ListedRegister a := by
  unfold ListedRegister
  obtain hcmd | harg0 | harg1 | ⟨c, hchannel⟩ := h <;> omega

theorem whenIdle_of_busy {s : State} (t : State) (hbusy : s.status.busy = true) :
    s.whenIdle t = { s with status := { s.status with coll := true } } := if_pos hbusy

/-- A write to a guarded register under a running command does the same whichever register and word it names. -/
theorem writeReg_guarded_of_busy {s : State} {r : Reg} (v : Word) (hguarded : r.isGuarded = true)
    (hbusy : s.status.busy = true) : s.writeReg r v = { s with status := { s.status with coll := true } } := by
  cases r with
  | cmd | arg0 | arg1 | cfg _ | baud _ | rate _ => exact whenIdle_of_busy _ hbusy
  | _ => cases hguarded

theorem busWrite_guarded_of_busy {s : State} {a : Addr} (v : Word) (h : GuardedAddress a.toNat)
    (hbusy : s.status.busy = true) :
    s.busWrite a v = State.respond { s with status := { s.status with coll := true } } .done := by
  obtain ⟨r, hr, hguarded⟩ := regAt_of_guardedAddress s.params.tokcap h
  rw [busWrite_of_ok v hr, inTokenWindow_of_listedRegister (listedRegister_of_guardedAddress h),
    if_neg Bool.false_ne_true, writeReg_guarded_of_busy v hguarded hbusy]

/-- Settles O52: a guarded address names a guarded register, and all of those go through `State.whenIdle`. -/
theorem busyWritesAreIgnored : Obligations.BusyWritesAreIgnored := by
  unfold Obligations.BusyWritesAreIgnored
  intro s a v rest hbusy hguarded hnext
  rw [step_write hnext, busWrite_guarded_of_busy (s := { s with inputs := rest }) v hguarded hbusy]
  rfl

end Sys2Proof.Machine
end

section
/-! The command word as its encoding and the reverse: O1, the illegal words of 30_encoding.md R206 (O4), the opcode table
on words written out (O3), and how a command word comes to be run (O5, O6). -/

namespace Sys2Proof.Machine

/-! ## Words and their fields -/

/-- The three fields of 30_encoding.md R200 leave no bit of the word out. -/
theorem eq_of_fields {w x : Word} (hop : opcodeField w = opcodeField x) (hch : chField w = chField x)
    (hres : reservedField w = reservedField x) : w = x := by
  apply BitVec.eq_of_toNat_eq
  rw [toNat_eq_fields w, toNat_eq_fields x, hop, hch, hres]

/-- The opcode map puts the CH field it is given into the command. -/
theorem ch_of_opcodeMap {op : Byte} {ch : BitVec 4} {i : Instr} (h : opcodeMap op ch = some i) : i.ch = ch := by
  unfold opcodeMap at h
  split at h <;> cases h <;> rfl

/-- Every command has a row in the opcode map. -/
theorem opcodeMap_opcodeOf (i : Instr) : opcodeMap (opcodeOf i) i.ch = some i := by cases i <;> rfl

theorem decode_encode {hasOw : Bool} {i : Instr} (hwf : i.wf hasOw = true) : decode hasOw (encode i) = .ok i := by
  refine decode_eq_ok_iff.2 ⟨reservedField_encode i, ?_, hwf⟩
  rw [opcodeField_encode, chField_encode, opcodeMap_opcodeOf]

/-- A command word holds nothing but its opcode and CH, so it is the encoding of the command it decodes to. -/
theorem eq_encode_of_decode {hasOw : Bool} {w : Word} {i : Instr} (h : decode hasOw w = .ok i) : w = encode i := by
  obtain ⟨hreserved, hmap, _⟩ := decode_eq_ok_iff.1 h
  refine eq_of_fields ?_ ?_ ?_
  · rw [opcodeField_encode, opcodeOf_of_opcodeMap hmap]
  · rw [chField_encode, ch_of_opcodeMap hmap]
  · rw [reservedField_encode, hreserved]

/-- Settles O1: a word is its fields, and the opcode map and `opcodeOf` invert each other. -/
theorem decodeInvertsEncode : Obligations.DecodeInvertsEncode := by
  unfold Obligations.DecodeInvertsEncode
  intro hasOw w i
  refine ⟨fun h => ⟨(toNat_of_decode h).2.2, eq_encode_of_decode h⟩, ?_⟩
  rintro ⟨hwf, rfl⟩
  exact decode_encode hwf

/-! ## Illegal words -/

/-- The opcodes that no row of 30_encoding.md R203 has (R206 point 1). -/
theorem opcodeMap_eq_none {op : Byte} {ch : BitVec 4} (h : opcodeMap op ch = none) :
    op.toNat ∈ [0x0D, 0x0E, 0x0F, 0x16, 0x17, 0x1A, 0x1B, 0x1C, 0x1D, 0x1E, 0x1F] ∨ 0x23 ≤ op.toNat := by
  unfold opcodeMap at h
  split at h <;> try cases h
  next =>
    simp only [imp_false] at *
    simp only [List.mem_cons, List.not_mem_nil, or_false]
    omega

/-- The option a command needs shows in its opcode (30_encoding.md R206 point 3). -/
theorem opcodeOf_of_not_wf {hasOw : Bool} {i : Instr} (h : i.wf hasOw ≠ true) :
    (opcodeOf i).toNat ∈ [0x20, 0x21, 0x22] ∧ hasOw = false := by
  revert h
  cases i <;> simp [Instr.wf, Instr.isOw, opcodeOf]

/-- The other direction of R206: a word that fails a check of the decoder is on the list. -/
theorem illegalWord_of_not_decode {hasOw : Bool} {w : Word} (h : ¬ ∃ i, decode hasOw w = .ok i) :
    IllegalWord hasOw w := by
  by_cases hreserved : reservedField w = 0
  case neg => exact .inr (.inr (.inl (Nat.not_lt.1 (mt reservedField_eq_zero_iff.2 hreserved))))
  cases hmap : opcodeMap (opcodeField w) (chField w) with
  | none =>
    obtain hlisted | hhigh := opcodeMap_eq_none hmap
    · exact .inl (toNat_opcodeField w ▸ hlisted)
    · exact .inr (.inl (toNat_opcodeField w ▸ hhigh))
  | some i =>
    have hwf : i.wf hasOw ≠ true := fun hwf => h ⟨i, decode_eq_ok_iff.2 ⟨hreserved, hmap, hwf⟩⟩
    have how := opcodeOf_of_not_wf hwf
    rw [← opcodeOf_of_opcodeMap hmap, toNat_opcodeField] at how
    exact .inr (.inr (.inr how))

/-- Settles O4: no command's word is on the list, and a word the decoder refuses is. -/
theorem illegalWordsAreTheListedOnes : Obligations.IllegalWordsAreTheListedOnes := by
  unfold Obligations.IllegalWordsAreTheListedOnes
  exact fun hasOw w => ⟨illegalWord_of_not_decode, fun hill ⟨_, hi⟩ => not_illegalWord_of_decode hi hill⟩

/-- Settles O3: each word is the encoding of its row's command, which is well-formed in the build. -/
theorem opcodeTableWords : Obligations.OpcodeTableWords := by
  unfold Obligations.OpcodeTableWords
  and_intros <;> rfl

/-! ## Running a command word -/

theorem engineTurn_of_decode {s : State} {i : Instr} (hbusy : s.status.busy = true)
    (hdecode : decode s.params.hasOw s.engine.cw = .ok i) : engineTurn s = exec i s := by
  simp only [engineTurn, if_pos hbusy, hdecode]

/-- Settles O5: with no input left, or with the engine's turn next, the step is the engine's turn. -/
theorem stepRunsDecodedInstruction : Obligations.StepRunsDecodedInstruction := by
  unfold Obligations.StepRunsDecodedInstruction
  intro s i hrst hbusy hdecode
  refine ⟨fun hlast => ?_, fun rest hinputs => ?_⟩
  · rw [step_last hrst hlast, engineTurn_of_decode hbusy hdecode]
  · rw [step_engine ⟨hrst, hinputs⟩]
    exact engineTurn_of_decode hbusy hdecode

/-- A command word is one bus word, so placing it loses none of its bits. -/
theorem withFetchWord_encode (s : State) (i : Instr) :
    s.withFetchWord 32 (encode i).toNat = s.placeCommand (encode i) := by
  rw [State.withFetchWord, Nat.mod_eq_of_lt (encode i).isLt, BitVec.ofNat_toNat, BitVec.setWidth_eq]

/-- Settles O6: the placed word is captured with BUSY set and the engine's turn next, and it decodes to the command. -/
theorem placedCommandRunsNext : Obligations.PlacedCommandRunsNext := by
  unfold Obligations.PlacedCommandRunsNext
  intro s i hwf
  rw [withFetchWord_encode, step_engine (rest := s.inputs) ⟨rfl, rfl⟩]
  exact engineTurn_of_decode (i := i) rfl (decode_encode hwf)

end Sys2Proof.Machine
end

section
/-! What every way a command ends has in common (`Ran`, 40_command_cycle.md R253 to R258): O7, O12, O13, O18, O19, O31 and
O33. -/

namespace Sys2Proof.Machine

/-! ## What an end of a command leaves -/

theorem Ran.busy {i : Instr} {s t : State} (h : Ran i s t) : t.status.busy = false := by cases h <;> rfl

theorem Ran.engine {i : Instr} {s t : State} (h : Ran i s t) : t.engine = Engine.idle := by cases h <;> rfl

theorem Ran.params {i : Instr} {s t : State} (h : Ran i s t) : t.params = s.params := by cases h <;> rfl

theorem Ran.rstN {i : Instr} {s t : State} (h : Ran i s t) : t.rstN = s.rstN := by cases h <;> rfl

theorem Ran.coll {i : Instr} {s t : State} (h : Ran i s t) : t.status.coll = s.status.coll := by cases h <;> rfl

theorem isDecode.usesCh {i : Instr} (h : isDecode i) : i.usesCh = true := by
  obtain ⟨ch, rfl | rfl | rfl | rfl | rfl⟩ := h <;> rfl

/-! ## The step always answers (O7) -/

/-- The engine's turn ends a running command, legal word or not. -/
theorem engineTurn_ends {s : State} (hbusy : s.status.busy = true) :
    ∃ t, engineTurn s = .next t ∧ t.status.busy = false ∧ t.status.done = true ∧ t.engine = Engine.idle := by
  obtain ⟨i, hexec⟩ | hrefused := engineTurn_of_busy hbusy
  · obtain ⟨t, ht, hran⟩ := exec_ran i s
    exact ⟨t, hexec.trans ht, hran.busy, hran.done, hran.engine⟩
  · exact ⟨_, hrefused, rfl, rfl, rfl⟩

theorem engineTurn_next (s : State) : ∃ t, engineTurn s = .next t := by
  cases hbusy : s.status.busy with
  | false => exact ⟨s, engineTurn_of_idle hbusy⟩
  | true =>
    obtain ⟨t, ht, _⟩ := engineTurn_ends hbusy
    exact ⟨t, ht⟩

theorem takeInput_next (x : Input) (s : State) : ∃ t, takeInput x s = .next t := by
  cases x with
  | engine => exact engineTurn_next s
  | _ => exact ⟨_, rfl⟩

theorem takeInputHeld_next (x : Input) (s : State) : ∃ t, takeInputHeld x s = .next t := by
  cases x <;> exact ⟨_, rfl⟩

theorem step_next (s : State) : ∃ t, step s = .next t := by
  unfold step nextInput
  split
  · split
    · exact engineTurn_next s
    · exact ⟨_, rfl⟩
  · split
    · exact takeInput_next _ _
    · exact takeInputHeld_next _ _

/-- Settles O7: every input answers, and so does the engine's turn, which ends what runs. -/
theorem engineTurnEndsTheCommand : Obligations.EngineTurnEndsTheCommand := by
  unfold Obligations.EngineTurnEndsTheCommand
  refine ⟨step_next, fun s hrst hlast => ?_⟩
  rw [step_last hrst hlast]
  exact ⟨engineTurn_of_idle, engineTurn_ends⟩

/-! ## Aborts (O12) -/

/-- The channels of an abort: as they were, or with the records a decode of the channel had appended. -/
theorem Ran.of_error {i : Instr} {s t : State} (h : Ran i s t) (herr : t.status.err ≠ .ok) :
    (t = s.aborted t.status.err ∧ t.status.err ≠ .etokovf)
      ∨ ∃ c ts, isDecode i ∧ i.ch.toNat = c.val ∧ t = (s.appendTokens c ts).aborted .etokovf := by
  cases h with
  | stopped e he ho => exact .inl ⟨rfl, ho⟩
  | overflowed c ts hdec hc => exact .inr ⟨c, ts, hdec, hc, rfl⟩
  | _ => exact absurd rfl herr

/-- Settles O12: only an overflow leaves something behind, the records a decode has appended to its own channel. -/
theorem abortsKeepEarlierResults : Obligations.AbortsKeepEarlierResults := by
  unfold Obligations.AbortsKeepEarlierResults
  intro i s t hexec herr
  obtain ⟨ht, hno⟩ | ⟨c, ts, hdec, hc, rfl⟩ := (ran_of_exec hexec).of_error herr
  · have hchans : t.chans = s.chans := by rw [ht]; rfl
    have hchan : ∀ c, t.chan c = s.chan c := fun c => by rw [State.chan, hchans]; rfl
    refine ⟨?_, fun _ => hchans, fun c => ⟨[], ?_, fun h => absurd rfl h⟩⟩
    · rw [hchans]; exact ht
    · rw [hchan, List.append_nil]
  · refine ⟨rfl, fun h => absurd rfl h, fun d => ?_⟩
    rw [State.aborted_chan, State.chan_appendTokens]
    by_cases hd : d = c
    · subst hd
      exact ⟨ts, if_pos rfl, fun _ => ⟨hdec.usesCh, hc, hdec⟩⟩
    · exact ⟨[], by rw [if_neg hd, List.append_nil], fun h => absurd rfl h⟩

/-! ## Completions (O13) -/

/-- Settles O13: each way of completing names the flags and results of its own commands. -/
theorem completionSetsStatus : Obligations.CompletionSetsStatus := by
  unfold Obligations.CompletionSetsStatus
  intro i s t hexec herr
  have hran := ran_of_exec hexec
  refine ⟨hran.busy, hran.done, hran.coll, by rw [hran.errcmd, if_pos herr], ?_, ?_, ?_, ?_⟩
  · cases hran with
    | stopped e he _ => exact absurd herr he
    | decoded c ts low hdec hc => exact fun _ => hdec
    | _ => exact nofun
  · cases hran with
    | stopped e he _ => exact absurd herr he
    | edge r0 found h =>
      obtain ⟨ch, h⟩ := h
      exact fun _ => ⟨ch, by tauto⟩
    | search r0 r1 found h =>
      obtain ⟨ch, h⟩ := h
      exact fun _ => ⟨ch, by tauto⟩
    | _ => exact nofun
  · cases hran with
    | stopped e he _ => exact absurd herr he
    | reading r0 h =>
      obtain ⟨ch, h⟩ := h
      exact fun _ => ⟨ch, by tauto⟩
    | edge r0 found h =>
      obtain ⟨ch, h⟩ := h
      exact fun _ => ⟨ch, by tauto⟩
    | search r0 r1 found h =>
      obtain ⟨ch, h⟩ := h
      exact fun _ => ⟨ch, by tauto⟩
    | _ => exact fun h => absurd rfl h
  · cases hran with
    | stopped e he _ => exact absurd herr he
    | search r0 r1 found h => exact fun _ => h
    | _ => exact fun h => absurd rfl h

/-! ## What no command writes (O19) -/

/-- The host's registers of a channel are no command's to write (40_command_cycle.md R258). -/
def KeepsConfig (x y : Channel) : Prop := y.cfg = x.cfg ∧ y.baud = x.baud ∧ y.rate = x.rate

theorem Ran.config {i : Instr} {s t : State} (h : Ran i s t) (d : Chan) : KeepsConfig (s.chan d) (t.chan d) := by
  have hset (c : Chan) (x : Channel) (hx : KeepsConfig (s.chan c) x) :
      KeepsConfig (s.chan d) (if d = c then x else s.chan d) := by
    split
    · next hd => exact hd ▸ hx
    · exact ⟨rfl, rfl, rfl⟩
  cases h with
  | write ch c n v => rw [State.completed_chan, State.chan_wr]; exact hset c _ ⟨rfl, rfl, rfl⟩
  | writeRange ch c lo hi v => rw [State.completed_chan, State.chan_wrRange]; exact hset c _ ⟨rfl, rfl, rfl⟩
  | reset ch c => rw [State.completed_chan, State.chan_chReset]; exact hset c _ ⟨rfl, rfl, rfl⟩
  | replace ch => rw [State.completed_chan, State.chan_bulkReplace]; exact ⟨rfl, rfl, rfl⟩
  | bulk ch =>
    change KeepsConfig _ ((s.bulkWrite s.blptr.toNat (byteOperand s.engine.a0)).chan d)
    rw [State.chan_bulkWrite]; exact ⟨rfl, rfl, rfl⟩
  | decoded c ts => rw [State.completed_chan, State.chan_appendTokens]; exact hset c _ ⟨rfl, rfl, rfl⟩
  | overflowed c ts => rw [State.aborted_chan, State.chan_appendTokens]; exact hset c _ ⟨rfl, rfl, rfl⟩
  | _ => exact ⟨rfl, rfl, rfl⟩

theorem Ran.blptr {i : Instr} {s t : State} (h : Ran i s t) (hno : ∀ ch, i ≠ .blbegin ch ∧ i ≠ .bldata ch) :
    t.blptr = s.blptr := by
  cases h with
  | replace ch h => exact absurd h (hno ch).1
  | bulk ch h => exact absurd h (hno ch).2
  | _ => rfl

/-- Appending records changes no LEN register. -/
theorem State.chan_len_appendTokens (s : State) (c d : Chan) (ts : List Token) :
    ((s.appendTokens c ts).chan d).len = (s.chan d).len := by
  rw [State.chan_appendTokens]
  split
  · next hd => rw [hd]
  · rfl

theorem Ran.samples {i : Instr} {s t : State} (h : Ran i s t)
    (hno : ∀ ch, i ≠ .set ch ∧ i ≠ .clr ch ∧ i ≠ .setr ch ∧ i ≠ .clrr ch ∧ i ≠ .chreset ch ∧ i ≠ .blbegin ch
      ∧ i ≠ .bldata ch) : t.samples = s.samples ∧ ∀ c, (t.chan c).len = (s.chan c).len := by
  cases h with
  | write ch c n v h =>
    obtain ⟨hset, hclr, _⟩ := hno ch
    exact absurd h (not_or.2 ⟨hset, hclr⟩)
  | writeRange ch c lo hi v h =>
    obtain ⟨_, _, hsetr, hclrr, _⟩ := hno ch
    exact absurd h (not_or.2 ⟨hsetr, hclrr⟩)
  | reset ch c h =>
    obtain ⟨_, _, _, _, hreset, _⟩ := hno ch
    exact absurd h hreset
  | replace ch h =>
    obtain ⟨_, _, _, _, _, hbegin, _⟩ := hno ch
    exact absurd h hbegin
  | bulk ch h =>
    obtain ⟨_, _, _, _, _, _, hdata⟩ := hno ch
    exact absurd h hdata
  | decoded c ts => exact ⟨rfl, fun d => s.chan_len_appendTokens c d ts⟩
  | overflowed c ts => exact ⟨rfl, fun d => s.chan_len_appendTokens c d ts⟩
  | _ => exact ⟨rfl, fun _ => rfl⟩

/-- Settles O19: the model's fields of the host are in no ending; the rest are the frames above. -/
theorem commandsKeepWhatTheyDoNotName : Obligations.CommandsKeepWhatTheyDoNotName := by
  unfold Obligations.CommandsKeepWhatTheyDoNotName
  intro i s t hexec
  have hran := ran_of_exec hexec
  refine ⟨hran.params, hran.rstN, ?_, ?_, ?_, hran.ie, ?_, ?_, ?_, hran.coll, hran.config, hran.blptr, hran.samples⟩ <;>
    cases hran <;> rfl

/-! ## Other channels (O18) -/

/-- Settles O18: every ending of a command that uses CH updates the channel CH names and no other. -/
theorem otherChannelsUntouched : Obligations.OtherChannelsUntouched := by
  unfold Obligations.OtherChannelsUntouched
  intro i s t c d huse hc hd hwf hexec
  have hother {e : Chan} (he : i.ch.toNat = e.val) : d ≠ e := fun h => hd (Fin.ext ((h ▸ he.symm).trans hc))
  cases ran_of_exec hexec with
  | write ch e n v h he =>
    have hde : d ≠ e := hother (by obtain rfl | rfl := h <;> exact he)
    exact ⟨by rw [State.completed_chan, State.chan_wr, if_neg hde],
      fun k => by rw [State.completed_bit, State.bit_wr, if_neg (fun h => hde h.1)]⟩
  | writeRange ch e lo hi v h he hl =>
    have hde : d ≠ e := hother (by obtain rfl | rfl := h <;> exact he)
    exact ⟨by rw [State.completed_chan, State.chan_wrRange, if_neg hde],
      fun k => by rw [State.completed_bit, State.bit_wrRange s e d lo hi k v hl, if_neg (fun h => hde h.1)]⟩
  | reset ch e h he =>
    have hde : d ≠ e := hother (by rw [h]; exact he)
    exact ⟨by rw [State.completed_chan, State.chan_chReset, if_neg hde],
      fun k => by rw [State.completed_bit, State.bit_chReset s hwf, if_neg hde]⟩
  | replace ch h => rw [h] at huse; cases huse
  | bulk ch h => rw [h] at huse; cases huse
  | decoded e ts low _ he =>
    exact ⟨by rw [State.completed_chan, State.chan_appendTokens, if_neg (hother he)], fun _ => rfl⟩
  | overflowed e ts _ he =>
    exact ⟨by rw [State.aborted_chan, State.chan_appendTokens, if_neg (hother he)], fun _ => rfl⟩
  | _ => exact ⟨rfl, fun _ => rfl⟩

/-! ## LEN never shrinks (O31) -/

/-- `LEN[c] <- max(LEN[c], n)` for an index a word can hold (10_state.md R70). -/
theorem toNat_storeNat_max {w : Word} {n : Nat} (hn : n < 2 ^ 32) : (storeNat (max w.toNat n)).toNat = max w.toNat n :=
  toNat_storeNat (Nat.max_lt.2 ⟨w.isLt, hn⟩)

/-- LEN after `LEN[c] <- max(LEN[c], n)`. -/
theorem State.len_of_extended {s t : State} {c d : Chan} {n : Nat} (hn : n < 2 ^ 32)
    (ht : t.chan d = if d = c then { s.chan c with len := storeNat (max (s.len c) n) } else s.chan d) :
    t.len d = if d = c then max (s.len c) n else s.len d := by
  rw [State.len, ht]
  split
  · exact toNat_storeNat_max hn
  · rfl

theorem State.len_wr (s : State) (c d : Chan) {n : Nat} (v : Bool) (hn : n < 2 ^ 32) :
    (s.wr c n v).len d = if d = c then max (s.len c) n else s.len d :=
  State.len_of_extended hn (State.chan_wr s c d n v)

theorem State.len_wrRange (s : State) (c d : Chan) (lo : Nat) {hi : Nat} (v : Bool) (hn : hi < 2 ^ 32) :
    (s.wrRange c lo hi v).len d = if d = c then max (s.len c) hi else s.len d :=
  State.len_of_extended hn (State.chan_wrRange s c d lo hi v)

theorem State.len_bulkWrite (s : State) (d : Chan) {n : Nat} (x : Byte) (hn : n < 2 ^ 32) :
    (s.bulkWrite n x).len d = max (s.len d) n := by
  rw [State.len, State.chan_bulkWrite]
  exact toNat_storeNat_max hn

theorem State.len_chReset (s : State) (c d : Chan) : (s.chReset c).len d = if d = c then 0 else s.len d := by
  rw [State.len, State.chan_chReset]
  split <;> rfl

theorem State.len_bulkReplace (s : State) (d : Chan) : s.bulkReplace.len d = 0 := by
  rw [State.len, State.chan_bulkReplace]; rfl

/-- Settles O31: the writes take a maximum, and only the two commands that empty a channel write 0. -/
theorem lengthNeverShrinks : Obligations.LengthNeverShrinks := by
  unfold Obligations.LengthNeverShrinks
  intro i s t c hexec
  have hmax (d : Chan) (n : Nat) : s.len c ≤ if c = d then max (s.len d) n else s.len c := by
    split
    · next hd => rw [← hd]; exact Nat.le_max_left _ _
    · exact le_rfl
  cases ran_of_exec hexec with
  | write ch d n v h hc hn hw => exact .inl (by rw [State.completed_len, State.len_wr s d c v hw]; exact hmax d n)
  | writeRange ch d lo hi v h hc hl hn hw =>
    exact .inl (by rw [State.completed_len, State.len_wrRange s d c lo v hw]; exact hmax d hi)
  | bulk ch h hn =>
    refine .inl ?_
    change s.len c ≤ (s.bulkWrite s.blptr.toNat (byteOperand s.engine.a0)).len c
    rw [State.len_bulkWrite s c _ s.blptr.isLt]
    exact Nat.le_max_left _ _
  | reset ch d h hc =>
    rw [State.completed_len, State.len_chReset]
    by_cases hcd : c = d
    · exact .inr (.inl ⟨⟨ch, h, hcd ▸ hc⟩, if_pos hcd⟩)
    · exact .inl (by rw [if_neg hcd])
  | replace ch h hm => exact .inr (.inr ⟨⟨ch, h⟩, hm, State.len_bulkReplace s c⟩)
  | decoded d ts => exact .inl (State.len_appendTokens s d c ts).ge
  | overflowed d ts => exact .inl (State.len_appendTokens s d c ts).ge
  | _ => exact .inl le_rfl

/-! ## Decodes write only tokens (O33) -/

/-- The ways a decode ends. -/
theorem Ran.of_isDecode {i : Instr} {s t : State} (h : Ran i s t) (hdec : isDecode i) :
    (∃ e, e ≠ .ok ∧ t = s.aborted e) ∨ t = s.completed false false
      ∨ ∃ c ts, i.ch.toNat = c.val
          ∧ ((∃ low, t = (s.appendTokens c ts).completed false low) ∨ t = (s.appendTokens c ts).aborted .etokovf) := by
  obtain ⟨ch, hdec⟩ := hdec
  cases h with
  | stopped e he ho => exact .inl ⟨e, he, rfl⟩
  | nothing h => exact .inr (.inl rfl)
  | decoded c ts low h hc => exact .inr (.inr ⟨c, ts, hc, .inl ⟨low, rfl⟩⟩)
  | overflowed c ts h hc => exact .inr (.inr ⟨c, ts, hc, .inr rfl⟩)
  | _ => grind

/-- The records of a channel after records were appended to the channel CH names. -/
theorem State.chan_appendTokens_of_ch (s : State) {ch : BitVec 4} {c : Chan} (hc : ch.toNat = c.val) (ts : List Token)
    (d : Chan) : ∃ us, (s.appendTokens c ts).chan d = { s.chan d with tokens := (s.chan d).tokens ++ us }
      ∧ (ch.toNat ≠ d.val → us = []) := by
  rw [State.chan_appendTokens]
  by_cases hd : d = c
  · subst hd
    exact ⟨ts, if_pos rfl, fun h => absurd hc h⟩
  · exact ⟨[], by rw [if_neg hd, List.append_nil], fun _ => rfl⟩

/-- Settles O33: a decode aborts, completes, or does either after appending records to its channel. -/
theorem decodesWriteOnlyTokens : Obligations.DecodesWriteOnlyTokens := by
  unfold Obligations.DecodesWriteOnlyTokens
  intro i s t hdec hexec
  obtain ⟨e, he, rfl⟩ | rfl | ⟨c, ts, hc, ⟨low, rfl⟩ | rfl⟩ := (ran_of_exec hexec).of_isDecode hdec
  · refine ⟨?_, fun d => ⟨[], by rw [List.append_nil]; rfl, fun _ => rfl⟩⟩
    rw [if_neg (show (s.aborted e).status.err ≠ .ok from he)]; rfl
  · exact ⟨rfl, fun d => ⟨[], by rw [List.append_nil]; rfl, fun _ => rfl⟩⟩
  · exact ⟨rfl, s.chan_appendTokens_of_ch hc ts⟩
  · exact ⟨rfl, s.chan_appendTokens_of_ch hc ts⟩

end Sys2Proof.Machine
end

section
/-! What the bus reads and writes at each listed address, and the two resets: O50, O51, O53, O54, O57, O58 and O59. -/

namespace Sys2Proof.Machine

/-! ## Words made of fields -/

/-- Fields side by side are a sum, the upper one scaled by the width of the lower. -/
theorem toNat_append_fields {m n : Nat} (x : BitVec m) (y : BitVec n) :
    (x ++ y).toNat = 2 ^ n * x.toNat + y.toNat := by
  rw [BitVec.toNat_append, ← Nat.shiftLeft_add_eq_or_of_lt y.isLt, Nat.shiftLeft_eq, Nat.mul_comm]

theorem toNat_ofBool (b : Bool) : (BitVec.ofBool b).toNat = b.toNat := by cases b <;> rfl

/-- A word is the number its fields make. -/
theorem eq_ofNat_of_toNat {w : Word} {n : Nat} (h : w.toNat = n) : w = BitVec.ofNat 32 n := by
  rw [← h, BitVec.ofNat_toNat, BitVec.setWidth_eq]

theorem Params.word_eq (p : Params) :
    Params.word p = BitVec.ofNat 32 (8 + 16 * p.hasOw.toNat + 32 * p.stopEdgeCheck.toNat) := by
  apply eq_ofNat_of_toNat
  simp only [Params.word, toNat_append_fields, toNat_ofBool, BitVec.toNat_ofNat]
  omega

theorem ctrlWord_eq (ie : Bool) : ctrlWord ie = BitVec.ofNat 32 ie.toNat := by cases ie <;> rfl

theorem Status.toWord_eq (f : Status) :
    f.toWord = BitVec.ofNat 32 (f.busy.toNat + 2 * f.done.toNat + 4 * f.found.toNat + 8 * f.lowrate.toNat
      + 16 * f.coll.toNat + 256 * f.err.code.toNat) := by
  apply eq_ofNat_of_toNat
  simp only [Status.toWord, toNat_append_fields, toNat_ofBool, BitVec.toNat_ofNat]
  omega

theorem Cfg.toWord_eq (f : Cfg) :
    f.toWord = BitVec.ofNat 32 (f.proto.toNat + 16 * f.parity.toNat + 64 * f.ninebit.toNat + 128 * f.twostop.toNat
      + 256 * f.cpha.toNat + 512 * f.cpol.toNat + 4096 * f.clksrc.toNat) := by
  apply eq_ofNat_of_toNat
  simp only [Cfg.toWord, toNat_append_fields, toNat_ofBool, BitVec.toNat_ofNat]
  omega

theorem State.chstat_eq (s : State) (c : Chan) :
    s.chstat c = BitVec.ofNat 32 ((if (s.chan c).cfg.proto = 2 ∨ (s.chan c).cfg.proto = 3 then 1 else 0)
      + (if (s.chan c).tokens.length = s.params.tokcap then 2 else 0)) := by
  have hclk : (s.chan c).cfg.hasClk = decide ((s.chan c).cfg.proto = 2 ∨ (s.chan c).cfg.proto = 3) := by
    simp only [Cfg.hasClk, Bool.decide_or, beq_eq_decide]
  apply eq_ofNat_of_toNat
  simp only [State.chstat, toNat_append_fields, toNat_ofBool, BitVec.toNat_ofNat, hclk, State.tokcnt, beq_eq_decide]
  split <;> split <;> simp_all

/-! ## Reads while no command runs (O50) -/

theorem readNow_of_idle {s : State} (hidle : s.status.busy = false) (r : Reg) : s.readNow r = s.regValue r := by
  rw [State.readNow, hidle]; rfl

/-- While no command runs a listed address reads as its register's value. -/
theorem readsAs_of_idle {s : State} (hidle : s.status.busy = false) {a : Addr} {r : Reg} {v : Word}
    (hr : regAt s.params.tokcap a = .ok r) (hv : s.regValue r = some v) : ReadsAs s a v :=
  readsAs_of hr ((readNow_of_idle hidle r).trans hv)

/-- The words of a stored record. -/
theorem readsAs_record {s : State} (hidle : s.status.busy = false) {c : Chan} {t : Nat} {r : Token}
    (ht : t < s.params.tokcap) (ht' : t < 4096) (hr : (s.chan c).tokens[t]? = some r) (w : Fin 4) :
    ReadsAs s (BitVec.ofNat 20 (0x10000 * (c.val + 1) + 16 * t + 4 * w.val)) (r.word w) :=
  readsAs_of_idle hidle (regAt_tok _ c t w ht ht') (by rw [State.regValue, hr]; rfl)

/-- Settles O50: the address map names the register, and its word is the sum of its fields. -/
theorem registerMapReads : Obligations.RegisterMapReads := by
  unfold Obligations.RegisterMapReads
  intro s hidle
  have hreads {a : Addr} {r : Reg} {v : Word} (hr : regAt s.params.tokcap a = .ok r) (hv : s.regValue r = some v) :
      ReadsAs s a v := readsAs_of_idle hidle hr hv
  have hstatus : s.status.toWord = BitVec.ofNat 32 (2 * s.status.done.toNat + 4 * s.status.found.toNat
      + 8 * s.status.lowrate.toNat + 16 * s.status.coll.toNat + 256 * s.status.err.code.toNat) := by
    rw [Status.toWord_eq, hidle, Bool.toNat_false, Nat.zero_add]
  refine ⟨hreads (regAt_id _) rfl, hreads (regAt_capr _) rfl, hreads (regAt_params _) (congrArg some (Params.word_eq _)),
    hreads (regAt_tokcapr _) rfl, hreads (regAt_ctrl _) (congrArg some (ctrlWord_eq _)),
    hreads (regAt_status _) (congrArg some hstatus), hreads (regAt_cmd _) rfl, hreads (regAt_arg0 _) rfl,
    hreads (regAt_arg1 _) rfl, hreads (regAt_res0 _) rfl, hreads (regAt_res1 _) rfl, hreads (regAt_errcmd _) rfl,
    hreads (regAt_blptr _) rfl, fun c => ?_⟩
  refine ⟨hreads (regAt_cfg _ c) (congrArg some (Cfg.toWord_eq _)), hreads (regAt_baud _ c) rfl,
    hreads (regAt_rate _ c) rfl, hreads (regAt_len _ c) rfl, hreads (regAt_tokcnt _ c) rfl,
    hreads (regAt_chstat _ c) (congrArg some (State.chstat_eq s c)), fun t r ht ht' hr => ?_⟩
  exact ⟨readsAs_record hidle ht ht' hr 0, readsAs_record hidle ht ht' hr 1, readsAs_record hidle ht ht' hr 2,
    readsAs_record hidle ht ht' hr 3⟩

/-! ## Reads while a command runs (O51) -/

/-- A read at one address of one state gives one word. -/
theorem ReadsAs.unique {s : State} {a : Addr} {v w : Word} (hv : ReadsAs s a v) (hw : ReadsAs s a w)
    (hrst : s.rstN = true) : v = w := by
  have h := (hv hrst []).symm.trans (hw hrst [])
  simpa only [Host.Outcome.next.injEq, State.mk.injEq, Option.some.injEq, Response.data.injEq, true_and, and_true]
    using h

/-- What the host alone writes has a value at any time. -/
theorem regValue_of_not_volatile (s : State) {r : Reg} (h : r.volatile = false) : ∃ v, s.regValue r = some v := by
  cases r with
  | tok c t w => cases h
  | _ => exact ⟨_, rfl⟩

theorem readNow_of_not_volatile (s : State) {r : Reg} (h : r.volatile = false) : s.readNow r = s.regValue r := by
  rw [State.readNow, h, Bool.and_false]; rfl

theorem readNow_of_volatile {s : State} (hbusy : s.status.busy = true) {r : Reg} (h : r.volatile = true) :
    s.readNow r = none := by
  rw [State.readNow, hbusy, h]; rfl

/-- Of the registers that a running command leaves alone only STATUS shows BUSY. -/
theorem regValue_busy (s : State) {r : Reg} (hr : r ≠ .status) (b : Bool) :
    State.regValue { s with status := { s.status with busy := b } } r = s.regValue r := by
  cases r with
  | status => exact absurd rfl hr
  | _ => rfl

/-- A register other than STATUS that is not volatile reads alike whether or not a command runs. -/
theorem readsAs_of_readsAs_idle {s : State} (hrst : s.rstN = true) {a : Addr} {r : Reg} {v : Word}
    (hr : regAt s.params.tokcap a = .ok r) (hvol : r.volatile = false) (hstatus : r ≠ .status)
    (h : ReadsAs { s with status := { s.status with busy := false } } a v) : ReadsAs s a v := by
  obtain ⟨w, hw⟩ := regValue_of_not_volatile s hvol
  have hidle : ReadsAs { s with status := { s.status with busy := false } } a w :=
    readsAs_of_idle rfl hr ((regValue_busy s hstatus false).trans hw)
  have hbusy : ReadsAs s a w := readsAs_of hr ((readNow_of_not_volatile s hvol).trans hw)
  have hvw : v = w := h.unique hidle hrst
  exact hvw ▸ hbusy

/-- Where a register that a running command leaves alone answers: below RES0, and at CFG, BAUD and RATE. -/
theorem addr_of_not_volatile {r : Reg} (h : r.volatile = false) :
    r.addr.toNat ≤ 0x20 ∨ (0x100 ≤ r.addr.toNat ∧ r.addr.toNat < 0x200 ∧ r.addr.toNat % 0x20 < 0xC) := by
  cases r with
  | cfg c | baud c | rate c => exact .inr (by revert c; decide)
  | res0 | res1 | errcmd | blptr | len | tokcnt | chstat | tok => cases h
  | _ => exact .inl (by decide)

/-- The addresses whose reads are open while a command runs (70_reset_and_hazards.md R712) name volatile registers. -/
theorem readsFree_of_busy {s : State} (hrst : s.rstN = true) (hbusy : s.status.busy = true) {a : Addr}
    (ha : a.toNat ∈ [0x24, 0x28, 0x2C, 0x30] ∨ (ListedRegister a.toNat ∧ 0x100 ≤ a.toNat ∧ 0xC ≤ a.toNat % 0x20)
      ∨ ListedTokenWord s.params.tokcap a.toNat) : ReadsFree s a := by
  have hlisted : ListedRegister a.toNat ∨ ListedTokenWord s.params.tokcap a.toNat := by
    obtain hres | ⟨hreg, _⟩ | htok := ha
    · simp only [List.mem_cons, List.not_mem_nil, or_false] at hres
      unfold ListedRegister
      omega
    · exact .inl hreg
    · exact .inr htok
  obtain ⟨r, hr⟩ := (regAt_ok_iff _ a).2 hlisted
  have hvol : r.volatile = true := by
    by_contra hno
    have haddr := addr_of_not_volatile (Bool.eq_false_iff.2 hno)
    rw [addr_of_regAt hr] at haddr
    simp only [List.mem_cons, List.not_mem_nil, or_false, ListedTokenWord] at ha
    omega
  exact readsFree_of hrst hr (readNow_of_volatile hbusy hvol)

/-- A record at or above TOKCNT holds nothing (10_state.md R76). -/
theorem readsFree_of_tokcnt_le {s : State} (hrst : s.rstN = true) {c : Chan} {t : Nat} (w : Fin 4) (hfree : s.tokcnt c ≤ t)
    (ht : t < s.params.tokcap) (ht' : t < 4096) :
    ReadsFree s (BitVec.ofNat 20 (0x10000 * (c.val + 1) + 16 * t + 4 * w.val)) := by
  refine readsFree_of hrst (regAt_tok _ c t w ht ht') ?_
  have hnone : s.regValue (.tok c t w) = none := by
    rw [State.regValue, List.getElem?_eq_none hfree]; rfl
  rw [State.readNow, hnone, ite_self]

/-- The registers that a running command leaves alone, but for STATUS, and the addresses they answer at. -/
theorem regAt_of_quietAddress (n : Nat) {a : Addr} (h : a.toNat ∈ [0x00, 0x04, 0x08, 0x0C, 0x10] ∨ GuardedAddress a.toNat) :
    ∃ r, regAt n a = .ok r ∧ r.volatile = false ∧ r ≠ .status := by
  obtain hconst | hguarded := h
  · have addr_eq {x : Nat} (hx : a.toNat = x) : a = BitVec.ofNat 20 x := by
      rw [← hx, BitVec.ofNat_toNat, BitVec.setWidth_eq]
    simp only [List.mem_cons, List.not_mem_nil, or_false] at hconst
    obtain hid | hparams | hcap | htokcap | hctrl := hconst
    · exact ⟨.id, addr_eq hid ▸ regAt_id n, rfl, nofun⟩
    · exact ⟨.params, addr_eq hparams ▸ regAt_params n, rfl, nofun⟩
    · exact ⟨.capr, addr_eq hcap ▸ regAt_capr n, rfl, nofun⟩
    · exact ⟨.tokcapr, addr_eq htokcap ▸ regAt_tokcapr n, rfl, nofun⟩
    · exact ⟨.ctrl, addr_eq hctrl ▸ regAt_ctrl n, rfl, nofun⟩
  · obtain ⟨r, hr, hg⟩ := regAt_of_guardedAddress n hguarded
    cases r with
    | cmd | arg0 | arg1 | cfg _ | baud _ | rate _ => exact ⟨_, hr, rfl, nofun⟩
    | _ => cases hg

/-- BUSY is bit 0 of STATUS (10_state.md R56). -/
theorem Status.toWord_busy {f : Status} (hbusy : f.busy = true) :
    f.toWord = Status.toWord { f with busy := false } ||| 1 := by
  have hlow (x : BitVec 31) : (x ++ BitVec.ofBool true : BitVec 32) = (x ++ BitVec.ofBool false : BitVec 32) ||| 1 := by
    apply BitVec.eq_of_getLsbD_eq
    intro i hi
    simp only [BitVec.getLsbD_append, BitVec.getLsbD_or, BitVec.getLsbD_ofBool]
    cases i <;> simp [BitVec.getLsbD_one]
  rw [Status.toWord, hbusy]
  exact hlow _

/-- Settles O51: what is read follows from whether the register is volatile, and that from its address. -/
theorem unspecifiedReadsAreFree : Obligations.UnspecifiedReadsAreFree := by
  unfold Obligations.UnspecifiedReadsAreFree
  intro s hrst
  refine ⟨fun hbusy => ⟨fun a v ha h => ?_, fun v h => ?_, fun a => readsFree_of_busy hrst hbusy⟩,
    fun c t w => readsFree_of_tokcnt_le hrst w⟩
  · obtain ⟨r, hr, hvol, hstatus⟩ := regAt_of_quietAddress s.params.tokcap ha
    exact readsAs_of_readsAs_idle hrst hr hvol hstatus h
  · have hidle : ReadsAs { s with status := { s.status with busy := false } } 0x14#20
        (Status.toWord { s.status with busy := false }) := readsAs_of_idle rfl (regAt_status _) rfl
    have hv : v = Status.toWord { s.status with busy := false } := h.unique hidle hrst
    rw [hv, ← Status.toWord_busy hbusy]
    exact readsAs_of (regAt_status _) (readNow_of_not_volatile s rfl)

/-! ## Writes (O53, O54) -/

theorem busWrite_of_listed {s : State} {a : Addr} {r : Reg} (v : Word) (hr : regAt s.params.tokcap a = .ok r)
    (ha : ListedRegister a.toNat) : s.busWrite a v = (s.writeReg r v).respond .done := by
  rw [busWrite_of_ok v hr, inTokenWindow_of_listedRegister ha, if_neg Bool.false_ne_true]

theorem whenIdle_of_idle {s : State} (t : State) (hidle : s.status.busy = false) : s.whenIdle t = t :=
  if_neg (Bool.eq_false_iff.1 hidle)

/-- A write to a guarded register with no command running stores what its row says. -/
theorem step_write_idle {s : State} {a : Addr} {v : Word} {rest : List Input} {r : Reg} {t : State}
    (hnext : NextInput s (.write a v) rest) (hidle : s.status.busy = false) (hr : regAt s.params.tokcap a = .ok r)
    (ha : ListedRegister a.toNat)
    (ht : State.writeReg { s with inputs := rest } r v = State.whenIdle { s with inputs := rest } t) :
    step s = .next (t.respond .done) := by
  rw [step_write hnext, busWrite_of_listed (s := { s with inputs := rest }) v hr ha, ht,
    whenIdle_of_idle (s := { s with inputs := rest }) t hidle]

/-- The addresses of CFG, BAUD and RATE are in the register page (20_memory.md R155). -/
theorem listedRegister_channel (c : Chan) {k : Nat} (hk : k ∈ [0, 4, 8]) :
    ListedRegister (BitVec.ofNat 20 (0x100 + 0x20 * c.val + k)).toNat := by
  simp only [List.mem_cons, List.not_mem_nil, or_false] at hk
  rw [BitVec.toNat_ofNat]
  unfold ListedRegister
  omega

/-- CFG reads back what was written, with the reserved bits 0 (10_state.md R64, R65). -/
theorem Cfg.toWord_ofWord (v : Word) : (Cfg.ofWord v).toWord = v &&& 0x0000F3F7#32 := by
  apply BitVec.eq_of_getLsbD_eq
  intro i hi
  simp only [Cfg.toWord, Cfg.ofWord, BitVec.getLsbD_append, BitVec.getLsbD_and, BitVec.getLsbD_extractLsb',
    BitVec.getLsbD_ofBool]
  interval_cases i <;> simp

/-- Settles O53: each write reaches its register's row, which stores since nothing runs. -/
theorem idleWritesAreStored : Obligations.IdleWritesAreStored := by
  unfold Obligations.IdleWritesAreStored
  intro s v rest hidle
  refine ⟨fun hnext => step_write_idle hnext hidle (regAt_arg0 _) ⟨rfl, .inl (by decide)⟩ rfl,
    fun hnext => step_write_idle hnext hidle (regAt_arg1 _) ⟨rfl, .inl (by decide)⟩ rfl,
    fun c => ⟨fun hnext => ?_, fun hnext => ?_,
    fun hnext => ⟨Cfg.ofWord v, ?_, fun u hu hcfg => ?_⟩⟩⟩
  · exact step_write_idle hnext hidle (regAt_baud _ c) (listedRegister_channel c (by decide)) rfl
  · exact step_write_idle hnext hidle (regAt_rate _ c) (listedRegister_channel c (by decide)) rfl
  · exact step_write_idle hnext hidle (regAt_cfg _ c) (listedRegister_channel c (k := 0) (by decide)) rfl
  · refine readsAs_of_idle hu (regAt_cfg _ c) ?_
    rw [State.regValue, hcfg, Cfg.toWord_ofWord]

/-- The registers that no write changes (10_state.md R64). -/
def Reg.isReadOnly : Reg → Bool
  | .ctrl | .status | .cmd | .arg0 | .arg1 | .cfg _ | .baud _ | .rate _ => false
  | _ => true

theorem writeReg_of_isReadOnly (s : State) {r : Reg} (v : Word) (h : r.isReadOnly = true) : s.writeReg r v = s := by
  cases r with
  | ctrl | status | cmd | arg0 | arg1 | cfg | baud | rate => cases h
  | _ => rfl

theorem addr_of_not_isReadOnly {r : Reg} (h : r.isReadOnly = false) : ¬ ReadOnlyAddress r.addr.toNat := by
  have hchannel (c : Chan) {k : Nat} (hk : k ∈ [0, 4, 8]) :
      ¬ ReadOnlyAddress (BitVec.ofNat 20 (0x100 + 0x20 * c.val + k)).toNat := by
    simp only [List.mem_cons, List.not_mem_nil, or_false] at hk
    rw [BitVec.toNat_ofNat, ReadOnlyAddress]
    simp only [List.mem_cons, List.not_mem_nil, or_false, not_or, not_exists]
    refine ⟨by omega, fun d => ?_⟩
    omega
  cases r with
  | ctrl | status | cmd | arg0 | arg1 => simp [ReadOnlyAddress, Reg.addr]; omega
  | cfg c => exact hchannel c (k := 0) (by decide)
  | baud c => exact hchannel c (by decide)
  | rate c => exact hchannel c (by decide)
  | _ => cases h

theorem listedRegister_of_readOnlyAddress {a : Nat} (h : ReadOnlyAddress a) : ListedRegister a := by
  unfold ListedRegister
  obtain hglobal | ⟨c, hchannel⟩ := h
  · simp only [List.mem_cons, List.not_mem_nil, or_false] at hglobal
    omega
  · omega

theorem busWrite_readOnly (s : State) {a : Addr} (v : Word) (h : ReadOnlyAddress a.toNat) :
    s.busWrite a v = s.respond .done := by
  have hlisted := listedRegister_of_readOnlyAddress h
  obtain ⟨r, hr⟩ := (regAt_ok_iff s.params.tokcap a).2 (.inl hlisted)
  have hro : r.isReadOnly = true := by
    by_contra hno
    exact addr_of_not_isReadOnly (Bool.eq_false_iff.2 hno) (by rwa [addr_of_regAt hr])
  rw [busWrite_of_listed v hr hlisted, writeReg_of_isReadOnly s v hro]

/-- The bits of a STATUS write that are 1 clear their flags (10_state.md R56). -/
theorem and_not_eq_ite (f b : Bool) : (f && !b) = if b = true then false else f := by cases b <;> simp

/-- Settles O54: CTRL, STATUS and the read-only registers do not ask whether a command runs. -/
theorem controlWritesActAtOnce : Obligations.ControlWritesActAtOnce := by
  unfold Obligations.ControlWritesActAtOnce
  intro s v rest
  refine ⟨fun hnext hv => ?_, fun hnext => ?_, fun a ha hnext => ?_⟩
  · rw [step_write hnext, busWrite_ctrl_ie _ hv]; rfl
  · rw [step_write hnext, busWrite_status, Status.hostWrite, and_not_eq_ite, and_not_eq_ite]; rfl
  · rw [step_write hnext, busWrite_readOnly _ v ha]; rfl

/-! ## Reset (O57 to O59) -/

/-- Settles O57: the two halves of a CTRL write. -/
theorem softResetGivesTheResetState : Obligations.SoftResetGivesTheResetState := by
  unfold Obligations.SoftResetGivesTheResetState
  intro s v rest hnext
  refine ⟨fun hv => ?_, fun hv => ?_⟩
  · rw [step_write hnext, busWrite_ctrl_srst _ hv]
    exact congrArg (fun b => Host.Outcome.next
      { State.resetOf s.params with rstN := b, inputs := rest, resp := some .done, freeCount := s.freeCount }) hnext.1
  · rw [step_write hnext, busWrite_ctrl_ie _ hv]; rfl

/-- Settles O58: the pin taking its low level, and `step_held` for every input while it is low. -/
theorem resetPinHoldsTheResetState : Obligations.ResetPinHoldsTheResetState := by
  unfold Obligations.ResetPinHoldsTheResetState
  refine fun s rest => ⟨fun hnext => ?_, fun x hlow hinputs => step_held hlow hinputs⟩
  rw [step_rstN hnext, setRstN_false]; rfl

theorem State.chan_resetOf (p : Params) (c : Chan) : (State.resetOf p).chan c = Channel.reset := by
  simp only [State.chan, State.resetOf, Fin.getElem_fin, Vector.getElem_replicate]

/-- Settles O59: the reset state is idle, so each address reads as its register's reset value, and no record is stored. -/
theorem resetValuesAsRead : Obligations.ResetValuesAsRead := by
  unfold Obligations.ResetValuesAsRead
  intro p
  have hreads {a : Addr} {r : Reg} {v : Word} (hr : regAt p.tokcap a = .ok r)
      (hv : (State.resetOf p).regValue r = some v) : ReadsAs (State.resetOf p) a v := readsAs_of_idle rfl hr hv
  refine ⟨rfl, rfl, hreads (regAt_id _) rfl, hreads (regAt_capr _) rfl, hreads (regAt_tokcapr _) rfl,
    hreads (regAt_params _) (congrArg some (Params.word_eq p)), fun a ha => ?_, fun c => ?_, fun c i => BitVec.getLsbD_zero⟩
  · have addr_eq {x : Nat} (hx : a.toNat = x) : a = BitVec.ofNat 20 x := by
      rw [← hx, BitVec.ofNat_toNat, BitVec.setWidth_eq]
    simp only [List.mem_cons, List.not_mem_nil, or_false] at ha
    obtain h | h | h | h | h | h | h | h | h := ha
    · exact addr_eq h ▸ hreads (regAt_ctrl _) (congrArg some (ctrlWord_eq false))
    · exact addr_eq h ▸ hreads (regAt_status _) (congrArg some (Status.toWord_eq Status.reset))
    · exact addr_eq h ▸ hreads (regAt_cmd _) rfl
    · exact addr_eq h ▸ hreads (regAt_arg0 _) rfl
    · exact addr_eq h ▸ hreads (regAt_arg1 _) rfl
    · exact addr_eq h ▸ hreads (regAt_res0 _) rfl
    · exact addr_eq h ▸ hreads (regAt_res1 _) rfl
    · exact addr_eq h ▸ hreads (regAt_errcmd _) rfl
    · exact addr_eq h ▸ hreads (regAt_blptr _) rfl
  · have hc := State.chan_resetOf p c
    refine ⟨hreads (regAt_cfg _ c) ?_, hreads (regAt_baud _ c) ?_, hreads (regAt_rate _ c) ?_, hreads (regAt_len _ c) ?_,
      hreads (regAt_tokcnt _ c) ?_, fun t w ht ht' => readsFree_of_tokcnt_le rfl w ?_ ht ht'⟩
    · rw [State.regValue, hc]; rfl
    · rw [State.regValue, hc]; rfl
    · rw [State.regValue, hc]; rfl
    · rw [State.regValue, hc]; rfl
    · rw [State.regValue, State.tokcnt, hc]; rfl
    · rw [State.tokcnt, hc]; exact Nat.zero_le t

end Sys2Proof.Machine
end

section
/-! The edge searches as 41_sample_buffer.md R283 describes them (O27), CHRESET (O25), the dispatch of DECODE (O43), and the
two measurements of 43_clock.md (O45, O46). -/

namespace Sys2Proof.Machine

/-! ## Edges by neighbouring samples (O27) -/

/-- The places after `start` where the level of channel `c` goes from `before` to its opposite. -/
def edgesAfter (s : State) (c : Chan) (before : Bool) (start : Nat) : Set Nat :=
  { k | start < k ∧ k < s.len c ∧ s.get c (k - 1) = before ∧ s.get c k = !before }

/-- What the two sets of R280 define is the first change of level. -/
theorem EdgeFound.isLeast {s : State} {c : Chan} {before : Bool} {start j : Nat} (h : EdgeFound s c before start j) :
    IsLeast (edgesAfter s c before start) j := by
  obtain ⟨i, ⟨⟨hsi, hil, hi⟩, hileast⟩, ⟨⟨hij, hjl, hj⟩, hjleast⟩⟩ := h
  refine ⟨⟨by omega, hjl, ?_, hj⟩, fun k hk => ?_⟩
  · by_cases hprev : j - 1 = i
    · rw [hprev, hi]
    · by_contra hne
      have hle := hjleast (show j - 1 ∈ _ from ⟨by omega, by omega, by cases before <;> simp_all⟩)
      omega
  · obtain ⟨hsk, hkl, hk1, hk2⟩ := hk
    have hle := hileast (show k - 1 ∈ _ from ⟨by omega, by omega, hk1⟩)
    exact hjleast ⟨by omega, hkl, hk2⟩

theorem exists_isLeast {S : Set Nat} {k : Nat} (h : k ∈ S) : ∃ j, IsLeast S j := by
  classical
  exact ⟨Nat.find ⟨k, h⟩, Nat.find_spec ⟨k, h⟩, fun _ hm => Nat.find_min' ⟨k, h⟩ hm⟩

theorem edgeFound_iff {s : State} {c : Chan} {before : Bool} {start j : Nat} :
    EdgeFound s c before start j ↔ IsLeast (edgesAfter s c before start) j := by
  refine ⟨EdgeFound.isLeast, fun h => ?_⟩
  obtain ⟨hsj, hjl, hj1, hj2⟩ := h.1
  have hprev : j - 1 ∈ { k | start ≤ k ∧ k < s.len c ∧ s.get c k = before } := ⟨by omega, by omega, hj1⟩
  obtain ⟨i, hi⟩ := exists_isLeast hprev
  have hij : j ∈ { k | i < k ∧ k < s.len c ∧ s.get c k = !before } :=
    ⟨by have := hi.2 hprev; omega, hjl, hj2⟩
  obtain ⟨j', hj'⟩ := exists_isLeast hij
  have hfound : EdgeFound s c before start j' := ⟨i, hi, hj'⟩
  rw [h.unique hfound.isLeast]
  exact hfound

/-- The same set with an integer start, as R283 writes it. -/
theorem edgesAfter_toNat (s : State) (c : Chan) (before : Bool) {start : Int} (h : 0 ≤ start) :
    edgesAfter s c before start.toNat
      = { k : Nat | start < (k : Int) ∧ k < s.len c ∧ s.get c (k - 1) = before ∧ s.get c k = !before } := by
  ext k
  have hlt : start.toNat < k ↔ start < (k : Int) := by omega
  simp only [edgesAfter, Set.mem_ofPred_eq, hlt]

/-- A search depends only on LEN and the samples below it (R283 point 5). -/
theorem EdgeFound.congr {s u : State} {c : Chan} (hlen : u.len c = s.len c)
    (hget : ∀ k, k < s.len c → u.get c k = s.get c k) (before : Bool) (start j : Nat) :
    EdgeFound u c before start j ↔ EdgeFound s c before start j := by
  have hset : edgesAfter u c before start = edgesAfter s c before start := by
    ext k
    simp only [edgesAfter, Set.mem_ofPred_eq, hlen]
    refine and_congr_right fun _ => and_congr_right fun hk => ?_
    rw [hget k hk, hget (k - 1) (by omega)]
  rw [edgeFound_iff, edgeFound_iff, hset]

theorem edgeFrom_congr {s u : State} {c : Chan} (hlen : u.len c = s.len c)
    (hget : ∀ k, k < s.len c → u.get c k = s.get c k) (before : Bool) (start : Nat) :
    u.edgeFrom c before start = s.edgeFrom c before start := by
  ext j
  rw [edgeFrom_eq_some, edgeFrom_eq_some]
  exact EdgeFound.congr hlen hget before start j

theorem nextEdge_congr {s u : State} {c : Chan} (hlen : u.len c = s.len c)
    (hget : ∀ k, k < s.len c → u.get c k = s.get c k) (start : Int) :
    u.nfe c start = s.nfe c start ∧ u.nre c start = s.nre c start := by
  unfold State.nfe State.nre State.nfeNat State.nreNat
  rw [edgeFrom_congr hlen hget, edgeFrom_congr hlen hget]
  exact ⟨rfl, rfl⟩

theorem pulse_congr {s u : State} {c : Chan} (hlen : u.len c = s.len c)
    (hget : ∀ k, k < s.len c → u.get c k = s.get c k) (start : Int) : u.pulse c start = s.pulse c start := by
  unfold State.pulse State.nfeNat
  simp only [(nextEdge_congr hlen hget start).2, edgeFrom_congr hlen hget]

/-- Between an edge and the next one the level stays (R283 point 4). -/
theorem EdgeFound.level {s : State} {c : Chan} {before : Bool} {start j k : Nat} (h : EdgeFound s c before start j)
    (hstart : s.get c start = before) (hk : start ≤ k) (hkj : k < j) : s.get c k = before := by
  obtain ⟨i, ⟨⟨hsi, hil, hi⟩, hileast⟩, ⟨⟨hij, hjl, hj⟩, hjleast⟩⟩ := h
  have his : i = start := Nat.le_antisymm (hileast ⟨le_rfl, by omega, hstart⟩) hsi
  by_cases hki : k = i
  · rw [hki, hi]
  · by_contra hne
    have hle := hjleast (show k ∈ _ from ⟨by omega, by omega, by cases before <;> simp_all⟩)
    omega

/-- Near the end of the samples there is no edge left to find (R283 point 3). -/
theorem nextEdge_of_end {s : State} {c : Chan} {start : Int} (h : (s.len c : Int) - 1 ≤ start) (before : Bool) :
    ¬ (0 ≤ start ∧ ∃ j, EdgeFound s c before start.toNat j) := by
  rintro ⟨h0, j, hj⟩
  have hb := hj.bounds
  omega

/-- Settles O27: R280's sets define the first change of level, and the five points follow from it. -/
theorem edgeSearchProperties : Obligations.EdgeSearchProperties := by
  unfold Obligations.EdgeSearchProperties
  intro s c
  refine ⟨fun start j => ?_, fun start j => ?_, fun start hend => ?_, fun start p hp => ?_, fun u start hlen hget => ?_⟩
  · rw [nfe_eq_some, edgeFound_iff]
    exact and_congr_right fun h0 => by rw [edgesAfter_toNat s c true h0]; rfl
  · rw [nre_eq_some, edgeFound_iff]
    exact and_congr_right fun h0 => by rw [edgesAfter_toNat s c false h0]; rfl
  · refine ⟨nextEdge_eq_none (falling := true).2 (nextEdge_of_end hend true),
      nextEdge_eq_none (falling := false).2 (nextEdge_of_end hend false), pulse_eq_none.2 ?_⟩
    rintro ⟨h0, r, f, hr, _⟩
    exact nextEdge_of_end hend false ⟨h0, r, hr⟩
  · obtain ⟨h0, ⟨hrise, hfall⟩, hmid⟩ := pulse_eq_some.1 hp
    have hr := hrise.bounds
    have hf := hfall.bounds
    refine ⟨fun _ => by omega, fun _ => by omega, by omega, hf.1, hf.2.1, fun k => hfall.level hr.2.2⟩
  · obtain ⟨hnfe, hnre⟩ := nextEdge_congr hlen hget start
    exact ⟨hnfe, hnre, pulse_congr hlen hget start⟩

/-! ## CHRESET (O25) -/

theorem setBit_false_idem (x : Byte) (c : Chan) : setBit (setBit x c false) c false = setBit x c false := by
  apply byte_ext
  intro d
  rw [getLsbD_setBit, getLsbD_setBit]
  split <;> rfl

/-- Clearing a channel that is clear changes nothing. -/
theorem Memory.clearChan_idem (c : Chan) (m : Memory) :
    Memory.clearChan c (Memory.clearChan c m) = Memory.clearChan c m := by
  unfold Memory.clearChan
  rw [List.filterMap_filterMap]
  congr 1
  funext p
  by_cases hz : setBit p.2 c false = 0#8
  · simp [hz]
  · simp [hz, setBit_false_idem]

theorem State.chReset_chReset (s : State) (c : Chan) : (s.chReset c).chReset c = s.chReset c := by
  unfold State.chReset
  simp only [State.chan_setChan_self, State.setChan_samples, Memory.clearChan_idem]
  exact State.setChan_setChan { s with samples := s.samples.clearChan c } c _ _

theorem exec_chreset {ch : BitVec 4} {c : Chan} (hc : ch.toNat = c.val) (s : State) :
    exec (.chreset ch) s = .next ((s.chReset c).completed false false) := withChannel_pass hc s _

/-- Settles O25: the state is the one after `chReset`, and clearing twice is clearing once. -/
theorem chresetEmptiesTheChannel : Obligations.ChresetEmptiesTheChannel := by
  unfold Obligations.ChresetEmptiesTheChannel
  refine ⟨fun ch => encode_toNat (.chreset ch), checksChannel_of_base, fun s ch c hc hwf => ?_⟩
  refine ⟨(s.chReset c).completed false false, exec_chreset hc s, rfl, fun d i => State.bit_chReset s hwf c d i,
    fun d => State.chan_chReset s c d, ?_⟩
  calc exec (.chreset ch) ((s.chReset c).completed false false)
      = .next ((((s.chReset c).chReset c).completed false false)) := exec_chreset hc _
    _ = .next ((s.chReset c).completed false false) := by rw [State.chReset_chReset]

/-! ## DECODE (O43) -/

theorem exec_decode {ch : BitVec 4} {c : Chan} (hc : ch.toNat = c.val) (s : State) :
    exec (.decode ch) s = decodeByTag c s := withChannel_pass hc s _

theorem exec_decUart {ch : BitVec 4} {c : Chan} (hc : ch.toNat = c.val) (s : State) :
    exec (.decUart ch) s = decodeUart c s := withChannel_pass hc s _

theorem exec_decI2c {ch : BitVec 4} {c : Chan} (hc : ch.toNat = c.val) (s : State) :
    exec (.decI2c ch) s = decodeI2c c s := withChannel_pass hc s _

theorem exec_decSpi {ch : BitVec 4} {c : Chan} (hc : ch.toNat = c.val) (s : State) :
    exec (.decSpi ch) s = decodeSpi c s := withChannel_pass hc s _

/-- Settles O43: each PROTO is one row of `decodeByTag`. -/
theorem decodeDispatchesOnProto : Obligations.DecodeDispatchesOnProto := by
  unfold Obligations.DecodeDispatchesOnProto
  refine ⟨fun ch => encode_toNat (.decode ch), checksChannel_of_base, fun s ch c hc => ?_⟩
  rw [exec_decode hc, exec_decUart hc, exec_decI2c hc, exec_decSpi hc]
  unfold decodeByTag
  refine ⟨fun h => by rw [h]; rfl, fun h => by rw [h]; rfl, fun h => by rw [h]; rfl, fun h => by rw [h]; rfl,
    fun h => by rw [h]; rfl, fun h => ?_⟩
  obtain h | h | h := h <;> rw [h] <;> rfl

/-! ## CLKFREQ (O45) -/

/-- Two rising edges have a low sample between them. -/
theorem PeriodFound.two_le {s : State} {c : Chan} {T : Nat} (h : PeriodFound s c T) : 2 ≤ T := by
  obtain ⟨r1, r2, h1, h2, rfl⟩ := h
  have hhigh : s.get c r1 = true := h1.bounds.2.2
  obtain ⟨hlt, _, hlow, _⟩ := h2.isLeast.1
  have hne : r2 - 1 ≠ r1 := fun e => Bool.false_ne_true (hlow.symm.trans (e ▸ hhigh))
  omega

/-- RATE/T to the nearest integer, halves up: the two inequalities that fix it (43_clock.md R361). -/
theorem roundedFrequency_bounds (rate : Nat) {T : Nat} (hT : 0 < T) :
    2 * T * roundedFrequency rate T ≤ 2 * rate + T ∧ 2 * rate + T < 2 * T * (roundedFrequency rate T + 1) := by
  exact ⟨Nat.mul_div_le _ _, Nat.lt_mul_div_succ _ (by omega)⟩

/-- With a legal RATE and T >= 2 the frequency is at most 2^30. -/
theorem frequency_le {rate T f : Nat} (hrate : rate < 2 ^ 31) (hT : 2 ≤ T) (h : 2 * T * f ≤ 2 * rate + T) : f ≤ 2 ^ 30 := by
  by_contra hgt
  have hle : 2 * T * (2 ^ 30 + 1) ≤ 2 * T * f := Nat.mul_le_mul_left _ (by omega)
  omega

theorem exec_clkfreq {ch : BitVec 4} {c : Chan} {s : State} (hc : ch.toNat = c.val) (hrate : ¬ badRate (s.chan c).rate) :
    exec (.clkfreq ch) s = match s.period c with
      | none => complete s (Results.search noneWord (some noneWord) false)
      | some T => complete s (Results.search (storeNat (roundedFrequency (s.rate c) T)) (some (storeNat T)) true) :=
  (withChannel_pass hc s _).trans (withRate_pass hrate _)

/-- Settles O45: the quotient of `roundedFrequency` satisfies the two inequalities. -/
theorem clkfreqMeasuresTheFrequency : Obligations.ClkfreqMeasuresTheFrequency := by
  unfold Obligations.ClkfreqMeasuresTheFrequency
  refine ⟨fun ch => encode_toNat (.clkfreq ch), checksChannel_of_base, checksRate_of_rateChecks,
    fun s ch c hc hrate => ⟨fun T hT => ?_, fun hnone => ?_⟩⟩
  · obtain ⟨hlow, hhigh⟩ := roundedFrequency_bounds (s.rate c) (T := T) (by have := hT.two_le; omega)
    have hlegal : s.rate c < 2 ^ 31 := Nat.not_le.1 fun h => hrate (.inr h)
    refine ⟨hT.two_le, roundedFrequency (s.rate c) T, ?_, frequency_le hlegal hT.two_le hlow, hlow, hhigh⟩
    rw [exec_clkfreq hc hrate, period_eq_some.2 hT]; rfl
  · rw [exec_clkfreq hc hrate, period_eq_none.2 hnone]; rfl

/-! ## CLKTOL (O46) -/

/-- A number of 64 bits, split into the two result registers (43_clock.md R362). -/
theorem toInt_storeInt_append {t : Int} (hlow : -(2 ^ 63) ≤ t) (hhigh : t < 2 ^ 63) :
    (storeInt (t / 2 ^ 32) ++ storeInt t : BitVec 64).toInt = t := by
  rw [BitVec.toInt_eq_toNat_cond, toNat_append_fields]
  simp only [storeInt, BitVec.toNat_ofInt]
  split <;> omega

/-- The two inequalities fix the frequency. -/
theorem eq_roundedFrequency {rate T : Nat} {f : Int} (hT : 0 < T) (hlow : 2 * T * f ≤ 2 * rate + T)
    (hhigh : 2 * (rate : Int) + T < 2 * T * (f + 1)) : f = roundedFrequency rate T := by
  obtain ⟨hlow', hhigh'⟩ := roundedFrequency_bounds rate hT
  have hpos : (0 : Int) < 2 * T := by omega
  zify at hlow' hhigh'
  apply le_antisymm
  · exact Int.lt_add_one_iff.1 (lt_of_mul_lt_mul_left (hlow.trans_lt hhigh') hpos.le)
  · exact Int.lt_add_one_iff.1 (lt_of_mul_lt_mul_left (hlow'.trans_lt hhigh) hpos.le)

/-- The rounding of R362: `tolerance` is the floor of the scaled difference plus one half. -/
theorem tolerance_bounds (rate T : Nat) :
    2 * ((T : Int) + 1) * tolerance rate T
        ≤ 2 * (roundedFrequency rate T * (T + 1) - rate) * 2 ^ 32 + (T + 1)
      ∧ 2 * (roundedFrequency rate T * ((T : Int) + 1) - rate) * 2 ^ 32 + (T + 1)
        < 2 * ((T : Int) + 1) * (tolerance rate T + 1) := by
  have hpos : (0 : Int) < 2 * (T + 1) := by omega
  exact ⟨Int.mul_ediv_self_le hpos.ne', (Int.lt_ediv_add_one_mul_self _ hpos).trans_eq (mul_comm _ _)⟩

/-- At a legal RATE the tolerance is far inside 64 bits. -/
theorem tolerance_range {rate T : Nat} (hrate : rate < 2 ^ 31) (hT : 2 ≤ T) :
    -(2 ^ 62) < tolerance rate T ∧ tolerance rate T < 2 ^ 62 := by
  obtain ⟨hlow, hhigh⟩ := roundedFrequency_bounds rate (T := T) (by omega)
  have hfreq := frequency_le hrate hT hlow
  obtain ⟨htlow, hthigh⟩ := tolerance_bounds rate T
  zify at hlow hhigh hfreq hrate hT
  have hf0 : (0 : Int) ≤ roundedFrequency rate T := Int.natCast_nonneg _
  generalize (roundedFrequency rate T : Int) = f at *
  generalize tolerance rate T = t at *
  have hX : f * ((T : Int) + 1) = T * f + f := by ring
  have hf1 : 2 * (T : Int) * (f + 1) = 2 * (T * f) + 2 * T := by ring
  have hf2 : 2 * (T : Int) * f = 2 * (T * f) := by ring
  rw [hX] at htlow hthigh
  rw [hf1] at hhigh
  rw [hf2] at hlow
  generalize (T : Int) * f = y at *
  have hpos : (0 : Int) ≤ 2 * (T + 1) := by omega
  constructor
  · have h := lt_of_mul_lt_mul_left (a := 2 * ((T : Int) + 1)) (b := -(2 ^ 62) + 1) (c := t + 1)
      (by omega) hpos
    omega
  · exact lt_of_mul_lt_mul_left (a := 2 * ((T : Int) + 1)) (b := t) (c := 2 ^ 62) (by omega) hpos

theorem exec_clktol {ch : BitVec 4} {c : Chan} {s : State} (hc : ch.toNat = c.val) (hrate : ¬ badRate (s.chan c).rate) :
    exec (.clktol ch) s = .next { s.completed (s.period c).isSome false with
      res0 := storeInt (s.toleranceOf c), res1 := storeInt (s.toleranceOf c / 2 ^ 32) } :=
  (withChannel_pass hc s _).trans (withRate_pass hrate _)

/-- Settles O46: `tolerance` is the floor that the inequalities describe, and two registers hold it. -/
theorem clktolMeasuresTheTolerance : Obligations.ClktolMeasuresTheTolerance := by
  unfold Obligations.ClktolMeasuresTheTolerance
  refine ⟨fun ch => encode_toNat (.clktol ch), checksChannel_of_base, checksRate_of_rateChecks,
    fun s ch c hc hrate => ⟨fun T freq hT hlow hhigh => ?_, fun hnone => ?_⟩⟩
  · have hT2 := hT.two_le
    have hfreq := eq_roundedFrequency (by omega) hlow hhigh
    have hlegal : s.rate c < 2 ^ 31 := Nat.not_le.1 fun h => hrate (.inr h)
    obtain ⟨hmin, hmax⟩ := tolerance_range hlegal hT2
    obtain ⟨htlow, hthigh⟩ := tolerance_bounds (s.rate c) T
    refine ⟨storeInt (tolerance (s.rate c) T), storeInt (tolerance (s.rate c) T / 2 ^ 32), ?_, ?_⟩
    · rw [exec_clktol hc hrate, State.toleranceOf, period_eq_some.2 hT]; rfl
    · rw [toInt_storeInt_append (by omega) (by omega), hfreq]
      exact ⟨htlow, hthigh, hmin, hmax⟩
  · rw [exec_clktol hc hrate, State.toleranceOf, period_eq_none.2 hnone]; rfl

end Sys2Proof.Machine
end

section
/-! A decode as a plan: what it emits is listed before the first record is written (42_decode_common.md R330), from the
build, the samples, the LENs and the channel's configuration alone. O36 and O42 follow. -/

namespace Sys2Proof.Machine

/-! ## States with the same signal -/

/-- The two states hold the same samples: what every search and decoder reads. -/
structure SameSignal (s u : State) : Prop where
  params : u.params = s.params
  samples : u.samples = s.samples
  len : ∀ c, u.len c = s.len c

theorem SameSignal.get_eq {s u : State} (h : SameSignal s u) : u.get = s.get := by
  funext c k
  rw [State.get, State.bit, h.params, h.samples]; rfl

theorem SameSignal.len_eq {s u : State} (h : SameSignal s u) : u.len = s.len := funext h.len

theorem SameSignal.edgeFrom_eq {s u : State} (h : SameSignal s u) : u.edgeFrom = s.edgeFrom := by
  funext c before start
  rw [State.edgeFrom, h.get_eq, h.len_eq]; rfl

theorem SameSignal.period_eq {s u : State} (h : SameSignal s u) : u.period = s.period := by
  funext c
  simp only [State.period, State.nreNat, h.edgeFrom_eq]

theorem SameSignal.pulse_eq {s u : State} (h : SameSignal s u) : u.pulse = s.pulse := by
  funext c start
  simp only [State.pulse, State.nre, State.nreNat, State.nfeNat, h.edgeFrom_eq]

/-! ### The UART scan -/

theorem SameSignal.uartPass_eq {s u : State} (h : SameSignal s u) : u.uartPass = s.uartPass := by
  funext c f n
  simp only [State.uartPass, State.nfeNat, h.get_eq, h.len_eq, h.edgeFrom_eq]

theorem SameSignal.uartScan_eq {s u : State} (h : SameSignal s u) (c : Chan) (f : UartFormat) (fuel n : Nat) :
    u.uartScan c f fuel n = s.uartScan c f fuel n := by
  induction fuel generalizing n with
  | zero => rfl
  | succ fuel ih => simp only [State.uartScan, h.uartPass_eq, ih]

/-! ### The I2C machine -/

theorem SameSignal.i2cReadBit_eq {s u : State} (h : SameSignal s u) : u.i2cReadBit = s.i2cReadBit := by
  funext c k cur
  simp only [State.i2cReadBit, h.pulse_eq, h.get_eq]

theorem SameSignal.i2cReadBits_eq {s u : State} (h : SameSignal s u) (c k : Chan) (n cur : Nat) :
    u.i2cReadBits c k n cur = s.i2cReadBits c k n cur := by
  induction n generalizing cur with
  | zero => rfl
  | succ n ih => simp only [State.i2cReadBits, h.i2cReadBit_eq, ih]

theorem SameSignal.i2cTurn_eq {s u : State} (h : SameSignal s u) : u.i2cTurn = s.i2cTurn := by
  funext c k half m
  simp only [State.i2cTurn, State.i2cAwaitStart, State.i2cReadAddress, State.i2cReadByte, State.i2cAwaitStop,
    State.i2cStopFound, State.i2cAck, State.nfeNat, State.nreNat, h.i2cReadBits_eq, h.i2cReadBit_eq, h.get_eq, h.len_eq,
    h.edgeFrom_eq, h.params]

theorem SameSignal.i2cRun_eq {s u : State} (h : SameSignal s u) (c k : Chan) (half fuel : Nat) (m : I2cMachine) :
    u.i2cRun c k half fuel m = s.i2cRun c k half fuel m := by
  induction fuel generalizing m with
  | zero => rfl
  | succ fuel ih => simp only [State.i2cRun, h.i2cTurn_eq, ih]

theorem SameSignal.i2cTokens_eq {s u : State} (h : SameSignal s u) : u.i2cTokens = s.i2cTokens := by
  funext c k
  simp only [State.i2cTokens, State.i2cFuel, h.period_eq, h.len_eq, h.i2cRun_eq]

/-! ### The SPI edge walk -/

theorem SameSignal.spiWalk_eq {s u : State} (h : SameSignal s u) (c k : Chan) (rising : Bool) (fuel pos : Nat)
    (a : SpiAcc) : u.spiWalk c k rising fuel pos a = s.spiWalk c k rising fuel pos a := by
  induction fuel generalizing pos a with
  | zero => rfl
  | succ fuel ih => simp only [State.spiWalk, State.nfeNat, State.nreNat, h.edgeFrom_eq, h.get_eq, ih]

/-! ## Plans -/

/-- What a decode whose checks pass is going to do: LOWRATE, and the records of each frame, which are written all or
none. The I2C and SPI decoders write theirs one by one. -/
structure DecodePlan where
  low : Bool
  frames : List (List Emit)

/-- A decode of channel `c` with the plan its checks allow, or with the error of the check that fails. -/
def runPlan (c : Chan) (s : State) : Except ErrCode DecodePlan → Result
  | .error e => abort s e
  | .ok p => endDecode p.low (State.emitFrames c p.frames s)

/-- Records written one by one. -/
def singles (ts : List Emit) : List (List Emit) := ts.map fun t => [t]

@[simp] theorem flatten_singles (ts : List Emit) : (singles ts).flatten = ts := by
  induction ts with
  | nil => rfl
  | cons t ts ih => simp only [singles, List.map_cons, List.flatten_cons] at ih ⊢; rw [ih]; rfl

theorem emitFrames_singles (c : Chan) (ts : List Emit) (s : State) :
    State.emitFrames c (singles ts) s = State.emitAll c ts s := by
  induction ts generalizing s with
  | nil => rfl
  | cons t ts ih =>
    simp only [singles, List.map_cons, State.emitFrames, State.emitFrame, State.emitAll, emit_eq,
      List.length_singleton] at ih ⊢
    by_cases hfull : s.params.tokcap ≤ s.tokcnt c
    · rw [if_pos hfull, if_pos (by omega)]
    · rw [if_neg hfull, if_neg (by omega)]
      exact ih _

/-- The plan of a UART decode. -/
def State.uartPlan (s : State) (c : Chan) : Except ErrCode DecodePlan :=
  if s.uartLegal c then .ok { low := decide ((s.uartFormat c).spb < 3), frames := s.uartFrames c } else .error .ecfg

/-- The plan of a decode that needs a clock channel. -/
def State.clockedPlan (s : State) (c : Chan) (p : Chan → DecodePlan) : Except ErrCode DecodePlan :=
  if legalRate (s.chan c).rate then
    match (s.chan c).cfg.clock with
    | some k => .ok (p k)
    | none => .error .enoclk
  else .error .ecfg

/-- The plan of an I2C decode. -/
def State.i2cPlan (s : State) (c : Chan) : Except ErrCode DecodePlan :=
  s.clockedPlan c fun k => { low := s.i2cLow k, frames := singles (s.i2cTokens c k) }

/-- The plan of an SPI decode. -/
def State.spiPlan (s : State) (c : Chan) : Except ErrCode DecodePlan :=
  s.clockedPlan c fun k => { low := s.lowClock k, frames := singles (s.spiTokens c k) }

/-- The plan of the pass-through: nothing. -/
def clockPlan : Except ErrCode DecodePlan := .ok { low := false, frames := [] }

/-- The plan of DECODE, by PROTO. -/
def State.tagPlan (s : State) (c : Chan) : Except ErrCode DecodePlan :=
  match (s.chan c).cfg.proto.toNat with
  | 1 => s.uartPlan c
  | 2 => s.i2cPlan c
  | 3 => s.spiPlan c
  | 4 => clockPlan
  | 5 => .error .enotimpl
  | _ => .error .ecfg

/-- The plan of a decode command on channel `c`. -/
def State.decodePlan (s : State) (i : Instr) (c : Chan) : Except ErrCode DecodePlan :=
  match i with
  | .decode _ => s.tagPlan c
  | .decUart _ => s.uartPlan c
  | .decI2c _ => s.i2cPlan c
  | .decSpi _ => s.spiPlan c
  | _ => clockPlan

theorem decodeUart_eq_runPlan (c : Chan) (s : State) : decodeUart c s = runPlan c s (s.uartPlan c) := by
  unfold decodeUart State.uartPlan
  split <;> rfl

theorem clocked_eq_runPlan (c : Chan) (s : State) (low : Chan → Bool) (ts : Chan → List Emit) :
    (withRate c s <| withClock c s fun k => endDecode (low k) (State.emitAll c (ts k) s))
      = runPlan c s (s.clockedPlan c fun k => { low := low k, frames := singles (ts k) }) := by
  unfold withRate withClock State.clockedPlan
  split
  · cases (s.chan c).cfg.clock with
    | some k => simp only [runPlan, emitFrames_singles]
    | none => rfl
  · rfl

theorem decodeI2c_eq_runPlan (c : Chan) (s : State) : decodeI2c c s = runPlan c s (s.i2cPlan c) :=
  clocked_eq_runPlan c s _ _

theorem decodeSpi_eq_runPlan (c : Chan) (s : State) : decodeSpi c s = runPlan c s (s.spiPlan c) :=
  clocked_eq_runPlan c s _ _

theorem decodeByTag_eq_runPlan (c : Chan) (s : State) : decodeByTag c s = runPlan c s (s.tagPlan c) := by
  unfold decodeByTag State.tagPlan
  match (s.chan c).cfg.proto.toNat with
  | 0 => rfl
  | 1 => exact decodeUart_eq_runPlan c s
  | 2 => exact decodeI2c_eq_runPlan c s
  | 3 => exact decodeSpi_eq_runPlan c s
  | 4 => rfl
  | 5 => rfl
  | _ + 6 => rfl

/-- Every decode is its plan, carried out. -/
theorem exec_eq_runPlan {i : Instr} {c : Chan} (hdec : isDecode i) (hc : i.ch.toNat = c.val) (s : State) :
    exec i s = runPlan c s (s.decodePlan i c) := by
  obtain ⟨ch, rfl | rfl | rfl | rfl | rfl⟩ := hdec
  · exact (exec_decode hc s).trans (decodeByTag_eq_runPlan c s)
  · exact (exec_decUart hc s).trans (decodeUart_eq_runPlan c s)
  · exact (exec_decI2c hc s).trans (decodeI2c_eq_runPlan c s)
  · exact (exec_decSpi hc s).trans (decodeSpi_eq_runPlan c s)
  · exact withChannel_pass hc s _

/-! ## The plan depends on the signal and the configuration alone -/

theorem KeepsConfig.uartFormat_eq {s u : State} {c : Chan} (hcfg : KeepsConfig (s.chan c) (u.chan c)) :
    u.uartFormat c = s.uartFormat c := by
  obtain ⟨hf, hbaud, hrate⟩ := hcfg
  simp only [State.uartFormat, State.rate, hf, hbaud, hrate]

theorem KeepsConfig.uartLegal_eq {s u : State} {c : Chan} (hcfg : KeepsConfig (s.chan c) (u.chan c)) :
    u.uartLegal c = s.uartLegal c := by
  obtain ⟨hf, hbaud, hrate⟩ := hcfg
  rw [State.uartLegal, hf, hbaud, hrate]; rfl

theorem SameSignal.uartPlan_eq {s u : State} (h : SameSignal s u) {c : Chan} (hcfg : KeepsConfig (s.chan c) (u.chan c)) :
    u.uartPlan c = s.uartPlan c := by
  rw [State.uartPlan, State.uartFrames, hcfg.uartLegal_eq, hcfg.uartFormat_eq, h.len_eq, h.uartScan_eq]; rfl

theorem SameSignal.i2cPlan_eq {s u : State} (h : SameSignal s u) {c : Chan} (hcfg : KeepsConfig (s.chan c) (u.chan c)) :
    u.i2cPlan c = s.i2cPlan c := by
  obtain ⟨hf, _, hrate⟩ := hcfg
  simp only [State.i2cPlan, State.clockedPlan, State.i2cLow, hf, hrate, h.i2cTokens_eq, h.period_eq]

/-- Of CPOL and CPHA an SPI decode asks only whether they are equal (46_spi.md R471, R478). -/
theorem SameSignal.spiPlan_eq {s u : State} (h : SameSignal s u) {c : Chan} (hrate : (u.chan c).rate = (s.chan c).rate)
    (hclk : (u.chan c).cfg.clock = (s.chan c).cfg.clock)
    (hedge : (u.chan c).cfg.captureRising = (s.chan c).cfg.captureRising) : u.spiPlan c = s.spiPlan c := by
  simp only [State.spiPlan, State.clockedPlan, State.lowClock, State.spiTokens, hrate, hclk, hedge, h.spiWalk_eq,
    h.period_eq, h.len_eq]

theorem SameSignal.decodePlan_eq {s u : State} (h : SameSignal s u) {c : Chan} (hcfg : KeepsConfig (s.chan c) (u.chan c))
    (i : Instr) : u.decodePlan i c = s.decodePlan i c := by
  have hspi : u.spiPlan c = s.spiPlan c := h.spiPlan_eq hcfg.2.2 (by rw [hcfg.1]) (by rw [hcfg.1])
  simp only [State.decodePlan, State.tagPlan, h.uartPlan_eq hcfg, h.i2cPlan_eq hcfg, hspi, hcfg.1]

/-! ## Carrying a plan out -/

/-- A state that is part-way, seen through `g`. -/
def Progress.map (g : State → State) : Progress → Progress
  | .going s => .going (g s)
  | .aborted s e => .aborted (g s) e

/-- A change of the state that no emission on channel `c` reads or overwrites commutes with it. -/
theorem emitFrames_map {c : Chan} {g : State → State} (hcap : ∀ s, (g s).params.tokcap = s.params.tokcap)
    (hcnt : ∀ s, (g s).tokcnt c = s.tokcnt c) (happ : ∀ s ts, (g s).appendTokens c ts = g (s.appendTokens c ts))
    (fs : List (List Emit)) (s : State) :
    State.emitFrames c fs (g s) = (State.emitFrames c fs s).map g := by
  induction fs generalizing s with
  | nil => rfl
  | cons f fs ih =>
    simp only [State.emitFrames, State.emitFrame, hcap, hcnt]
    by_cases hfull : s.params.tokcap < s.tokcnt c + f.length
    · simp only [if_pos hfull]; rfl
    · simp only [if_neg hfull]
      rw [emitAll_room c f s (by omega), emitAll_room c f (g s) (by rw [hcap, hcnt]; omega), happ]
      exact ih _

/-- A plan that is carried out to its end has written all its records. -/
theorem emitFrames_of_going {c : Chan} {fs : List (List Emit)} {s t : State}
    (h : State.emitFrames c fs s = .going t) : t = s.appendTokens c (fs.flatten.map Emit.record) := by
  induction fs generalizing s with
  | nil => cases h; rw [List.flatten_nil, List.map_nil, State.appendTokens_nil]
  | cons f fs ih =>
    simp only [State.emitFrames, State.emitFrame] at h
    by_cases hfull : s.params.tokcap < s.tokcnt c + f.length
    · simp only [if_pos hfull] at h; cases h
    · simp only [if_neg hfull] at h
      rw [emitAll_room c f s (by omega)] at h
      rw [ih h, State.appendTokens_appendTokens, List.flatten_cons, List.map_append]

/-- A decode that ends without an error has carried its plan out. -/
theorem runPlan_completed {c : Chan} {s t : State} {p : Except ErrCode DecodePlan} (h : runPlan c s p = .next t)
    (hp : ∀ e, p = .error e → e ≠ .ok) (herr : t.status.err = .ok) :
    ∃ q, p = .ok q ∧ t = (s.appendTokens c (q.frames.flatten.map Emit.record)).completed false q.low := by
  cases p with
  | error e => cases h; exact absurd herr (hp e rfl)
  | ok q =>
    refine ⟨q, rfl, ?_⟩
    obtain ⟨us, _, hgo | hab⟩ := emitFrames_cases c q.frames s
    · have hall := emitFrames_of_going hgo
      rw [runPlan, hgo, hall] at h
      cases h
      rfl
    · rw [runPlan, hab] at h
      cases h
      cases herr

/-- No check raises error code 0. -/
theorem decodePlan_error_ne_ok {s : State} {i : Instr} {c : Chan} {e : ErrCode} (h : s.decodePlan i c = .error e) :
    e ≠ .ok := by
  have huart : s.uartPlan c = .error e → e ≠ .ok := by
    unfold State.uartPlan
    split
    · rintro ⟨⟩
    · rintro ⟨⟩; exact nofun
  have hclocked (p : Chan → DecodePlan) : s.clockedPlan c p = .error e → e ≠ .ok := by
    unfold State.clockedPlan
    split
    · split
      · rintro ⟨⟩
      · rintro ⟨⟩; exact nofun
    · rintro ⟨⟩; exact nofun
  cases i with
  | decode ch =>
    change s.tagPlan c = .error e at h
    unfold State.tagPlan at h
    split at h
    · exact huart h
    · exact hclocked _ h
    · exact hclocked _ h
    · cases h
    · cases h; exact nofun
    · cases h; exact nofun
  | decUart ch => exact huart h
  | decI2c ch => exact hclocked _ h
  | decSpi ch => exact hclocked _ h
  | _ => cases h

/-! ## The obligations -/

theorem keepsConfig_appendTokens (s : State) (c : Chan) (ts : List Token) :
    KeepsConfig (s.chan c) ((s.appendTokens c ts).chan c) := by
  rw [State.chan_appendTokens, if_pos rfl]
  exact ⟨rfl, rfl, rfl⟩

/-- Settles O36: appending records changes neither the signal nor the configuration, so the plan is the same. -/
theorem redecodeAppendsAgain : Obligations.RedecodeAppendsAgain := by
  unfold Obligations.RedecodeAppendsAgain
  intro i s t c ts hdec hc hexec herr htokens hroom
  rw [exec_eq_runPlan hdec hc] at hexec ⊢
  obtain ⟨q, hq, rfl⟩ := runPlan_completed hexec (fun e => decodePlan_error_ne_ok) herr
  have hts : q.frames.flatten.map Emit.record = ts := by
    rw [State.completed_chan, State.chan_appendTokens, if_pos rfl] at htokens
    exact List.append_cancel_left htokens
  have hsame : SameSignal s ((s.appendTokens c (q.frames.flatten.map Emit.record)).completed false q.low) :=
    ⟨rfl, rfl, fun d => State.len_appendTokens s c d _⟩
  rw [hsame.decodePlan_eq (keepsConfig_appendTokens s c _), hq, runPlan]
  have hlen : q.frames.flatten.length = ts.length := by rw [← hts, List.length_map]
  rw [emitFrames_room _ _ _ (hlen ▸ hroom), hts]
  rfl

/-- CPOL and CPHA of a channel inverted. -/
def Channel.flipped (x : Channel) : Channel := { x with cfg := { x.cfg with cpol := !x.cfg.cpol, cpha := !x.cfg.cpha } }

/-- CPOL and CPHA of channel `c` inverted. -/
def State.flipped (c : Chan) (s : State) : State := s.setChan c (s.chan c).flipped

theorem State.flipped_appendTokens (c : Chan) (s : State) (ts : List Token) :
    (s.flipped c).appendTokens c ts = (s.appendTokens c ts).flipped c := by
  simp only [State.flipped, State.appendTokens, State.chan_setChan_self, State.setChan_setChan, Channel.flipped]

theorem sameSignal_flipped (c : Chan) (s : State) : SameSignal s (s.flipped c) := by
  refine ⟨rfl, rfl, fun d => ?_⟩
  rw [State.len, State.flipped, State.chan_setChan]
  split
  · next hd => rw [hd]; rfl
  · rfl

theorem spiPlan_flipped (c : Chan) (s : State) : (s.flipped c).spiPlan c = s.spiPlan c := by
  have hchan : (s.flipped c).chan c = (s.chan c).flipped := State.chan_setChan_self s c _
  have hedge (a b : Bool) : ((!a) == (!b)) = (a == b) := by cases a <;> cases b <;> rfl
  refine (sameSignal_flipped c s).spiPlan_eq (by rw [hchan]; rfl) (by rw [hchan]; rfl) ?_
  rw [hchan]
  exact hedge _ _

/-- Carrying a plan out commutes with inverting CPOL and CPHA. -/
theorem runPlan_flipped {c : Chan} {s t : State} {p : Except ErrCode DecodePlan} (h : runPlan c s p = .next t) :
    runPlan c (s.flipped c) p = .next (t.flipped c) := by
  cases p with
  | error e => cases h; rfl
  | ok q =>
    have hmap := emitFrames_map (c := c) (g := State.flipped c) (fun _ => rfl)
      (fun s => by rw [State.tokcnt, State.flipped, State.chan_setChan_self]; rfl)
      (State.flipped_appendTokens c) q.frames s
    rw [runPlan] at h ⊢
    rw [hmap]
    cases hp : State.emitFrames c q.frames s <;> rw [hp] at h <;> cases h <;> rfl

/-- Settles O42: the plan is the same, and what carries it out does not read the two bits. -/
theorem spiModesPairUp : Obligations.SpiModesPairUp := by
  unfold Obligations.SpiModesPairUp
  intro s t ch c hc hexec
  have hflipped : exec (.decSpi ch) (s.flipped c) = .next (t.flipped c) := by
    rw [exec_decSpi hc, decodeSpi_eq_runPlan] at hexec ⊢
    rw [spiPlan_flipped]
    exact runPlan_flipped hexec
  exact hflipped

end Sys2Proof.Machine
end

section
/-! What a running command does not read (40_command_cycle.md R251): the host's registers, the port and the inputs. O15, O16
and O17 follow. -/

namespace Sys2Proof.Machine

/-! ## The host's side of the state -/

/-- What the host, the port and the list of inputs hold: all of it may change under a running command. -/
structure HostSide where
  inputs : List Input
  resp : Option Response
  freeCount : Nat
  ie : Bool
  status : Status
  cmd : Word
  arg0 : Word
  arg1 : Word

def State.hostSide (s : State) : HostSide :=
  { inputs := s.inputs, resp := s.resp, freeCount := s.freeCount, ie := s.ie, status := s.status, cmd := s.cmd
    arg0 := s.arg0, arg1 := s.arg1 }

/-- `s` with another host's side. -/
def State.under (s : State) (h : HostSide) : State :=
  { s with
    inputs := h.inputs, resp := h.resp, freeCount := h.freeCount, ie := h.ie, status := h.status, cmd := h.cmd
    arg0 := h.arg0, arg1 := h.arg1 }

/-- The end `t` of a command, had the host's side been `h`: the command writes every flag of STATUS but COLL. -/
def State.endedUnder (t : State) (h : HostSide) : State :=
  t.under { h with status := { t.status with coll := h.status.coll } }

/-- If the first command ends, the second ends alike under the host's side `h`. -/
def EndsAlike (h : HostSide) (r r' : Result) : Prop := ∀ t, r = .next t → r' = .next (t.endedUnder h)

theorem endsAlike_complete (h : HostSide) (s : State) (r : Results) :
    EndsAlike h (complete s r) (complete (s.under h) r) := by rintro _ ⟨⟩; rfl

theorem endsAlike_abort (h : HostSide) (s : State) (e : ErrCode) : EndsAlike h (abort s e) (abort (s.under h) e) := by
  rintro _ ⟨⟩; rfl

theorem endsAlike_withChannel {h : HostSide} {s : State} (ch : BitVec 4) {k k' : Chan → Result}
    (hk : ∀ c, EndsAlike h (k c) (k' c)) : EndsAlike h (withChannel ch s k) (withChannel ch (s.under h) k') := by
  unfold withChannel
  cases channelOf ch with
  | some c => exact hk c
  | none => exact endsAlike_abort h s .ebadch

theorem endsAlike_ite {h : HostSide} {s : State} {p : Prop} [Decidable p] {k k' : Result} (e : ErrCode)
    (hk : EndsAlike h k k') : EndsAlike h (if p then k else abort s e) (if p then k' else abort (s.under h) e) := by
  split
  · exact hk
  · exact endsAlike_abort h s e

theorem endsAlike_withOw {h : HostSide} {s : State} {k k' : Result} (hk : EndsAlike h k k') :
    EndsAlike h (withOw s k) (withOw (s.under h) k') := endsAlike_ite .ebadop hk

theorem endsAlike_withRate {h : HostSide} {s : State} (c : Chan) {k k' : Result} (hk : EndsAlike h k k') :
    EndsAlike h (withRate c s k) (withRate c (s.under h) k') := endsAlike_ite .ecfg hk

theorem endsAlike_withIndex {h : HostSide} {s : State} (i : Nat) {k k' : Result} (hk : EndsAlike h k k') :
    EndsAlike h (withIndex i s k) (withIndex i (s.under h) k') := endsAlike_ite .eidx hk

theorem endsAlike_withRange {h : HostSide} {s : State} (lo hi : Nat) {k k' : Result} (hk : EndsAlike h k k') :
    EndsAlike h (withRange lo hi s k) (withRange lo hi (s.under h) k') := endsAlike_ite .eidx hk

theorem sameSignal_under (s : State) (h : HostSide) : SameSignal s (s.under h) := ⟨rfl, rfl, fun _ => rfl⟩

theorem endsAlike_runPlan (h : HostSide) (c : Chan) (s : State) (p : Except ErrCode DecodePlan) :
    EndsAlike h (runPlan c s p) (runPlan c (s.under h) p) := by
  cases p with
  | error e => exact endsAlike_abort h s e
  | ok q =>
    have hmap := emitFrames_map (c := c) (g := (State.under · h)) (fun _ => rfl) (fun _ => rfl) (fun _ _ => rfl) q.frames s
    rw [runPlan, runPlan, hmap]
    cases State.emitFrames c q.frames s with
    | going t => exact endsAlike_complete h t _
    | aborted t e => exact endsAlike_abort h t e

/-- A decoder whose plan does not show the host's side. -/
theorem endsAlike_decoder {h : HostSide} {s : State} {c : Chan} {k : State → Result}
    {plan : State → Except ErrCode DecodePlan} (hk : ∀ u, k u = runPlan c u (plan u)) (hplan : plan (s.under h) = plan s) :
    EndsAlike h (k s) (k (s.under h)) := by
  rw [hk, hk, hplan]
  exact endsAlike_runPlan h c s _

theorem owBit_under (h : HostSide) (s : State) : (s.under h).owBit = s.owBit := by
  have hhigh : (s.under h).allHigh = s.allHigh := by
    funext c lo n
    induction n generalizing lo with
    | zero => rfl
    | succ n ih => rw [State.allHigh, ih]; rfl
  funext c f r
  rw [State.owBit, hhigh]; rfl

theorem owBits_under (h : HostSide) (s : State) (c : Chan) (left : Nat) (pos : Int) (v : Nat) :
    (s.under h).owBits c left pos v = s.owBits c left pos v := by
  have hpulse : (s.under h).lowPulse = s.lowPulse := rfl
  induction left generalizing pos v with
  | zero => rfl
  | succ left ih => simp only [State.owBits, hpulse, owBit_under, ih]

/-- 40_command_cycle.md R251: a command that ends in `t` ends in `t` under every other host's side. -/
theorem exec_under (h : HostSide) (i : Instr) (s : State) : EndsAlike h (exec i s) (exec i (s.under h)) := by
  have done (x : State) (r : Results) := endsAlike_complete h x r
  have chan {k k' : Chan → Result} (ch : BitVec 4) (hk : ∀ c, EndsAlike h (k c) (k' c)) :=
    endsAlike_withChannel (s := s) ch hk
  have signal := sameSignal_under s h
  cases i with
  | nop ch => exact done s _
  | set ch => exact chan ch fun c => endsAlike_withIndex _ (done (s.wr c _ _) _)
  | clr ch => exact chan ch fun c => endsAlike_withIndex _ (done (s.wr c _ _) _)
  | setr ch => exact chan ch fun c => endsAlike_withRange _ _ (done (s.wrRange c _ _ _) _)
  | clrr ch => exact chan ch fun c => endsAlike_withRange _ _ (done (s.wrRange c _ _ _) _)
  | get ch => exact chan ch fun c => done s _
  | length ch => exact chan ch fun c => done s _
  | chreset ch => exact chan ch fun c => done (s.chReset c) _
  | nfe ch => exact chan ch fun c => done s _
  | nre ch => exact chan ch fun c => done s _
  | nmp ch => exact chan ch fun c => done s _
  | blbegin ch =>
    change EndsAlike h (complete (if modeOperand s.engine.a0 then s else s.bulkReplace) _)
      (complete (if modeOperand s.engine.a0 then s.under h else s.bulkReplace.under h) _)
    split
    · exact done s _
    · exact done s.bulkReplace _
  | bldata ch => exact endsAlike_withIndex _ (done { s.bulkWrite _ _ with blptr := _ } _)
  | decode ch =>
    exact chan ch fun c => endsAlike_decoder (decodeByTag_eq_runPlan c) (signal.decodePlan_eq ⟨rfl, rfl, rfl⟩ (.decode ch))
  | decUart ch =>
    exact chan ch fun c => endsAlike_decoder (decodeUart_eq_runPlan c) (signal.uartPlan_eq ⟨rfl, rfl, rfl⟩)
  | decI2c ch =>
    exact chan ch fun c => endsAlike_decoder (decodeI2c_eq_runPlan c) (signal.i2cPlan_eq ⟨rfl, rfl, rfl⟩)
  | decSpi ch =>
    exact chan ch fun c => endsAlike_decoder (decodeSpi_eq_runPlan c) (signal.spiPlan_eq rfl rfl rfl)
  | decClk ch => exact chan ch fun c => done s _
  | decOw ch => exact chan ch fun c => endsAlike_abort h s _
  | clkfreq ch =>
    refine chan ch fun c => endsAlike_withRate c ?_
    have hperiod : (s.under h).period c = s.period c := rfl
    rw [hperiod]
    cases s.period c with
    | none => exact done s _
    | some T => exact done s _
  | clktol ch => exact chan ch fun c => endsAlike_withRate c (done s _)
  | owByte ch =>
    refine endsAlike_withOw (chan ch fun c => endsAlike_withRate c ?_)
    have hbits : (s.under h).owBits c 8 (sext (s.under h).engine.a0) 0 = s.owBits c 8 (sext s.engine.a0) 0 :=
      owBits_under h s c 8 _ 0
    rw [hbits]
    cases s.owBits c 8 (sext s.engine.a0) 0 with
    | bits v pos => exact done s _
    | missing => exact done s _
    | ambiguous => exact endsAlike_abort h s _
  | owPres ch => exact endsAlike_withOw (chan ch fun c => endsAlike_withRate c (done s _))
  | owRst ch => exact endsAlike_withOw (chan ch fun c => endsAlike_withRate c (done s _))

/-- Settles O15: the live registers are on the host's side. -/
theorem commandReadsOnlyItsCopies : Obligations.CommandReadsOnlyItsCopies := by
  unfold Obligations.CommandReadsOnlyItsCopies
  intro i s t x y z ie xs r n hexec
  have hrun := exec_under
    { s.hostSide with arg0 := x, arg1 := y, cmd := z, ie := ie, inputs := xs, resp := r, freeCount := n }
    i s t hexec
  have hcoll : t.status = { t.status with coll := s.status.coll } := by rw [← (ran_of_exec hexec).coll]
  refine hrun.trans ?_
  rw [hcoll]
  rfl

/-- The engine's turn on a running command, under another host's side. -/
theorem engineTurn_under {h : HostSide} {s : State} (hbusy : s.status.busy = true) (hbusy' : h.status.busy = true) :
    EndsAlike h (engineTurn s) (engineTurn (s.under h)) := by
  have hrun (u : State) (hu : u.status.busy = true) : engineTurn u = match decode u.params.hasOw u.engine.cw with
      | .ok i => exec i u
      | .error _ => execIllegal u := if_pos hu
  rw [hrun s hbusy, hrun (s.under h) hbusy']
  change EndsAlike h _ (match decode s.params.hasOw s.engine.cw with
    | .ok i => exec i (s.under h)
    | .error _ => execIllegal (s.under h))
  cases decode s.params.hasOw s.engine.cw with
  | ok i => exact exec_under h i s
  | error _ => exact endsAlike_abort h s _

/-- The engine's turn writes nothing on the host's side but STATUS without COLL. -/
theorem engineTurn_frame {s t : State} (h : engineTurn s = .next t) : t = t.endedUnder s.hostSide := by
  cases hbusy : s.status.busy with
  | false =>
    rw [engineTurn_of_idle hbusy] at h
    cases h
    rfl
  | true => exact Host.Outcome.next.inj (h.symm.trans (engineTurn_under (h := s.hostSide) hbusy hbusy t h))

/-! ## Runs -/

theorem run_zero (s : State) : core.run 0 s = .next s := rfl

theorem run_succ {s t : State} (n : Nat) (h : step s = .next t) : core.run (n + 1) s = core.run n t := by
  have hstep : core.step s = .next t := h
  simp only [Host.Core.run, hstep]

theorem run_one {s t : State} (h : step s = .next t) : core.run 1 s = .next t := (run_succ 0 h).trans (run_zero t)

theorem run_add {s t : State} {m : Nat} (n : Nat) (h : core.run m s = .next t) : core.run (m + n) s = core.run n t := by
  induction m generalizing s with
  | zero => cases h; rw [Nat.zero_add]
  | succ m ih =>
    obtain ⟨u, hu⟩ := step_next s
    rw [run_succ m hu] at h
    rw [Nat.succ_add_eq_add_succ, Nat.add_succ, run_succ _ hu]
    exact ih h

/-! ## What a host does while a command runs (O16) -/

/-- `u` is `s` while the host has done nothing but what R710 to R712 of 70_reset_and_hazards.md allow it. -/
structure Undisturbed (s u : State) : Prop where
  block : u = s.under u.hostSide
  cmd : u.cmd = s.cmd
  arg0 : u.arg0 = s.arg0
  arg1 : u.arg1 = s.arg1
  busy : u.status.busy = s.status.busy

theorem Undisturbed.trans {s u v : State} (h : Undisturbed s u) (h' : Undisturbed u v) : Undisturbed s v := by
  refine ⟨?_, h'.cmd.trans h.cmd, h'.arg0.trans h.arg0, h'.arg1.trans h.arg1, h'.busy.trans h.busy⟩
  rw [h'.block, h.block]; rfl

theorem undisturbed_busRead (s : State) (a : Addr) : Undisturbed s (s.busRead a) := by
  unfold State.busRead
  split
  · exact ⟨rfl, rfl, rfl, rfl, rfl⟩
  · split <;> exact ⟨rfl, rfl, rfl, rfl, rfl⟩

/-- While a command runs, a write to a register without SRST reaches only IE, DONE and COLL. -/
theorem undisturbed_writeReg {s : State} {r : Reg} {v : Word} (hbusy : s.status.busy = true)
    (hsrst : ¬ (r = .ctrl ∧ v.getLsbD 1 = true)) : Undisturbed s (s.writeReg r v) := by
  cases r with
  | ctrl =>
    have hv : ¬ v.getLsbD 1 = true := fun hv => hsrst ⟨rfl, hv⟩
    rw [State.writeReg, if_neg hv]
    exact ⟨rfl, rfl, rfl, rfl, rfl⟩
  | cmd | arg0 | arg1 | cfg _ | baud _ | rate _ =>
    rw [writeReg_guarded_of_busy v rfl hbusy]
    exact ⟨rfl, rfl, rfl, rfl, rfl⟩
  | _ => exact ⟨rfl, rfl, rfl, rfl, rfl⟩

theorem undisturbed_busWrite {s : State} {a : Addr} {v : Word} (hbusy : s.status.busy = true)
    (hsrst : ¬ (a = 0x10#20 ∧ v.getLsbD 1 = true)) : Undisturbed s (s.busWrite a v) := by
  have hrespond (t : State) (r : Response) : Undisturbed t (t.respond r) := ⟨rfl, rfl, rfl, rfl, rfl⟩
  cases hr : regAt s.params.tokcap a with
  | error f => rw [busWrite_of_error v hr]; exact hrespond s _
  | ok r =>
    rw [busWrite_of_ok v hr]
    split
    · exact hrespond s _
    · refine (undisturbed_writeReg hbusy fun ⟨hctrl, hv⟩ => hsrst ⟨?_, hv⟩).trans (hrespond _ _)
      rw [← addr_of_regAt hr, hctrl]; rfl

/-- What no transaction changes: the build, the pin and the list of inputs. -/
structure SameBoard (s t : State) : Prop where
  params : t.params = s.params
  rstN : t.rstN = s.rstN
  inputs : t.inputs = s.inputs

theorem sameBoard_busRead (s : State) (a : Addr) : SameBoard s (s.busRead a) := by
  unfold State.busRead
  split
  · exact ⟨rfl, rfl, rfl⟩
  · split <;> exact ⟨rfl, rfl, rfl⟩

theorem sameBoard_whenIdle {s t : State} (h : SameBoard s t) : SameBoard s (s.whenIdle t) := by
  unfold State.whenIdle
  split
  · exact ⟨rfl, rfl, rfl⟩
  · exact h

theorem sameBoard_writeReg (s : State) (r : Reg) (v : Word) : SameBoard s (s.writeReg r v) := by
  cases r with
  | ctrl => rw [State.writeReg]; split <;> exact ⟨rfl, rfl, rfl⟩
  | cmd | arg0 | arg1 | cfg _ | baud _ | rate _ => exact sameBoard_whenIdle ⟨rfl, rfl, rfl⟩
  | _ => exact ⟨rfl, rfl, rfl⟩

/-- Not even a soft reset reaches the build, the pin or the inputs (log 17). -/
theorem sameBoard_busWrite (s : State) (a : Addr) (v : Word) : SameBoard s (s.busWrite a v) := by
  cases hr : regAt s.params.tokcap a with
  | error f => rw [busWrite_of_error v hr]; exact ⟨rfl, rfl, rfl⟩
  | ok r =>
    obtain ⟨hparams, hrst, hinputs⟩ := sameBoard_writeReg s r v
    rw [busWrite_of_ok v hr]
    split
    · exact ⟨rfl, rfl, rfl⟩
    · exact ⟨hparams, hrst, hinputs⟩

theorem sameBoard_engineTurn {s t : State} (h : engineTurn s = .next t) : SameBoard s t := by
  cases hbusy : s.status.busy with
  | false =>
    rw [engineTurn_of_idle hbusy] at h
    cases h
    exact ⟨rfl, rfl, rfl⟩
  | true =>
    obtain ⟨i, hexec⟩ | hrefused := engineTurn_of_busy hbusy
    · cases ran_of_exec (hexec.symm.trans h) <;> exact ⟨rfl, rfl, rfl⟩
    · rw [hrefused] at h
      cases h
      exact ⟨rfl, rfl, rfl⟩

theorem undisturbed_step {s : State} {x : Input} {rest : List Input} (hnext : NextInput s x rest)
    (hbusy : s.status.busy = true) (hx : x.sparesEngine) :
    ∃ t, step s = .next t ∧ Undisturbed s t ∧ t.inputs = rest := by
  have htaken : Undisturbed s { s with inputs := rest } := ⟨rfl, rfl, rfl, rfl, rfl⟩
  cases x with
  | read a => exact ⟨_, step_read hnext, htaken.trans (undisturbed_busRead _ a), (sameBoard_busRead _ a).inputs⟩
  | write a v => exact ⟨_, step_write hnext, htaken.trans (undisturbed_busWrite hbusy hx), (sameBoard_busWrite _ a v).inputs⟩
  | engine => exact hx.elim
  | rstN level => exact hx.elim

/-- All the transactions before the engine's turn leave the running command undisturbed. -/
theorem undisturbed_run {s : State} {xs ys : List Input} (hrst : s.rstN = true) (hbusy : s.status.busy = true)
    (hinputs : s.inputs = xs ++ ys) (hxs : ∀ x ∈ xs, x.sparesEngine) :
    ∃ t, core.run xs.length s = .next t ∧ Undisturbed s t ∧ t.inputs = ys := by
  induction xs generalizing s with
  | nil => exact ⟨s, rfl, ⟨rfl, rfl, rfl, rfl, rfl⟩, hinputs⟩
  | cons x xs ih =>
    obtain ⟨t, ht, hkept, hrest⟩ := undisturbed_step ⟨hrst, hinputs⟩ hbusy (hxs x List.mem_cons_self)
    have hrst' : t.rstN = true := by rw [hkept.block]; exact hrst
    obtain ⟨u, hu, hkept', hrest'⟩ := ih hrst' (hkept.busy.trans hbusy) hrest fun y hy => hxs y (List.mem_cons_of_mem x hy)
    exact ⟨u, (run_succ _ ht).trans hu, hkept.trans hkept', hrest'⟩

/-- Settles O16: the transactions change the host's side alone, and the engine's turn ends alike under it. -/
theorem hostCannotDisturbARunningCommand : Obligations.HostCannotDisturbARunningCommand := by
  unfold Obligations.HostCannotDisturbARunningCommand
  intro s xs hrst hbusy hxs
  obtain ⟨v, hv, hkept, hlast⟩ :=
    undisturbed_run (s := { s with inputs := xs ++ [.engine] }) (ys := [.engine]) hrst hbusy rfl hxs
  have hrst' : v.rstN = true := by rw [hkept.block]; exact hrst
  obtain ⟨t, ht⟩ := engineTurn_next { s with inputs := [] }
  have hturn := engineTurn_under (h := { v.hostSide with inputs := [] }) (s := { s with inputs := [] }) hbusy
    (hkept.busy.trans hbusy) t ht
  have hvs : ({ s with inputs := [] } : State).under { v.hostSide with inputs := [] } = { v with inputs := [] } := by
    rw [hkept.block]; rfl
  rw [hvs] at hturn
  refine ⟨t, t.endedUnder { v.hostSide with inputs := [] }, ?_, ?_, ?_⟩
  · exact run_one ((step_engine (s := { s with inputs := [.engine] }) (rest := []) ⟨hrst, rfl⟩).trans ht)
  · rw [run_add 1 hv]
    exact run_one ((step_engine (rest := []) ⟨hrst', hlast⟩).trans hturn)
  · have hframe := engineTurn_frame ht
    have hinputs : [] = t.inputs := (congrArg State.inputs hframe).symm
    have hcmd : v.cmd = t.cmd := hkept.cmd.trans (congrArg State.cmd hframe).symm
    have harg0 : v.arg0 = t.arg0 := hkept.arg0.trans (congrArg State.arg0 hframe).symm
    have harg1 : v.arg1 = t.arg1 := hkept.arg1.trans (congrArg State.arg1 hframe).symm
    simp only [State.endedUnder, State.under, State.hostSide, hinputs, hcmd, harg0, harg1]
    rfl

/-! ## Runs without their reads (O17) -/

/-- `s` with another list of inputs and another history of the port. -/
def State.withPort (s : State) (xs : List Input) (r : Option Response) (n : Nat) : State :=
  { s with inputs := xs, resp := r, freeCount := n }

/-- The two states differ at the port alone. -/
def SameBlock (s u : State) : Prop := ∃ xs r n, u = s.withPort xs r n

theorem SameBlock.trans {s u v : State} (h : SameBlock s u) (h' : SameBlock u v) : SameBlock s v := by
  obtain ⟨_, _, _, rfl⟩ := h
  obtain ⟨xs, r, n, rfl⟩ := h'
  exact ⟨xs, r, n, rfl⟩

theorem sameBlock_respond {s u : State} (r : Response) (h : SameBlock s u) : SameBlock (s.respond r) (u.respond r) := by
  obtain ⟨xs, r', n, rfl⟩ := h
  exact ⟨xs, some r, n, rfl⟩

theorem sameBlock_busRead (s : State) (a : Addr) : SameBlock s (s.busRead a) := by
  unfold State.busRead
  split
  · exact ⟨_, _, _, rfl⟩
  · split <;> exact ⟨_, _, _, rfl⟩

theorem sameBlock_whenIdle {s u t v : State} (h : SameBlock s u) (h' : SameBlock t v) :
    SameBlock (s.whenIdle t) (u.whenIdle v) := by
  obtain ⟨xs, r, n, rfl⟩ := h
  change SameBlock (if s.status.busy then _ else t) (if s.status.busy then _ else v)
  split
  · exact ⟨xs, r, n, rfl⟩
  · exact h'

theorem sameBlock_writeReg {s u : State} (r : Reg) (v : Word) (h : SameBlock s u) :
    SameBlock (s.writeReg r v) (u.writeReg r v) := by
  have hsame := h
  obtain ⟨xs, r', n, rfl⟩ := h
  cases r with
  | ctrl =>
    change SameBlock (if v.getLsbD 1 then _ else _) (if v.getLsbD 1 then _ else _)
    split <;> exact ⟨xs, r', n, rfl⟩
  | cmd | arg0 | arg1 | cfg _ | baud _ | rate _ => exact sameBlock_whenIdle hsame ⟨xs, r', n, rfl⟩
  | _ => exact ⟨xs, r', n, rfl⟩

theorem sameBlock_busWrite {s u : State} (a : Addr) (v : Word) (h : SameBlock s u) :
    SameBlock (s.busWrite a v) (u.busWrite a v) := by
  have hcap : u.params.tokcap = s.params.tokcap := by obtain ⟨xs, r, n, rfl⟩ := h; rfl
  cases hr : regAt s.params.tokcap a with
  | error f =>
    rw [busWrite_of_error v hr, busWrite_of_error v (hcap ▸ hr)]
    exact sameBlock_respond _ h
  | ok r =>
    rw [busWrite_of_ok v hr, busWrite_of_ok v (hcap ▸ hr)]
    split
    · exact sameBlock_respond _ h
    · exact sameBlock_respond _ (sameBlock_writeReg r v h)

theorem sameBlock_setRstN {s u : State} (level : Bool) (h : SameBlock s u) :
    SameBlock (s.setRstN level) (u.setRstN level) := by
  have hsame := h
  obtain ⟨xs, r, n, rfl⟩ := h
  change SameBlock (if s.rstN && level then s else _) (if s.rstN && level then _ else _)
  split
  · exact hsame
  · exact ⟨xs, none, n, rfl⟩

theorem sameBlock_engineTurn {s u t : State} (h : SameBlock s u) (ht : engineTurn s = .next t) :
    ∃ v, engineTurn u = .next v ∧ SameBlock t v ∧ t.inputs = s.inputs ∧ v.inputs = u.inputs := by
  obtain ⟨xs, r, n, rfl⟩ := h
  cases hbusy : s.status.busy with
  | false =>
    rw [engineTurn_of_idle hbusy] at ht
    cases ht
    exact ⟨_, engineTurn_of_idle hbusy, ⟨xs, r, n, rfl⟩, rfl, rfl⟩
  | true =>
    have hframe := engineTurn_frame ht
    refine ⟨t.withPort xs r n, ?_, ⟨xs, r, n, rfl⟩, (sameBoard_engineTurn ht).inputs, rfl⟩
    have hturn := engineTurn_under (h := { s.hostSide with inputs := xs, resp := r, freeCount := n }) hbusy hbusy t ht
    refine hturn.trans ?_
    rw [hframe]; rfl

/-- The same input, if it is not a read, acts alike on blocks that are alike. -/
theorem sameBlock_step {s u : State} {x : Input} {ys zs : List Input} (h : SameBlock s u) (hs : s.inputs = x :: ys)
    (hu : u.inputs = x :: zs) (hx : x.isRead = false) :
    ∃ t v, step s = .next t ∧ step u = .next v ∧ SameBlock t v ∧ t.inputs = ys ∧ v.inputs = zs := by
  obtain ⟨xs, r, n, rfl⟩ := h
  have hzs : xs = x :: zs := hu
  cases hrst : s.rstN with
  | false =>
    refine ⟨_, _, step_held hrst hs, step_held (s := s.withPort xs r n) hrst hu, ⟨zs, none, n, ?_⟩, rfl, rfl⟩
    rfl
  | true =>
    have htaken : SameBlock { s with inputs := ys } { s.withPort xs r n with inputs := zs } := ⟨zs, r, n, rfl⟩
    cases x with
    | read a => cases hx
    | write a v =>
      exact ⟨_, _, step_write ⟨hrst, hs⟩, step_write (s := s.withPort xs r n) ⟨hrst, hu⟩, sameBlock_busWrite a v htaken,
        (sameBoard_busWrite _ a v).inputs, (sameBoard_busWrite _ a v).inputs⟩
    | engine =>
      obtain ⟨t, ht⟩ := engineTurn_next { s with inputs := ys }
      obtain ⟨v, hv, hsame, htin, hvin⟩ := sameBlock_engineTurn htaken ht
      exact ⟨t, v, (step_engine ⟨hrst, hs⟩).trans ht, (step_engine (s := s.withPort xs r n) ⟨hrst, hu⟩).trans hv, hsame,
        htin, hvin⟩
    | rstN level =>
      refine ⟨_, _, step_rstN ⟨hrst, hs⟩, step_rstN (s := s.withPort xs r n) ⟨hrst, hu⟩, sameBlock_setRstN level htaken,
        ?_, ?_⟩
      · rw [State.setRstN]; split <;> rfl
      · rw [State.setRstN]; split <;> rfl

/-- While `rst_n` is low the block is in its reset state (the last clause of the invariant). -/
def HeldInReset (s : State) : Prop := s.rstN = false → s = s.heldReset

/-- Low or not, the pin leaves no state behind that is not the reset state. -/
theorem heldInReset_setRstN (s : State) (level : Bool) : HeldInReset (s.setRstN level) := by
  unfold State.setRstN
  split
  · next h =>
    obtain ⟨hrst, _⟩ := Bool.and_eq_true_iff.1 h
    exact fun hlow => absurd (hrst.symm.trans hlow) Bool.noConfusion
  · exact fun _ => rfl

theorem heldInReset_of_high {s : State} (h : s.rstN = true) : HeldInReset s :=
  fun hlow => absurd (h.symm.trans hlow) Bool.noConfusion

/-- Every step keeps what R700 says of a low `rst_n`. -/
theorem heldInReset_step {s t : State} (hstep : step s = .next t) : HeldInReset t := by
  cases hrst : s.rstN with
  | false =>
    cases hs : s.inputs with
    | nil =>
      simp only [step, nextInput, hs, hrst, Bool.false_eq_true, if_false] at hstep
      cases hstep
      exact fun _ => rfl
    | cons x rest =>
      rw [step_held hrst hs] at hstep
      cases hstep
      exact fun hlow => by rw [State.heldReset, State.blockReset]; simp only; rfl
  | true =>
    have hturn {u : State} (hu : u.rstN = true) (ht : engineTurn u = .next t) : HeldInReset t :=
      heldInReset_of_high ((sameBoard_engineTurn ht).rstN.trans hu)
    cases hs : s.inputs with
    | nil => exact hturn hrst ((step_last hrst hs).symm.trans hstep)
    | cons x rest =>
      cases x with
      | read a =>
        rw [step_read ⟨hrst, hs⟩] at hstep
        cases hstep
        exact heldInReset_of_high ((sameBoard_busRead _ a).rstN.trans hrst)
      | write a v =>
        rw [step_write ⟨hrst, hs⟩] at hstep
        cases hstep
        exact heldInReset_of_high ((sameBoard_busWrite _ a v).rstN.trans hrst)
      | engine => exact hturn (u := { s with inputs := rest }) hrst ((step_engine ⟨hrst, hs⟩).symm.trans hstep)
      | rstN level =>
        rw [step_rstN ⟨hrst, hs⟩] at hstep
        cases hstep
        exact heldInReset_setRstN _ level

/-- A read leaves a block as it was, at the port apart: low or high, no state of the block is at stake (R160, R700). -/
theorem sameBlock_read {s u : State} {a : Addr} {rest : List Input} (h : SameBlock s u) (hheld : HeldInReset s)
    (hu : u.inputs = .read a :: rest) : ∃ v, step u = .next v ∧ SameBlock s v ∧ v.inputs = rest := by
  cases hrst : u.rstN with
  | true =>
    have htaken : SameBlock u { u with inputs := rest } := ⟨rest, u.resp, u.freeCount, rfl⟩
    exact ⟨_, step_read ⟨hrst, hu⟩, h.trans (htaken.trans (sameBlock_busRead _ a)), (sameBoard_busRead _ a).inputs⟩
  | false =>
    refine ⟨_, step_held hrst hu, ?_, rfl⟩
    obtain ⟨xs, r, n, rfl⟩ := h
    have hlow : s.rstN = false := hrst
    have hreset : s = { State.resetOf s.params with rstN := false, inputs := s.inputs, freeCount := s.freeCount } :=
      (hheld hlow).trans (by rw [State.heldReset, State.blockReset, hlow]; rfl)
    refine ⟨rest, none, n, ?_⟩
    rw [hreset]; rfl

/-- A run and the same run without its reads end in blocks that are alike. -/
theorem run_without_reads {s u : State} {xs : List Input} (h : SameBlock s u) (hheld : HeldInReset s)
    (hs : s.inputs = xs.filter (fun x => !x.isRead)) (hu : u.inputs = xs) :
    ∃ t v, core.run (xs.filter (fun x => !x.isRead)).length s = .next t ∧ core.run xs.length u = .next v
      ∧ SameBlock t v ∧ t.inputs = [] ∧ v.inputs = [] := by
  induction xs generalizing s u with
  | nil => exact ⟨s, u, rfl, rfl, h, hs, hu⟩
  | cons x xs ih =>
    cases hx : x.isRead with
    | true =>
      rw [List.filter_cons_of_neg (by rw [hx]; exact Bool.false_ne_true)] at hs ⊢
      cases x with
      | read a =>
        obtain ⟨v, hv, hsame, hvin⟩ := sameBlock_read h hheld hu
        obtain ⟨t', v', ht', hv', hend⟩ := ih hsame hheld hs hvin
        exact ⟨t', v', ht', (run_succ _ hv).trans hv', hend⟩
      | _ => cases hx
    | false =>
      rw [List.filter_cons_of_pos (by rw [hx]; rfl)] at hs ⊢
      obtain ⟨t, v, ht, hv, hsame, htin, hvin⟩ := sameBlock_step h hs hu hx
      obtain ⟨t', v', ht', hv', hend⟩ := ih hsame (heldInReset_step ht) htin hvin
      exact ⟨t', v', (run_succ _ ht).trans ht', (run_succ _ hv).trans hv', hend⟩

/-- Settles O17: a read changes the port alone, and every other input acts alike on blocks that are alike. -/
theorem readsHaveNoSideEffect : Obligations.ReadsHaveNoSideEffect := by
  unfold Obligations.ReadsHaveNoSideEffect
  intro s xs hheld
  have hsame : SameBlock { s with inputs := xs.filter (fun x => !x.isRead) } { s with inputs := xs } :=
    ⟨xs, s.resp, s.freeCount, rfl⟩
  have hheld' : HeldInReset { s with inputs := xs.filter (fun x => !x.isRead) } := fun hlow =>
    congrArg (fun t : State => { t with inputs := xs.filter (fun x => !x.isRead) }) (hheld hlow)
  obtain ⟨t, u, ht, hu, ⟨ys, r, n, hport⟩, htin, huin⟩ := run_without_reads hsame hheld' rfl rfl
  refine ⟨t, u, ht, hu, ?_⟩
  have hys : ys = t.inputs := (congrArg State.inputs hport).symm.trans (huin.trans htin.symm)
  rw [hport, hys]
  rfl

end Sys2Proof.Machine
end

section
/-! The UART decoder (44_uart.md): one pass of the scan, the records of a frame, and the scan as the loop of R380. O37 and
O38. -/

namespace Sys2Proof.Machine

/-! ## One pass of the scan -/

/-- The position of the first stop bit, the start bit being position 0 (44_uart.md R386). -/
def UartFormat.stopPos (u : UartFormat) : Nat := if u.par.isSome then u.dbits + 2 else u.dbits + 1

/-- The data bits of the frame with left edge `e` (44_uart.md R387). -/
def State.uartData (s : State) (c : Chan) (u : UartFormat) (e : Nat) : Nat :=
  lsbFirst (fun i => s.get c (e + u.half + (i + 1) * u.spb)) u.dbits

/-- The sample at the place of the parity bit of the frame with left edge `e`. -/
def State.uartParitySample (s : State) (c : Chan) (u : UartFormat) (e : Nat) : Bool :=
  s.get c (e + u.half + (u.dbits + 1) * u.spb)

/-- All stop bits of the frame with left edge `e` are high (44_uart.md R389). -/
def StopsHigh (s : State) (c : Chan) (u : UartFormat) (e : Nat) : Prop :=
  ∀ j, j < u.ns → s.get c (e + u.half + (u.stopPos + j) * u.spb) = true

theorem uartPass_of_short {s : State} {c : Chan} {u : UartFormat} {n : Nat} (h : s.len c < n + 10 * u.spb) :
    s.uartPass c u n = .stop := if_neg (Nat.not_le.2 h)

theorem uartPass_of_noEdge {s : State} {c : Chan} {u : UartFormat} {n : Nat} (he : ¬ ∃ e, EdgeFound s c true n e) :
    s.uartPass c u n = .stop := by
  unfold State.uartPass
  rw [nfeNat_eq_none.2 he]
  exact ite_self _

theorem uartPass_of_glitch {s : State} {c : Chan} {u : UartFormat} {n e : Nat} (h : n + 10 * u.spb ≤ s.len c)
    (he : EdgeFound s c true n e) (hm : s.get c (e + u.half) = true) : s.uartPass c u n = .drop (e + u.half + 1) := by
  simp only [State.uartPass, if_pos h, nfeNat_eq_some.2 he, hm, if_true]

/-- Past the glitch test the stop bits decide. -/
theorem uartPass_of_start {s : State} {c : Chan} {u : UartFormat} {n e : Nat} (hns : u.ns = 1 ∨ u.ns = 2)
    (h : n + 10 * u.spb ≤ s.len c) (he : EdgeFound s c true n e) (hm : s.get c (e + u.half) = false) :
    (StopsHigh s c u e → s.uartPass c u n = .frame (frameTokens u e (s.uartData c u e) (s.uartParitySample c u e))
      (e + u.half + (u.stopPos + u.ns - 1) * u.spb + 1))
    ∧ (¬ StopsHigh s c u e → s.uartPass c u n = .drop (e + u.half + 1)) := by
  have hpass : s.uartPass c u n =
      if (!s.get c (e + u.half + u.stopPos * u.spb)) = true then .drop (e + u.half + 1)
      else if u.ns = 2 ∧ s.get c (e + u.half + (u.stopPos + 1) * u.spb) = false then .drop (e + u.half + 1)
      else .frame (frameTokens u e (s.uartData c u e) (s.uartParitySample c u e))
        (e + u.half + (u.stopPos + u.ns - 1) * u.spb + 1) := by
    simp only [State.uartPass, if_pos h, nfeNat_eq_some.2 he, hm, Bool.false_eq_true, if_false]
    rfl
  rw [hpass]
  refine ⟨fun hall => ?_, fun hnot => ?_⟩
  · have h0 := hall 0 (by omega)
    rw [Nat.add_zero] at h0
    rw [if_neg (by rw [h0]; exact Bool.false_ne_true), if_neg]
    rintro ⟨htwo, h1⟩
    exact Bool.false_ne_true (h1.symm.trans (hall 1 (by omega)))
  · by_cases h0 : s.get c (e + u.half + u.stopPos * u.spb) = true
    · by_cases h1 : u.ns = 2 ∧ s.get c (e + u.half + (u.stopPos + 1) * u.spb) = false
      · rw [if_pos h1, ite_self]
      · refine absurd (fun j hj => ?_) hnot
        obtain rfl | rfl : j = 0 ∨ j = 1 := by omega
        · exact h0
        · exact Bool.not_eq_false _ ▸ fun hlow => h1 ⟨by omega, hlow⟩
    · rw [if_pos (by rw [Bool.eq_false_iff.2 h0]; rfl)]

/-! ## The format, as the spec computes it -/

theorem uartFormat_spb (s : State) (c : Chan) : (s.uartFormat c).spb = uartSpb s c := rfl

theorem uartFormat_dbits (s : State) (c : Chan) : (s.uartFormat c).dbits = uartDataBits s c := rfl

theorem uartFormat_ns (s : State) (c : Chan) : (s.uartFormat c).ns = uartStops s c := rfl

theorem uartFormat_ns_cases (s : State) (c : Chan) : (s.uartFormat c).ns = 1 ∨ (s.uartFormat c).ns = 2 := by
  rw [uartFormat_ns, uartStops]
  split
  · exact .inr rfl
  · exact .inl rfl

/-- The number modulo 2 that a parity mode asks for (44_uart.md R388). -/
def Parity.rest : Parity → Nat
  | .even => 0
  | .odd => 1

/-- With PARITY = 3 stopped by a check, the two readings of PARITY agree (10_state.md R67). -/
theorem uartParityRest_eq {s : State} {c : Chan} (hpar : (s.chan c).cfg.parity ≠ 3) :
    uartParityRest s c = (s.uartFormat c).par.map Parity.rest := by
  have hcases : ∀ p : BitVec 2, p ≠ 3 → p = 0 ∨ p = 1 ∨ p = 2 := by decide
  change _ = (Cfg.uartParity (s.chan c).cfg).map Parity.rest
  unfold uartParityRest Cfg.uartParity
  cases (s.chan c).cfg.ninebit with
  | true => rfl
  | false => obtain h | h | h := hcases _ hpar <;> rw [h] <;> rfl

theorem uartFormat_stopPos {s : State} {c : Chan} (hpar : (s.chan c).cfg.parity ≠ 3) :
    (s.uartFormat c).stopPos = uartStopPos s c := by
  rw [UartFormat.stopPos, uartStopPos, uartParityRest_eq hpar, Option.isSome_map, uartFormat_dbits]
  split <;> rfl

/-! ## The records of a frame -/

/-- A record with no bit count whose end is not before its start. -/
theorem record_eq_plainRecord {k : Kind} {value first last : Nat} (h : first ≤ last) :
    Emit.record { kind := k, nbits := 0, value := value, first := first, last := last }
      = plainRecord k.code value first last := by
  simp only [Emit.record, plainRecord, if_neg (Nat.not_lt.2 h)]
  rfl

theorem popcountBelow_eq (v n : Nat) : popcountBelow v n = (List.range n).countP (fun i => v.testBit i) := by
  induction n with
  | zero => rfl
  | succ n ih =>
    rw [popcountBelow, ih, List.range_succ, List.countP_append]
    cases h : v.testBit n <;> simp [h]

/-- The parity token of R388. -/
theorem parityCode_eq (mode : Parity) (v : Nat) (p : Bool) :
    (if parityCorrect mode v p then Kind.uParOk else Kind.uParBad).code = uartParityCode mode.rest v p := by
  have hiff : parityCorrect mode v p = true ↔ (popcountBelow v 9 + p.toNat) % 2 = mode.rest := by
    cases mode <;> exact beq_iff_eq
  rw [uartParityCode, ← popcountBelow_eq, apply_ite Kind.code, if_congr hiff rfl rfl]
  rfl

theorem frameTokens_records {s : State} {c : Chan} (hpar : (s.chan c).cfg.parity ≠ 3) (e v : Nat) (p : Bool) :
    (frameTokens (s.uartFormat c) e v p).map Emit.record = uartFrame s c e v p := by
  have cell (k : Kind) (value : Nat) {i j : Nat} (hij : i ≤ j) :
      Emit.record { kind := k, nbits := 0, value := value, first := e + i * uartSpb s c, last := e + j * uartSpb s c }
        = plainRecord k.code value (e + i * uartSpb s c) (e + j * uartSpb s c) :=
    record_eq_plainRecord (Nat.add_le_add_left (Nat.mul_le_mul_right _ hij) e)
  have hstop : uartStopPos s c
      = if (s.uartFormat c).par.isSome then 1 + uartDataBits s c + 1 else 1 + uartDataBits s c := by
    rw [← uartFormat_stopPos hpar, UartFormat.stopPos, uartFormat_dbits]
    split <;> omega
  rw [frameTokens, uartFrame, uartParityRest_eq hpar, List.map_append, List.map_append]
  simp only [uartFormat_spb, uartFormat_dbits, uartFormat_ns, ← hstop]
  rw [Nat.add_comm 1 (uartDataBits s c)]
  congr 1
  · congr 1
    · simp only [List.map_cons, List.map_nil]
      rw [cell .uStart 0 (Nat.zero_le 1), cell .uData v (Nat.le_add_left 1 _), Nat.zero_mul, Nat.one_mul, Nat.add_zero]
      rfl
    · cases (s.uartFormat c).par with
      | none => rfl
      | some mode =>
        simp only [List.map_cons, List.map_nil, Option.map_some]
        rw [cell _ 0 (Nat.le_succ _), parityCode_eq]
  · split
    · simp only [List.map_cons, List.map_nil]
      rw [cell .uStop1 0 (Nat.le_succ _), cell .uStop2 0 (Nat.le_succ _)]
      rfl
    · simp only [List.map_cons, List.map_nil]
      rw [cell .uStop 0 (Nat.le_succ _)]
      rfl

/-! ## The scan -/

/-- The number of `n` bits is the one below `2 ^ n` that has them (44_uart.md R387). -/
theorem eq_lsbFirst {f : Nat → Bool} {n v : Nat} (hv : v < 2 ^ n) (hbits : ∀ i, i < n → v.testBit i = f i) :
    v = lsbFirst f n := by
  apply Nat.eq_of_testBit_eq
  intro i
  by_cases hi : i < n
  · rw [hbits i hi, testBit_lsbFirst f hi]
  · have hpow : 2 ^ n ≤ 2 ^ i := Nat.pow_le_pow_right Nat.two_pos (Nat.not_lt.1 hi)
    rw [Nat.testBit_lt_two_pow (hv.trans_le hpow), Nat.testBit_lt_two_pow ((lsbFirst_lt f n).trans_le hpow)]

/-- The frames that the loop of R380 finds are the ones the scan lists. -/
theorem uartScan_records {s : State} {c : Chan} (hpar : (s.chan c).cfg.parity ≠ 3) {n : Nat} {fs : List (List Token)}
    (h : UartScan s c n fs) {fuel : Nat} (hfuel : s.len c < n + fuel) :
    (s.uartScan c (s.uartFormat c) fuel n).map (List.map Emit.record) = fs := by
  induction h generalizing fuel with
  | short n h =>
    cases fuel with
    | zero => rfl
    | succ fuel => rw [State.uartScan, uartPass_of_short (u := s.uartFormat c) h]; rfl
  | noEdge n h he =>
    cases fuel with
    | zero => rfl
    | succ fuel => rw [State.uartScan, uartPass_of_noEdge he]; rfl
  | glitch n e fs h he hm hr ih =>
    obtain ⟨fuel, rfl⟩ : ∃ k, fuel = k + 1 := ⟨fuel - 1, by omega⟩
    have hlt := he.bounds.1
    rw [State.uartScan, uartPass_of_glitch (u := s.uartFormat c) h he hm]
    exact ih (by omega)
  | badStop n e fs h he hm hs hr ih =>
    obtain ⟨fuel, rfl⟩ : ∃ k, fuel = k + 1 := ⟨fuel - 1, by omega⟩
    have hlt := he.bounds.1
    have hlow : ¬ StopsHigh s c (s.uartFormat c) e := by
      obtain ⟨j, hj, hj0⟩ := hs
      rw [← uartFormat_stopPos hpar] at hj0
      exact fun hall => Bool.false_ne_true (hj0.symm.trans (hall j hj))
    rw [State.uartScan, (uartPass_of_start (uartFormat_ns_cases s c) h he hm).2 hlow]
    exact ih (by omega)
  | good n e v fs h he hm hv hd hs hr ih =>
    obtain ⟨fuel, rfl⟩ : ∃ k, fuel = k + 1 := ⟨fuel - 1, by omega⟩
    have hlt := he.bounds.1
    have hhigh : StopsHigh s c (s.uartFormat c) e := by
      intro j hj
      rw [uartFormat_stopPos hpar]
      exact hs j hj
    have hdata : v = s.uartData c (s.uartFormat c) e := eq_lsbFirst hv hd
    rw [State.uartScan, (uartPass_of_start (uartFormat_ns_cases s c) h he hm).1 hhigh]
    simp only [List.map_cons]
    rw [frameTokens_records hpar, ← hdata, uartFormat_stopPos hpar]
    congr 1
    exact ih (by omega)

/-! ## DEC.UART (O37) -/

theorem parity_ne_three {s : State} {c : Chan} (h : ¬ uartCfgBad s c) : (s.chan c).cfg.parity ≠ 3 :=
  fun hp => h (.inr (.inr hp))

/-- The frames of a decode are those of the loop of R380 from index 0. -/
theorem uartFrames_records {s : State} {c : Chan} (hcfg : ¬ uartCfgBad s c) {fs : List (List Token)}
    (h : UartScan s c 0 fs) : (s.uartFrames c).map (List.map Emit.record) = fs :=
  uartScan_records (parity_ne_three hcfg) h (by omega)

theorem exec_decUart_legal {ch : BitVec 4} {c : Chan} {s : State} (hc : ch.toNat = c.val) (hcfg : ¬ uartCfgBad s c) :
    exec (.decUart ch) s = endDecode (decide (uartSpb s c < 3)) (State.emitFrames c (s.uartFrames c) s) := by
  rw [exec_decUart hc, decodeUart, if_pos ((uartLegal_iff s c).2 hcfg)]; rfl

theorem exec_decUart_room {ch : BitVec 4} {c : Chan} {s : State} (hc : ch.toNat = c.val) (hcfg : ¬ uartCfgBad s c)
    {fs : List (List Token)} (h : UartScan s c 0 fs) (hroom : s.tokcnt c + fs.flatten.length ≤ s.params.tokcap) :
    exec (.decUart ch) s = .next ((s.appendTokens c fs.flatten).completed false (decide (uartSpb s c < 3))) := by
  rw [← uartFrames_records hcfg h, ← List.map_flatten] at hroom ⊢
  rw [List.length_map] at hroom
  rw [exec_decUart_legal hc hcfg, emitFrames_room c _ s hroom, endDecode_going]

/-- Settles O37: the scan lists the frames of the loop, and emission writes whole frames as long as there is room. -/
theorem uartDecodeAppendsTheScan : Obligations.UartDecodeAppendsTheScan := by
  unfold Obligations.UartDecodeAppendsTheScan
  refine ⟨fun ch => encode_toNat (.decUart ch), checksChannel_of_base, fun s ch c hc =>
    ⟨fun hbad => ?_, fun fs hcfg h hroom => exec_decUart_room hc hcfg h hroom, fun fs f gs hcfg h hroom hfull => ?_⟩⟩
  · rw [exec_decUart hc, decodeUart, if_neg (fun h => (uartLegal_iff s c).1 h hbad)]; rfl
  · obtain ⟨ms, rest, hsplit, rfl, hrest⟩ := List.map_eq_append_iff.1 (uartFrames_records hcfg h)
    obtain ⟨m, ns, rfl, rfl, _⟩ := List.map_eq_cons_iff.1 hrest
    rw [← List.map_flatten, List.length_map] at hroom hfull
    rw [List.length_map] at hfull
    rw [exec_decUart_legal hc hcfg, hsplit, emitFrames_full c ms ns m s hroom hfull, endDecode_aborted, List.map_flatten]

/-! ## One frame (O38) -/

/-- The configuration of O38: 8 data bits, no parity, one stop bit. -/
structure Plain8N1 (s : State) (c : Chan) : Prop where
  ninebit : (s.chan c).cfg.ninebit = false
  twostop : (s.chan c).cfg.twostop = false
  parity : (s.chan c).cfg.parity = 2

section
variable {s : State} {c : Chan}

theorem Plain8N1.dataBits (h : Plain8N1 s c) : uartDataBits s c = 8 := by rw [uartDataBits, h.ninebit]; rfl

theorem Plain8N1.stops (h : Plain8N1 s c) : uartStops s c = 1 := by rw [uartStops, h.twostop]; rfl

theorem Plain8N1.parityRest (h : Plain8N1 s c) : uartParityRest s c = none := by
  rw [uartParityRest, if_pos (.inr h.parity)]

theorem Plain8N1.stopPos (h : Plain8N1 s c) : uartStopPos s c = 9 := by rw [uartStopPos, h.dataBits, h.parityRest]; rfl

theorem Plain8N1.frame (h : Plain8N1 s c) (e v : Nat) (p : Bool) :
    uartFrame s c e v p = [plainRecord 0x01 0 e (e + uartSpb s c),
      plainRecord 0x02 v (e + uartSpb s c) (e + 9 * uartSpb s c),
      plainRecord 0x05 0 (e + 9 * uartSpb s c) (e + 10 * uartSpb s c)] := by
  simp only [uartFrame, h.dataBits, h.stopPos, h.parityRest, h.stops]
  rfl

/-- The start edge of the wave is the first falling edge. -/
theorem UartWave.startEdge {a spb v : Nat} (h : UartWave s c a spb v) (ha : 1 ≤ a) (hspb : 0 < spb) (hlen : a < s.len c) :
    EdgeFound s c true 0 a := by
  obtain ⟨hidle, hstart, _, _⟩ := h
  refine ⟨0, ⟨⟨le_rfl, by omega, hidle 0 (by omega)⟩, fun k _ => Nat.zero_le k⟩,
    ⟨⟨by omega, hlen, hstart a le_rfl (by omega)⟩, fun k ⟨_, _, hlow⟩ => ?_⟩⟩
  by_contra hlt
  exact Bool.false_ne_true (hlow.symm.trans (hidle k (by omega)))

/-- After the stop bit the line stays high, so the loop finds nothing more. -/
theorem UartWave.scan_after {a spb v n : Nat} (h : UartWave s c a spb v) (hn : a + 9 * spb ≤ n) : UartScan s c n [] := by
  obtain ⟨_, _, _, hhigh⟩ := h
  by_cases hshort : s.len c < n + 10 * uartSpb s c
  · exact .short n hshort
  · refine .noEdge n (by omega) ?_
    rintro ⟨e, he⟩
    obtain ⟨hlt, hle, hlow⟩ := he.bounds
    exact Bool.false_ne_true (hlow.symm.trans (hhigh e (by omega) (by omega)))

/-- The loop finds the frame of the wave, and nothing else. -/
theorem UartWave.scan {a v : Nat} (h : UartWave s c a (uartSpb s c) v) (hcfg : Plain8N1 s c) (hspb : 2 ≤ uartSpb s c)
    (ha : 1 ≤ a) (hv : v < 256) (hlen : a + 10 * uartSpb s c ≤ s.len c) : ∃ p, UartScan s c 0 [uartFrame s c a v p] := by
  have hhalf : uartHalf s c < uartSpb s c := by rw [uartHalf]; omega
  have hedge := h.startEdge ha (by omega) (by omega)
  have hafter := h.scan_after (n := a + uartHalf s c + 9 * uartSpb s c + 1) (by omega)
  obtain ⟨_, hstart, hdata, hstop⟩ := h
  refine ⟨_, .good 0 a v [] (by omega) hedge (hstart _ (by omega) (by omega)) (by rw [hcfg.dataBits]; exact hv)
    (fun i hi => ?_) (fun j hj => ?_) ?_⟩
  · rw [hcfg.dataBits] at hi
    refine (hdata i hi _ ?_ ?_).symm
    · omega
    · rw [show i + 2 = i + 1 + 1 from rfl, Nat.succ_mul (i + 1)]
      omega
  · rw [hcfg.stops] at hj
    rw [hcfg.stopPos, Nat.lt_one_iff.1 hj, Nat.add_zero]
    exact hstop _ (by omega) (by omega)
  · rw [hcfg.stopPos, hcfg.stops]
    exact hafter

end

/-- Settles O38: the loop finds the one frame of the wave, and its records are the three of the statement. -/
theorem uartFrameRoundTrip : Obligations.UartFrameRoundTrip := by
  unfold Obligations.UartFrameRoundTrip
  intro s ch c a v hc hcfg hnine htwo hpar hspb ha hv hlen hwave hroom
  have hplain : Plain8N1 s c := ⟨hnine, htwo, hpar⟩
  obtain ⟨p, hscan⟩ := hwave.scan hplain hspb ha hv hlen
  rw [hplain.frame] at hscan
  exact exec_decUart_room hc hcfg hscan hroom

end Sys2Proof.Machine
end

section
/-! The I2C decoder (45_i2c.md): the bits read on the clock's pulses, one turn of the machine per state and outcome, and the
machine as the loop of R420. O39 and O40. -/

namespace Sys2Proof.Machine

variable {s : State} {c k : Chan}

/-! ## Bits -/

theorem i2cReadBit_eq_some {cur : Nat} {b : I2cBit} : s.i2cReadBit c k cur = some b ↔ BitsRead s c k cur [b] := by
  obtain ⟨bit, rise, fall⟩ := b
  have hpulse (p : Pulse) := pulse_eq_some (s := s) (c := k) (start := cur) (p := p)
  simp only [Int.natCast_nonneg, true_and, Int.toNat_natCast] at hpulse
  simp only [State.i2cReadBit, BitsRead, and_true]
  cases hp : s.pulse k cur with
  | none =>
    refine ⟨nofun, fun ⟨hfound, _⟩ => ?_⟩
    exact absurd ((hpulse ⟨rise, fall, rise + (fall - rise) / 2⟩).2 ⟨hfound, rfl⟩) (by rw [hp]; exact nofun)
  | some p =>
    obtain ⟨hfound, hmid⟩ := (hpulse p).1 hp
    simp only [Option.some.injEq, I2cBit.mk.injEq]
    constructor
    · rintro ⟨rfl, rfl, rfl⟩
      exact ⟨hfound, by rw [hmid]⟩
    · rintro ⟨⟨hrise, hfall⟩, rfl⟩
      obtain ⟨hrise', hfall'⟩ := hfound
      obtain rfl := hrise'.unique hrise
      obtain rfl := hfall'.unique hfall
      exact ⟨by rw [hmid], rfl, rfl⟩

theorem i2cReadBit_eq_none {cur : Nat} : s.i2cReadBit c k cur = none ↔ ¬ ∃ b, BitsRead s c k cur [b] := by
  rw [Option.eq_none_iff_forall_ne_some]
  simp only [ne_eq, i2cReadBit_eq_some, not_exists]

theorem bitsRead_cons {cur : Nat} {b : I2cBit} {bs : List I2cBit} :
    BitsRead s c k cur (b :: bs) ↔ BitsRead s c k cur [b] ∧ BitsRead s c k b.fall bs := by
  simp only [BitsRead, and_true, and_assoc]

theorem i2cReadBits_eq_some {n cur : Nat} {bs : List I2cBit} :
    s.i2cReadBits c k n cur = some bs ↔ bs.length = n ∧ BitsRead s c k cur bs := by
  induction n generalizing cur bs with
  | zero =>
    rw [List.length_eq_zero_iff, State.i2cReadBits, Option.some.injEq, eq_comm]
    exact ⟨fun h => ⟨h, h ▸ trivial⟩, And.left⟩
  | succ n ih =>
    cases bs with
    | nil =>
      refine ⟨fun h => ?_, fun h => absurd h.1 (Nat.zero_ne_add_one n)⟩
      rw [State.i2cReadBits] at h
      split at h
      · cases h
      · split at h <;> cases h
    | cons b bs =>
      rw [bitsRead_cons, List.length_cons, Nat.add_right_cancel_iff, ← i2cReadBit_eq_some, State.i2cReadBits]
      cases hb : s.i2cReadBit c k cur with
      | none => exact ⟨nofun, fun h => nomatch h.2.1⟩
      | some b' =>
        simp only [Option.some.injEq]
        cases hbs : s.i2cReadBits c k n b'.fall with
        | none =>
          refine ⟨nofun, fun ⟨hlen, hbb, hread⟩ => ?_⟩
          rw [hbb, ih.2 ⟨hlen, hread⟩] at hbs
          cases hbs
        | some bs' =>
          simp only [Option.some.injEq, List.cons.injEq]
          refine ⟨?_, ?_⟩
          · rintro ⟨rfl, rfl⟩
            obtain ⟨hlen, hread⟩ := ih.1 hbs
            exact ⟨hlen, rfl, hread⟩
          · rintro ⟨hlen, rfl, hread⟩
            rw [ih.2 ⟨hlen, hread⟩, Option.some.injEq] at hbs
            exact ⟨rfl, hbs.symm⟩

theorem i2cReadBits_eq_none {n cur : Nat} :
    s.i2cReadBits c k n cur = none ↔ ¬ ∃ bs, bs.length = n ∧ BitsRead s c k cur bs := by
  rw [Option.eq_none_iff_forall_ne_some]
  simp only [ne_eq, i2cReadBits_eq_some, not_exists]

/-- The bits after the first ones are read from the last falling edge. -/
theorem bitsRead_append {cur : Nat} {bs cs : List I2cBit} (hne : bs ≠ []) :
    BitsRead s c k cur (bs ++ cs) ↔ BitsRead s c k cur bs ∧ BitsRead s c k (lastFall bs) cs := by
  induction bs generalizing cur with
  | nil => exact absurd rfl hne
  | cons b bs ih =>
    rw [List.cons_append, bitsRead_cons, bitsRead_cons (bs := bs)]
    cases bs with
    | nil => simp only [List.nil_append, BitsRead, and_true]; rfl
    | cons b' bs =>
      rw [ih (List.cons_ne_nil b' bs), and_assoc]
      rfl

/-- The bits read lie one after the other, all of them below LEN of the clock. -/
theorem BitsRead.bounds {cur : Nat} {bs : List I2cBit} (h : BitsRead s c k cur bs) (hne : bs ≠ []) :
    cur < firstRise bs ∧ firstRise bs < lastFall bs ∧ lastFall bs < s.len k := by
  induction bs generalizing cur with
  | nil => exact absurd rfl hne
  | cons b bs ih =>
    obtain ⟨⟨hrise, hfall⟩, _, hrest⟩ := h
    obtain ⟨hr, _, _⟩ := hrise.bounds
    obtain ⟨hf, hlen, _⟩ := hfall.bounds
    cases bs with
    | nil => exact ⟨hr, hf, hlen⟩
    | cons b' bs =>
      obtain ⟨h1, h2, h3⟩ := ih hrest (List.cons_ne_nil b' bs)
      exact ⟨hr, hf.trans (h1.trans h2), h3⟩

/-! ## The records of the bits -/

theorem msbFirst_concat (bits : List Bool) (b : Bool) : msbFirst (bits ++ [b]) = 2 * msbFirst bits + b.toNat := by
  simp only [msbFirst, List.foldl_append, List.foldl_cons, List.foldl_nil]

/-- The number of the first bits of a list is the number of those bits (45_i2c.md R426, R429). -/
theorem bitsNumber_append (bs cs : List I2cBit) : bitsNumber bs.length (bs ++ cs) = i2cValue bs := by
  induction bs using List.reverseRecOn generalizing cs with
  | nil => rfl
  | append_singleton bs b ih =>
    rw [i2cValue, List.map_append, List.map_singleton, msbFirst_concat, ← i2cValue, ← ih (b :: cs), List.length_append,
      List.length_singleton, List.append_assoc, List.singleton_append]
    unfold bitsNumber
    rw [Finset.sum_range_succ, Finset.mul_sum]
    congr 1
    · refine Finset.sum_congr rfl fun i hi => ?_
      have hi := Finset.mem_range.1 hi
      rw [show bs.length + 1 - 1 - i = (bs.length - 1 - i) + 1 by omega, Nat.pow_succ]
      ring
    · simp

theorem riseOf_append {bs : List I2cBit} (hne : bs ≠ []) (cs : List I2cBit) : riseOf (bs ++ cs) 0 = firstRise bs := by
  cases bs with
  | nil => exact absurd rfl hne
  | cons b bs => rfl

theorem fallOf_append {bs : List I2cBit} (hne : bs ≠ []) (cs : List I2cBit) :
    fallOf (bs ++ cs) (bs.length - 1) = lastFall bs := by
  have hpos := List.length_pos_iff.2 hne
  rw [fallOf, List.getElem?_append_left (by omega), lastFall, List.getLast?_eq_getElem?]

/-- The token of an I2C record. -/
theorem record_i2cToken {kind : Kind} {value first last : Nat} (h : first ≤ last) :
    (i2cToken kind value first last).record = plainRecord kind.code value first last := record_eq_plainRecord h

/-- The tokens of an address phase (45_i2c.md R426, R427). -/
def addressTokens (bs : List I2cBit) (d : I2cBit) : List Emit :=
  [i2cToken .iAddr (i2cValue bs) (firstRise bs) (lastFall bs), i2cToken (if d.bit then .iRead else .iWrite) 0 d.rise d.fall]

/-- The token of a data byte (45_i2c.md R429). -/
def byteToken (bs : List I2cBit) : Emit := i2cToken .iByte (i2cValue bs) (firstRise bs) (lastFall bs)

/-- The token of an acknowledge bit (45_i2c.md R428). -/
def ackToken (a : I2cBit) : Emit := i2cToken (if a.bit then .iNak else .iAck) 0 a.rise a.fall

theorem BitsRead.rise_lt_fall {cur : Nat} {b : I2cBit} (h : BitsRead s c k cur [b]) : b.rise < b.fall :=
  (h.bounds (List.cons_ne_nil b [])).2.1

theorem addressTokens_records {cur : Nat} {bs : List I2cBit} {d : I2cBit} (hlen : bs.length = 7)
    (h : BitsRead s c k cur (bs ++ [d])) : (addressTokens bs d).map Emit.record = addressRecords (bs ++ [d]) := by
  have hne : bs ≠ [] := List.length_pos_iff.1 (by omega)
  obtain ⟨hbs, hd⟩ := (bitsRead_append hne).1 h
  have hlast : (bs ++ [d])[7]? = some d := by rw [← hlen, List.getElem?_concat_length]
  have hvalue := bitsNumber_append bs [d]
  have hfall := fallOf_append hne [d]
  rw [hlen] at hvalue hfall
  simp only [addressTokens, addressRecords, List.map_cons, List.map_nil]
  rw [record_i2cToken (hbs.bounds hne).2.1.le, record_i2cToken hd.rise_lt_fall.le, hvalue, riseOf_append hne, hfall]
  simp only [riseOf, fallOf, hlast, Option.any_some, Option.map_some, Option.getD_some, apply_ite Kind.code]
  rfl

theorem byteToken_record {cur : Nat} {bs : List I2cBit} (hlen : bs.length = 8) (h : BitsRead s c k cur bs) :
    (byteToken bs).record = byteRecord bs := by
  have hne : bs ≠ [] := List.length_pos_iff.1 (by omega)
  have hvalue := bitsNumber_append bs []
  have hrise := riseOf_append hne []
  have hfall := fallOf_append hne []
  rw [List.append_nil, hlen] at hvalue hfall
  rw [List.append_nil] at hrise
  rw [byteToken, byteRecord, record_i2cToken (h.bounds hne).2.1.le, hvalue, hrise, hfall]
  rfl

theorem ackToken_record {cur : Nat} {a : I2cBit} (h : BitsRead s c k cur [a]) : (ackToken a).record = ackRecord a := by
  rw [ackToken, ackRecord, record_i2cToken h.rise_lt_fall.le, apply_ite Kind.code]
  rfl

/-! ## The searches of the machine -/

theorem firstIn_bothHigh_eq_some {n p : Nat} :
    firstIn (fun p => s.get c p && s.get k p) n (s.len c) = some p ↔ IsLeast (bothHigh s c k n) p := by
  rw [firstIn_eq_some]
  simp only [bothHigh, Bool.and_eq_true]

theorem firstIn_bothHigh_eq_none {n : Nat} :
    firstIn (fun p => s.get c p && s.get k p) n (s.len c) = none ↔ ¬ ∃ p, p ∈ bothHigh s c k n := by
  rw [Option.eq_none_iff_forall_ne_some]
  simp only [ne_eq, firstIn_bothHigh_eq_some]
  refine ⟨fun h ⟨p, hp⟩ => ?_, fun h p hp => h ⟨p, hp.1⟩⟩
  obtain ⟨j, hj⟩ := exists_isLeast hp
  exact h j hj

theorem i2cStopFound_eq_some {half cur dr q : Nat} :
    s.i2cStopFound c k half cur = some (dr, q) ↔ StopFound s c k half cur dr q := by
  have htest (r q' : Nat) : (s.get c q' && s.get k q' && (!s.params.stopEdgeCheck || s.get k r)) = true
      ↔ s.get c q' = true ∧ s.get k q' = true ∧ (s.params.stopEdgeCheck = true → s.get k r = true) := by
    rw [Bool.and_eq_true, Bool.and_eq_true, and_assoc, Bool.or_eq_true, Bool.not_eq_true', ← Bool.not_eq_true,
      imp_iff_not_or]
  unfold State.i2cStopFound StopFound
  cases hcr : s.nreNat k cur with
  | none => exact ⟨nofun, fun ⟨cr, h, _⟩ => absurd ⟨cr, h⟩ (nreNat_eq_none.1 hcr)⟩
  | some cr =>
    have hcr := nreNat_eq_some.1 hcr
    dsimp only
    cases hdr : s.nreNat c cr with
    | none =>
      refine ⟨nofun, fun ⟨cr', h, h', _⟩ => ?_⟩
      obtain rfl := hcr.unique h
      exact absurd ⟨dr, h'⟩ (nreNat_eq_none.1 hdr)
    | some dr' =>
      have hdr := nreNat_eq_some.1 hdr
      simp only [htest, Option.ite_none_right_eq_some, Option.some.injEq, Prod.mk.injEq]
      constructor
      · rintro ⟨⟨hc, hk, hedge⟩, rfl, rfl⟩
        exact ⟨cr, hcr, hdr, rfl, hc, hk, hedge⟩
      · rintro ⟨cr', h, h', rfl, hc, hk, hedge⟩
        obtain rfl := hcr.unique h
        obtain rfl := hdr.unique h'
        exact ⟨⟨hc, hk, hedge⟩, rfl, rfl⟩

theorem i2cStopFound_eq_none {half cur : Nat} :
    s.i2cStopFound c k half cur = none ↔ ¬ ∃ dr q, StopFound s c k half cur dr q := by
  rw [Option.eq_none_iff_forall_ne_some]
  simp only [ne_eq, Prod.forall, i2cStopFound_eq_some, not_exists]

/-! ## One turn of the machine, by its outcome (45_i2c.md R424 to R432) -/

section
variable {half : Nat} {m : I2cMachine}

/-- AwaitStart, with no point where both lines are high. -/
theorem i2cAwaitStart_noHigh (h : ¬ ∃ p, p ∈ bothHigh s c k m.n) :
    s.i2cAwaitStart c k m = { tokens := [], next := none } := by
  simp only [State.i2cAwaitStart, firstIn_bothHigh_eq_none.2 h]

/-- AwaitStart, with no fall of SDA. -/
theorem i2cAwaitStart_noFall {p : Nat} (hp : IsLeast (bothHigh s c k m.n) p) (h : ¬ ∃ f, EdgeFound s c true p f) :
    s.i2cAwaitStart c k m = { tokens := [], next := none } := by
  simp only [State.i2cAwaitStart, firstIn_bothHigh_eq_some.2 hp, nfeNat_eq_none.2 h]

/-- AwaitStart, where SDA falls: a start if SCL is high there. -/
theorem i2cAwaitStart_fall {p f : Nat} (hp : IsLeast (bothHigh s c k m.n) p) (hf : EdgeFound s c true p f) :
    s.i2cAwaitStart c k m =
      if s.get k f then { tokens := [i2cToken .iStart 0 f f], next := some { m with state := .readAddress, cur := f } }
      else { tokens := [], next := some { m with n := f + 1 } } := by
  simp only [State.i2cAwaitStart, firstIn_bothHigh_eq_some.2 hp, nfeNat_eq_some.2 hf]

/-- The acknowledge bit is there. -/
theorem i2cAck_some {cur : Nat} {a : I2cBit} (ha : BitsRead s c k cur [a]) (head : List Emit) :
    s.i2cAck c k m cur head =
      { tokens := head ++ [ackToken a], next := some { m with state := .awaitStop, cur := a.fall, ack := !a.bit } } := by
  simp only [State.i2cAck, i2cReadBit_eq_some.2 ha]
  rfl

/-- The acknowledge bit is missing. -/
theorem i2cAck_none {cur : Nat} (ha : ¬ ∃ a, BitsRead s c k cur [a]) (head : List Emit) :
    s.i2cAck c k m cur head = { tokens := head, next := none } := by
  simp only [State.i2cAck, i2cReadBit_eq_none.2 ha]

/-- ReadAddress, with fewer than 8 bits left. -/
theorem i2cReadAddress_cut (h : ¬ ∃ bs, bs.length = 8 ∧ BitsRead s c k m.cur bs) :
    s.i2cReadAddress c k m = { tokens := [], next := none } := by
  unfold State.i2cReadAddress
  cases hbs : s.i2cReadBits c k 7 m.cur with
  | none => rfl
  | some bs =>
    obtain ⟨hlen, hread⟩ := i2cReadBits_eq_some.1 hbs
    have hne : bs ≠ [] := List.length_pos_iff.1 (by omega)
    dsimp only
    rw [i2cReadBit_eq_none.2 fun ⟨d, hd⟩ => h ⟨bs ++ [d], by rw [List.length_append, hlen]; rfl,
      (bitsRead_append hne).2 ⟨hread, hd⟩⟩]

/-- ReadAddress, with the 8 bits of the address and the direction. -/
theorem i2cReadAddress_bits {bs : List I2cBit} {d : I2cBit} (hlen : bs.length = 7)
    (h : BitsRead s c k m.cur (bs ++ [d])) :
    s.i2cReadAddress c k m = s.i2cAck c k m d.fall (addressTokens bs d) := by
  have hne : bs ≠ [] := List.length_pos_iff.1 (by omega)
  obtain ⟨hbs, hd⟩ := (bitsRead_append hne).1 h
  simp only [State.i2cReadAddress, i2cReadBits_eq_some.2 ⟨hlen, hbs⟩, i2cReadBit_eq_some.2 hd]
  rfl

/-- ReadByte, with fewer than 8 bits left. -/
theorem i2cReadByte_cut (h : ¬ ∃ bs, bs.length = 8 ∧ BitsRead s c k m.cur bs) :
    s.i2cReadByte c k m = { tokens := [], next := none } := by
  simp only [State.i2cReadByte, i2cReadBits_eq_none.2 h]

/-- ReadByte, with the 8 bits of the byte. -/
theorem i2cReadByte_bits {bs : List I2cBit} (hlen : bs.length = 8) (h : BitsRead s c k m.cur bs) :
    s.i2cReadByte c k m = s.i2cAck c k m (lastFall bs) [byteToken bs] := by
  simp only [State.i2cReadByte, i2cReadBits_eq_some.2 ⟨hlen, h⟩]
  rfl

/-- AwaitStop, with a stop. -/
theorem i2cAwaitStop_stop {dr q : Nat} (h : StopFound s c k half m.cur dr q) :
    s.i2cAwaitStop c k half m =
      { tokens := [i2cToken .iStop 0 dr dr], next := some { m with state := .awaitStart, n := q } } := by
  simp only [State.i2cAwaitStop, i2cStopFound_eq_some.2 h]

/-- AwaitStop, with no stop: the acknowledge bit decides. -/
theorem i2cAwaitStop_noStop (h : ¬ ∃ dr q, StopFound s c k half m.cur dr q) :
    s.i2cAwaitStop c k half m =
      if m.ack then { tokens := [], next := some { m with state := .readByte } }
      else { tokens := [i2cToken .iErr 0 m.cur m.cur], next := some { m with state := .awaitStart, n := m.cur } } := by
  simp only [State.i2cAwaitStop, i2cStopFound_eq_none.2 h]

/-! ## Runs of the machine -/

theorem i2cRun_end {fuel : Nat} {ts : List Emit} (hfuel : 0 < fuel)
    (h : s.i2cTurn c k half m = { tokens := ts, next := none }) : s.i2cRun c k half fuel m = ts := by
  obtain ⟨fuel, rfl⟩ := Nat.exists_eq_add_one_of_ne_zero hfuel.ne'
  simp only [State.i2cRun, h]

theorem i2cRun_next {fuel : Nat} {ts : List Emit} {m' : I2cMachine} (hfuel : 0 < fuel)
    (h : s.i2cTurn c k half m = { tokens := ts, next := some m' }) :
    s.i2cRun c k half fuel m = ts ++ s.i2cRun c k half (fuel - 1) m' := by
  obtain ⟨fuel, rfl⟩ := Nat.exists_eq_add_one_of_ne_zero hfuel.ne'
  simp only [State.i2cRun, h, Nat.add_sub_cancel]

end

/-- A bound on the turns that are left (45_i2c.md R435): each turn but those of AwaitStop moves on, and AwaitStop
answers once at each position. -/
def i2cRank (s : State) (c k : Chan) : I2cState → Nat → Nat → Nat
  | .awaitStart, n, _ => 2 * (s.len c + s.len k - n)
  | .awaitStop, _, cur => 2 * (s.len c + s.len k - cur) + 1
  | .readAddress, _, cur => 2 * (s.len c + s.len k - cur)
  | .readByte, _, cur => 2 * (s.len c + s.len k - cur)

theorem StopFound.bounds {half cur dr q : Nat} (h : StopFound s c k half cur dr q) :
    cur < dr ∧ dr < q ∧ dr < s.len c := by
  obtain ⟨cr, hcr, hdr, rfl, _⟩ := h
  have h1 := hcr.bounds
  have h2 := hdr.bounds
  omega

theorem lastFall_concat (bs : List I2cBit) (d : I2cBit) : lastFall (bs ++ [d]) = d.fall := by
  rw [lastFall, List.getLast?_concat]; rfl

/-- The last of eight bits and the bits before it. -/
theorem eight_bits_split {bs : List I2cBit} (hlen : bs.length = 8) : ∃ as d, bs = as ++ [d] ∧ as.length = 7 := by
  have hne : bs ≠ [] := List.length_pos_iff.1 (by omega)
  exact ⟨bs.dropLast, bs.getLast hne, (List.dropLast_append_getLast hne).symm, by rw [List.length_dropLast, hlen]⟩

/-- Eight bits and an acknowledge bit: where they lie, and that the position moves on. -/
theorem bitsRead_ack {cur : Nat} {bs : List I2cBit} {a : I2cBit} (hlen : bs.length = 8)
    (h : BitsRead s c k cur (bs ++ [a])) :
    BitsRead s c k cur bs ∧ BitsRead s c k (lastFall bs) [a] ∧ cur < a.fall ∧ a.fall < s.len k := by
  have hne : bs ≠ [] := List.length_pos_iff.1 (by omega)
  obtain ⟨hbs, ha⟩ := (bitsRead_append hne).1 h
  have h1 := hbs.bounds hne
  have h2 := ha.bounds (List.cons_ne_nil a [])
  have h3 : lastFall [a] = a.fall := rfl
  exact ⟨hbs, ha, by omega, by omega⟩

/-- No acknowledge bit follows the eight bits. -/
theorem not_bitsRead_ack {cur : Nat} {bs : List I2cBit} (hlen : bs.length = 8) (hbs : BitsRead s c k cur bs)
    (h : ¬ ∃ a, BitsRead s c k cur (bs ++ [a])) : ¬ ∃ a, BitsRead s c k (lastFall bs) [a] := by
  have hne : bs ≠ [] := List.length_pos_iff.1 (by omega)
  exact fun ⟨a, ha⟩ => h ⟨a, (bitsRead_append hne).2 ⟨hbs, ha⟩⟩

/-- The records that the loop of R420 emits are those of the machine, run for as many turns as it can take. -/
theorem i2cRun_records {half : Nat} {st : I2cState} {n cur : Nat} {ack : Bool} {ts : List Token}
    (h : I2cScan s c k half st n cur ack ts) {fuel : Nat} (hfuel : i2cRank s c k st n cur < fuel) :
    (s.i2cRun c k half fuel { state := st, n := n, cur := cur, ack := ack }).map Emit.record = ts := by
  induction h generalizing fuel with
  | noHigh n cur ack h =>
    rw [i2cRun_end (m := ⟨.awaitStart, n, cur, ack⟩) (Nat.zero_lt_of_lt hfuel) (i2cAwaitStart_noHigh h)]
    rfl
  | noFall n cur p ack hp h =>
    rw [i2cRun_end (m := ⟨.awaitStart, n, cur, ack⟩) (Nat.zero_lt_of_lt hfuel) (i2cAwaitStart_noFall hp h)]
    rfl
  | start n cur p f ack ts hp hf hk hr ih =>
    have hturn := (i2cAwaitStart_fall (m := ⟨.awaitStart, n, cur, ack⟩) hp hf).trans (if_pos hk)
    have hpn : n ≤ p := hp.1.1
    have hfb := hf.bounds
    rw [i2cRank] at hfuel
    rw [i2cRun_next (m := ⟨.awaitStart, n, cur, ack⟩) (Nat.zero_lt_of_lt hfuel) hturn, List.map_append,
      ih (by rw [i2cRank]; omega)]
    exact congrArg (· :: ts) (record_i2cToken le_rfl)
  | lowFall n cur p f ack ts hp hf hk hr ih =>
    have hturn := (i2cAwaitStart_fall (m := ⟨.awaitStart, n, cur, ack⟩) hp hf).trans (if_neg (Bool.eq_false_iff.1 hk))
    have hpn : n ≤ p := hp.1.1
    have hfb := hf.bounds
    rw [i2cRank] at hfuel
    rw [i2cRun_next (m := ⟨.awaitStart, n, cur, ack⟩) (Nat.zero_lt_of_lt hfuel) hturn, List.map_append,
      ih (by rw [i2cRank]; omega)]
    rfl
  | addressCut n cur ack h =>
    rw [i2cRun_end (m := ⟨.readAddress, n, cur, ack⟩) (Nat.zero_lt_of_lt hfuel) (i2cReadAddress_cut h)]
    rfl
  | addressNoAck n cur ack bs hl hb h =>
    have hnone := not_bitsRead_ack hl hb h
    obtain ⟨as, d, rfl, has⟩ := eight_bits_split hl
    rw [lastFall_concat] at hnone
    have hturn := (i2cReadAddress_bits (m := ⟨.readAddress, n, cur, ack⟩) has hb).trans (i2cAck_none hnone _)
    rw [i2cRun_end (m := ⟨.readAddress, n, cur, ack⟩) (Nat.zero_lt_of_lt hfuel) hturn, addressTokens_records has hb]
  | address n cur ack bs a ts hl hb hr ih =>
    obtain ⟨hbs, ha, hlt, hlen⟩ := bitsRead_ack hl hb
    obtain ⟨as, d, rfl, has⟩ := eight_bits_split hl
    rw [lastFall_concat] at ha
    have hturn := (i2cReadAddress_bits (m := ⟨.readAddress, n, cur, ack⟩) has hbs).trans (i2cAck_some ha _)
    rw [i2cRank] at hfuel
    rw [i2cRun_next (m := ⟨.readAddress, n, cur, ack⟩) (Nat.zero_lt_of_lt hfuel) hturn, List.map_append, List.map_append,
      addressTokens_records has hbs, ih (by rw [i2cRank]; omega), List.map_singleton, ackToken_record ha, List.append_assoc, List.singleton_append]
  | byteCut n cur ack h =>
    rw [i2cRun_end (m := ⟨.readByte, n, cur, ack⟩) (Nat.zero_lt_of_lt hfuel) (i2cReadByte_cut h)]
    rfl
  | byteNoAck n cur ack bs hl hb h =>
    have hturn := (i2cReadByte_bits (m := ⟨.readByte, n, cur, ack⟩) hl hb).trans
      (i2cAck_none (not_bitsRead_ack hl hb h) _)
    rw [i2cRun_end (m := ⟨.readByte, n, cur, ack⟩) (Nat.zero_lt_of_lt hfuel) hturn, List.map_singleton,
      byteToken_record hl hb]
  | byte n cur ack bs a ts hl hb hr ih =>
    obtain ⟨hbs, ha, hlt, hlen⟩ := bitsRead_ack hl hb
    have hturn := (i2cReadByte_bits (m := ⟨.readByte, n, cur, ack⟩) hl hbs).trans (i2cAck_some ha _)
    rw [i2cRank] at hfuel
    rw [i2cRun_next (m := ⟨.readByte, n, cur, ack⟩) (Nat.zero_lt_of_lt hfuel) hturn, List.map_append, List.map_append,
      ih (by rw [i2cRank]; omega), List.map_singleton, List.map_singleton, byteToken_record hl hbs, ackToken_record ha]
    rfl
  | stop n cur dr q ack ts h hr ih =>
    have hb := h.bounds
    rw [i2cRank] at hfuel
    rw [i2cRun_next (m := ⟨.awaitStop, n, cur, ack⟩) (Nat.zero_lt_of_lt hfuel) (i2cAwaitStop_stop h), List.map_append,
      ih (by rw [i2cRank]; omega)]
    exact congrArg (· :: ts) (record_i2cToken le_rfl)
  | more n cur ts h hr ih =>
    rw [i2cRank] at hfuel
    rw [i2cRun_next (m := ⟨.awaitStop, n, cur, true⟩) (Nat.zero_lt_of_lt hfuel) (i2cAwaitStop_noStop h), List.map_append,
      ih (by rw [i2cRank]; omega)]
    rfl
  | error n cur ts h hr ih =>
    rw [i2cRank] at hfuel
    rw [i2cRun_next (m := ⟨.awaitStop, n, cur, false⟩) (Nat.zero_lt_of_lt hfuel) (i2cAwaitStop_noStop h), List.map_append,
      ih (by rw [i2cRank]; omega)]
    exact congrArg (· :: ts) (record_i2cToken le_rfl)

/-! ## DEC.I2C (O39, O40) -/

/-- The records of a decode, with or without a clock period (45_i2c.md R422). -/
theorem i2cTokens_records {ts : List Token} (h : I2cRecords s c k ts) : (s.i2cTokens c k).map Emit.record = ts := by
  obtain ⟨hnone, rfl⟩ | ⟨T, hT, hscan⟩ := h
  · rw [State.i2cTokens, period_eq_none.2 hnone]; rfl
  · rw [State.i2cTokens, period_eq_some.2 hT]
    refine i2cRun_records hscan ?_
    rw [i2cRank, State.i2cFuel]
    omega

/-- Both clocked decoders warn of a period of fewer than 3 samples (45_i2c.md R422, 46_spi.md R476). -/
theorem lowClock_iff : s.lowClock k = true ↔ LowClock s k := by
  unfold State.lowClock LowClock
  cases hT : s.period k with
  | none => exact ⟨nofun, fun ⟨T, h, _⟩ => absurd ⟨T, h⟩ (period_eq_none.1 hT)⟩
  | some T =>
    have hT := period_eq_some.1 hT
    refine ⟨fun h => ⟨T, hT, of_decide_eq_true h⟩, fun ⟨T', h, hlt⟩ => decide_eq_true ?_⟩
    rw [← Option.some.inj ((period_eq_some.2 h).symm.trans (period_eq_some.2 hT))]
    exact hlt

theorem i2cLow_eq_lowClock : s.i2cLow k = s.lowClock k := by
  unfold State.i2cLow State.lowClock
  cases s.period k <;> rfl

theorem exec_decI2c_legal {ch : BitVec 4} (hc : ch.toNat = c.val) (hrate : ¬ badRate (s.chan c).rate)
    (hk : (s.chan c).cfg.clksrc.toNat = k.val) :
    exec (.decI2c ch) s = endDecode (s.lowClock k) (State.emitAll c (s.i2cTokens c k) s) := by
  rw [exec_decI2c hc, decodeI2c, withRate_pass hrate, withClock_pass hk, i2cLow_eq_lowClock]

/-- Settles O39: the machine lists the records of the loop, and emission writes as many as there is room for. -/
theorem i2cDecodeAppendsTheRecords : Obligations.I2cDecodeAppendsTheRecords := by
  unfold Obligations.I2cDecodeAppendsTheRecords
  refine ⟨fun ch => encode_toNat (.decI2c ch), checksChannel_of_base, fun s ch c _ hc hbad => ?_,
    fun s ch c k ts hc hrate hk hts => ?_⟩
  · rw [exec_decI2c hc, decodeI2c, withRate_fail hbad]
  · rw [exec_decI2c_legal hc hrate hk, ← i2cTokens_records hts, List.length_map]
    refine ⟨fun hroom => ⟨s.lowClock k, ?_, lowClock_iff⟩, fun hcnt hfull => ?_⟩
    · rw [emitAll_room c _ s hroom, endDecode_going]
    · rw [emitAll_full c _ s hcnt hfull, endDecode_aborted]

/-- On its own clock the data channel never falls while the clock is high, so no start is found (45_i2c.md R436). -/
theorem i2cRun_own_clock (half fuel : Nat) (m : I2cMachine) (hm : m.state = .awaitStart) :
    s.i2cRun c c half fuel m = [] := by
  induction fuel generalizing m with
  | zero => rfl
  | succ fuel ih =>
    have hturn : s.i2cTurn c c half m = s.i2cAwaitStart c c m := by rw [State.i2cTurn, hm]
    by_cases hhigh : ∃ p, p ∈ bothHigh s c c m.n
    case neg => exact i2cRun_end (Nat.succ_pos fuel) (hturn.trans (i2cAwaitStart_noHigh hhigh))
    obtain ⟨p, hp⟩ := exists_isLeast hhigh.choose_spec
    by_cases hfall : ∃ f, EdgeFound s c true p f
    case neg => exact i2cRun_end (Nat.succ_pos fuel) (hturn.trans (i2cAwaitStart_noFall hp hfall))
    obtain ⟨f, hf⟩ := hfall
    have hlow : ¬ s.get c f = true := by rw [hf.bounds.2.2]; exact Bool.false_ne_true
    rw [i2cRun_next (Nat.succ_pos fuel) (hturn.trans ((i2cAwaitStart_fall hp hf).trans (if_neg hlow))), List.nil_append]
    exact ih _ hm

theorem i2cTokens_own_clock : s.i2cTokens c c = [] := by
  unfold State.i2cTokens
  cases s.period c with
  | none => rfl
  | some T => exact i2cRun_own_clock _ _ _ rfl

/-- Settles O40: the list of tokens is empty, so there is nothing that could overflow. -/
theorem i2cOnItsOwnClockEmitsNothing : Obligations.I2cOnItsOwnClockEmitsNothing := by
  unfold Obligations.I2cOnItsOwnClockEmitsNothing
  intro s ch c hc hrate hk
  refine ⟨s.lowClock c, ?_, lowClock_iff⟩
  rw [exec_decI2c_legal hc hrate hk, i2cTokens_own_clock]
  rfl

end Sys2Proof.Machine
end

section
/-! The SPI decoder (46_spi.md): the words of the capture edges and the edge walk of R472. O41. -/

namespace Sys2Proof.Machine

variable {s : State} {c k : Chan}

/-! ## The bits captured at a list of edges -/

/-- The bits of channel `c` captured at the edges `ps`, the first one bit 0 (46_spi.md R473). -/
def spiBits (s : State) (c : Chan) (ps : List Nat) : SpiAcc :=
  { acc := ∑ i ∈ Finset.range ps.length, (s.get c (ps.getD i 0)).toNat * 2 ^ i
    nb := ps.length
    first := ps.headD 0
    last := ps.getLastD 0 }

theorem spiBits_push (ps : List Nat) (e : Nat) :
    (spiBits s c ps).push e (s.get c e) = spiBits s c (ps ++ [e]) := by
  have hsum : ∑ i ∈ Finset.range (ps ++ [e]).length, (s.get c ((ps ++ [e]).getD i 0)).toNat * 2 ^ i
      = (∑ i ∈ Finset.range ps.length, (s.get c (ps.getD i 0)).toNat * 2 ^ i)
        + (s.get c e).toNat * 2 ^ ps.length := by
    rw [List.length_append, List.length_singleton, Finset.sum_range_succ]
    congr 1
    · refine Finset.sum_congr rfl fun i hi => ?_
      rw [List.getD_append _ _ _ _ (Finset.mem_range.1 hi)]
    · rw [List.getD_append_right _ _ _ _ le_rfl, Nat.sub_self]
      rfl
  have hfirst : (if ps.length = 0 then e else ps.headD 0) = (ps ++ [e]).headD 0 := by cases ps <;> rfl
  have hlast : e = (ps ++ [e]).getLastD 0 := by rw [List.getLastD_concat]
  simp only [spiBits, SpiAcc.push, SpiAcc.mk.injEq]
  exact ⟨hsum.symm, by rw [List.length_append]; rfl, hfirst, hlast⟩

theorem headD_le_getLastD {ps : List Nat} (h : ps.Pairwise (· < ·)) : ps.headD 0 ≤ ps.getLastD 0 := by
  cases ps with
  | nil => exact le_rfl
  | cons p ps =>
    rw [List.getLastD_cons, List.headD_cons]
    cases hl : ps.getLast? with
    | none => rw [List.getLast?_eq_none_iff.1 hl]; exact le_rfl
    | some q =>
      rw [List.getLastD_eq_getLast?, hl]
      exact ((List.pairwise_cons.1 h).1 q (List.mem_of_getLast? hl)).le

/-- A record whose end is not before its start (42_decode_common.md R331). -/
theorem Emit.record_of_le {t : Emit} (h : t.first ≤ t.last) :
    t.record = { word0 := storeNat (t.kind.code + 256 * t.nbits + 65536 * t.value)
                 word1 := storeNat t.first
                 word2 := storeNat t.last
                 word3 := 0 } := by
  rw [Emit.record, if_neg (Nat.not_lt.2 h)]

/-- The S_WORD of the bits captured is the record of their edges. -/
theorem spiBits_record {ps : List Nat} (h : ps.Pairwise (· < ·)) : (spiBits s c ps).word.record = spiRecord s c ps :=
  Emit.record_of_le (t := (spiBits s c ps).word) (headD_le_getLastD h)

/-! ## Groups of eight -/

theorem byteGroups_short {ps : List Nat} (hne : ps ≠ []) (h : ps.length < 8) : byteGroups ps = [ps] := by
  have hpos := List.length_pos_iff.2 hne
  rw [byteGroups, show (ps.length + 7) / 8 = 1 by omega]
  exact congrArg (· :: []) (List.take_of_length_le h.le)

theorem byteGroups_append {g : List Nat} (hg : g.length = 8) (ps : List Nat) :
    byteGroups (g ++ ps) = g :: byteGroups ps := by
  rw [byteGroups, List.length_append, hg, show (8 + ps.length + 7) / 8 = (ps.length + 7) / 8 + 1 by omega,
    List.range_succ_eq_map, List.map_cons, List.map_map]
  congr 1
  · rw [Nat.mul_zero, List.drop_zero, ← hg, List.take_left]
  · refine List.map_congr_left fun j _ => ?_
    have hdrop : (g ++ ps).drop (8 * (j + 1)) = ps.drop (8 * j) := by
      rw [show 8 * (j + 1) = g.length + 8 * j by omega, ← List.drop_drop, List.drop_left]
    simp only [Function.comp_apply, Nat.succ_eq_add_one, hdrop]

/-! ## The edge walk -/

theorem CaptureEdges.rising {before : Bool} {pos : Nat} {es : List Nat} (h : CaptureEdges s k before pos es) :
    es.Pairwise (· < ·) ∧ ∀ e ∈ es, pos < e := by
  induction es generalizing pos with
  | nil => exact ⟨List.Pairwise.nil, nofun⟩
  | cons e es ih =>
    obtain ⟨he, hes⟩ := h
    obtain ⟨hord, hafter⟩ := ih hes
    have hlt := he.bounds.1
    refine ⟨List.pairwise_cons.2 ⟨hafter, hord⟩, fun e' he' => ?_⟩
    obtain rfl | hmem := List.mem_cons.1 he'
    · exact hlt
    · exact hlt.trans (hafter e' hmem)

/-- There are at most as many edges as samples left (46_spi.md R477). -/
theorem CaptureEdges.length_le {before : Bool} {pos : Nat} {es : List Nat} (h : CaptureEdges s k before pos es) :
    es.length ≤ s.len k - pos := by
  induction es generalizing pos with
  | nil => exact Nat.zero_le _
  | cons e es ih =>
    obtain ⟨he, hes⟩ := h
    obtain ⟨hlt, hlen, _⟩ := he.bounds
    have hle := ih hes
    rw [List.length_cons]
    omega

/-- The search of the edge walk. -/
theorem spiSearch_eq (rising : Bool) (pos : Nat) :
    (if rising then s.nreNat k pos else s.nfeNat k pos) = s.edgeFrom k (!rising) pos := by cases rising <;> rfl

theorem spiWalk_end {rising : Bool} {fuel pos : Nat} {a : SpiAcc} (h : ¬ ∃ e, EdgeFound s k (!rising) pos e) :
    s.spiWalk c k rising (fuel + 1) pos a = a.flush := by
  simp only [State.spiWalk, spiSearch_eq, edgeFrom_eq_none.2 h]

theorem spiWalk_edge {rising : Bool} {fuel pos e : Nat} {ps : List Nat} (h : EdgeFound s k (!rising) pos e) :
    s.spiWalk c k rising (fuel + 1) pos (spiBits s c ps) =
      if ps.length + 1 = 8 then (spiBits s c (ps ++ [e])).word :: s.spiWalk c k rising fuel e (spiBits s c [])
      else s.spiWalk c k rising fuel e (spiBits s c (ps ++ [e])) := by
  have hnb : (spiBits s c (ps ++ [e])).nb = ps.length + 1 := List.length_append
  simp only [State.spiWalk, spiSearch_eq, edgeFrom_eq_some.2 h, spiBits_push, hnb]
  rfl

/-- The records of the walk are those of the edges in groups of eight, the bits already captured before the others. -/
theorem spiWalk_records {rising : Bool} {pos fuel : Nat} {ps es : List Nat} (h : CaptureEdges s k (!rising) pos es)
    (hfuel : es.length < fuel) (hps : ps.length < 8) (hord : (ps ++ es).Pairwise (· < ·)) :
    (s.spiWalk c k rising fuel pos (spiBits s c ps)).map Emit.record = (byteGroups (ps ++ es)).map (spiRecord s c) := by
  induction es generalizing pos fuel ps with
  | nil =>
    obtain ⟨fuel, rfl⟩ := Nat.exists_eq_add_one_of_ne_zero (Nat.ne_zero_of_lt hfuel)
    rw [List.append_nil] at hord ⊢
    rw [spiWalk_end h, SpiAcc.flush]
    by_cases hne : ps = []
    · subst hne; rfl
    · rw [if_pos (show 0 < (spiBits s c ps).nb from List.length_pos_iff.2 hne), byteGroups_short hne hps,
        List.map_singleton, List.map_singleton, spiBits_record hord]
  | cons e es ih =>
    obtain ⟨he, hes⟩ := h
    rw [List.length_cons] at hfuel
    obtain ⟨fuel, rfl⟩ := Nat.exists_eq_add_one_of_ne_zero (n := fuel) (by omega)
    rw [List.append_cons] at hord ⊢
    have hlen : (ps ++ [e]).length = ps.length + 1 := List.length_append
    rw [spiWalk_edge he]
    by_cases hfull : ps.length + 1 = 8
    · have hgroup := spiBits_record (s := s) (c := c) (List.pairwise_append.1 hord).1
      rw [if_pos hfull, List.map_cons, hgroup, byteGroups_append (hlen.trans hfull), List.map_cons]
      congr 1
      exact ih hes (by omega) (Nat.zero_lt_succ 7) (List.pairwise_append.1 hord).2.1
    · rw [if_neg hfull]
      exact ih hes (by omega) (by omega) hord

theorem spiTokens_records {es : List Nat}
    (h : CaptureEdges s k (decide ((s.chan c).cfg.cpol ≠ (s.chan c).cfg.cpha)) 0 es) :
    (s.spiTokens c k).map Emit.record = (byteGroups es).map (spiRecord s c) := by
  have hbefore : decide ((s.chan c).cfg.cpol ≠ (s.chan c).cfg.cpha) = !(s.chan c).cfg.captureRising := by
    rw [decide_not, Cfg.captureRising, beq_eq_decide]
  rw [hbefore] at h
  have hlen := h.length_le
  exact spiWalk_records (ps := []) h (by omega) (by decide) h.rising.1

/-! ## DEC.SPI (O41) -/

theorem exec_decSpi_legal {ch : BitVec 4} (hc : ch.toNat = c.val) (hrate : ¬ badRate (s.chan c).rate)
    (hk : (s.chan c).cfg.clksrc.toNat = k.val) :
    exec (.decSpi ch) s = endDecode (s.lowClock k) (State.emitAll c (s.spiTokens c k) s) := by
  rw [exec_decSpi hc, decodeSpi, withRate_pass hrate, withClock_pass hk]

/-- Settles O41: the walk lists the words of the groups, and emission writes as many as there is room for. -/
theorem spiDecodeAppendsByteGroups : Obligations.SpiDecodeAppendsByteGroups := by
  unfold Obligations.SpiDecodeAppendsByteGroups
  refine ⟨fun ch => encode_toNat (.decSpi ch), checksChannel_of_base, fun s ch c _ hc hbad => ?_,
    fun s ch c k es hc hrate hk hes => ?_⟩
  · rw [exec_decSpi hc, decodeSpi, withRate_fail hbad]
  · have hrecords := spiTokens_records hes
    have hlen : (byteGroups es).length = (s.spiTokens c k).length := by
      rw [← List.length_map (f := Emit.record), hrecords, List.length_map]
    rw [exec_decSpi_legal hc hrate hk, ← hrecords, hlen]
    refine ⟨fun hroom => ⟨s.lowClock k, ?_, lowClock_iff⟩, fun hcnt hfull => ?_⟩
    · rw [emitAll_room c _ s hroom, endDecode_going]
    · rw [emitAll_full c _ s hcnt hfull, endDecode_aborted]

end Sys2Proof.Machine
end

section
/-! The three scans of the decoders end, each in one way, on every state (44_uart.md R393, 45_i2c.md R435, 46_spi.md R477):
O35. -/

namespace Sys2Proof.Machine

variable {s : State} {c k : Chan}

/-! ## The UART loop -/

/-- Where no edge is looked for, or none found, the loop ends. -/
theorem UartScan.eq_nil {n : Nat} {fs : List (List Token)} (h : UartScan s c n fs)
    (hend : s.len c < n + 10 * uartSpb s c ∨ ¬ ∃ e, EdgeFound s c true n e) : fs = [] := by
  have hgone {e : Nat} (hle : n + 10 * uartSpb s c ≤ s.len c) (he : EdgeFound s c true n e) : False :=
    hend.elim (fun hshort => absurd hle (Nat.not_le.2 hshort)) fun hno => hno ⟨e, he⟩
  cases h with
  | short => rfl
  | noEdge => rfl
  | glitch _ e _ hle he => exact (hgone hle he).elim
  | badStop _ e _ hle he => exact (hgone hle he).elim
  | good _ e v gs hle he => exact (hgone hle he).elim

/-- All stop bits of the frame with left edge `e` are high, as the spec places them (44_uart.md R386, R389). -/
def StopBitsHigh (s : State) (c : Chan) (e : Nat) : Prop :=
  ∀ j, j < uartStops s c → s.get c (e + uartHalf s c + (uartStopPos s c + j) * uartSpb s c) = true

/-- Where the search for a start edge goes on after a good frame (44_uart.md R391). -/
def uartResume (s : State) (c : Chan) (e : Nat) : Nat :=
  e + uartHalf s c + (uartStopPos s c + uartStops s c - 1) * uartSpb s c + 1

/-- The data of the frame with left edge `e` (44_uart.md R387). -/
def uartFrameData (s : State) (c : Chan) (e : Nat) : Nat :=
  lsbFirst (fun i => s.get c (e + uartHalf s c + (i + 1) * uartSpb s c)) (uartDataBits s c)

/-- The records of the frame with left edge `e`, by its samples (44_uart.md R390). -/
def uartFrameAt (s : State) (c : Chan) (e : Nat) : List Token :=
  uartFrame s c e (uartFrameData s c e) (s.get c (e + uartHalf s c + (uartDataBits s c + 1) * uartSpb s c))

/-- What the loop does at an edge: it drops the candidate, or takes the frame. -/
theorem UartScan.of_edge {n e : Nat} {fs : List (List Token)} (h : UartScan s c n fs)
    (hle : n + 10 * uartSpb s c ≤ s.len c) (he : EdgeFound s c true n e) :
    ((s.get c (e + uartHalf s c) = true ∨ ¬ StopBitsHigh s c e) ∧ UartScan s c (e + uartHalf s c + 1) fs)
      ∨ (s.get c (e + uartHalf s c) = false ∧ StopBitsHigh s c e
          ∧ ∃ gs, fs = uartFrameAt s c e :: gs ∧ UartScan s c (uartResume s c e) gs) := by
  cases h with
  | short _ hshort => exact absurd hle (Nat.not_le.2 hshort)
  | noEdge _ _ hno => exact absurd ⟨e, he⟩ hno
  | glitch _ e' _ _ he' hm hr =>
    obtain rfl := he'.unique he
    exact .inl ⟨.inl hm, hr⟩
  | badStop _ e' _ _ he' hm hs hr =>
    obtain rfl := he'.unique he
    obtain ⟨j, hj, hlow⟩ := hs
    exact .inl ⟨.inr fun hall => Bool.false_ne_true (hlow.symm.trans (hall j hj)), hr⟩
  | good _ e' v gs _ he' hm hv hd hs hr =>
    obtain rfl := he'.unique he
    refine .inr ⟨hm, hs, gs, ?_, hr⟩
    rw [uartFrameAt, uartFrameData, ← eq_lsbFirst hv hd]

theorem UartScan.unique {n : Nat} {fs gs : List (List Token)} (h : UartScan s c n fs) (h' : UartScan s c n gs) :
    fs = gs := by
  induction h generalizing gs with
  | short n hshort => exact (h'.eq_nil (.inl hshort)).symm
  | noEdge n hle hno => exact (h'.eq_nil (.inr hno)).symm
  | glitch n e fs hle he hm hr ih =>
    obtain ⟨_, hr'⟩ | ⟨hm', _⟩ := h'.of_edge hle he
    · exact ih hr'
    · exact absurd (hm'.symm.trans hm) Bool.false_ne_true
  | badStop n e fs hle he hm hs hr ih =>
    obtain ⟨_, hr'⟩ | ⟨_, hall, _⟩ := h'.of_edge hle he
    · exact ih hr'
    · obtain ⟨j, hj, hlow⟩ := hs
      exact absurd (hlow.symm.trans (hall j hj)) Bool.false_ne_true
  | good n e v fs hle he hm hv hd hs hr ih =>
    obtain ⟨hm' | hnot, _⟩ | ⟨_, _, gs', rfl, hr'⟩ := h'.of_edge hle he
    · exact absurd (hm.symm.trans hm') Bool.false_ne_true
    · exact absurd hs hnot
    · rw [uartFrameAt, uartFrameData, ← eq_lsbFirst hv hd, ih hr']

/-- The loop ends: each pass moves on, and it stops short of LEN (44_uart.md R393). -/
theorem exists_uartScan (s : State) (c : Chan) (n : Nat) : ∃ fs, UartScan s c n fs := by
  induction hleft : s.len c - n using Nat.strong_induction_on generalizing n with
  | h left ih =>
    by_cases hle : n + 10 * uartSpb s c ≤ s.len c
    case neg => exact ⟨[], .short n (by omega)⟩
    by_cases hedge : ∃ e, EdgeFound s c true n e
    case neg => exact ⟨[], .noEdge n hle hedge⟩
    obtain ⟨e, he⟩ := hedge
    have hb := he.bounds
    have hnext {n' : Nat} (hn' : e < n') : ∃ fs, UartScan s c n' fs := ih (s.len c - n') (by omega) n' rfl
    cases hm : s.get c (e + uartHalf s c) with
    | true =>
      obtain ⟨fs, hfs⟩ := hnext (n' := e + uartHalf s c + 1) (by omega)
      exact ⟨fs, .glitch n e fs hle he hm hfs⟩
    | false =>
      by_cases hstop : StopBitsHigh s c e
      · obtain ⟨fs, hfs⟩ := hnext (n' := uartResume s c e) (by rw [uartResume]; omega)
        exact ⟨_, .good n e (uartFrameData s c e) fs hle he hm (lsbFirst_lt _ _) (fun i => testBit_lsbFirst _) hstop hfs⟩
      · obtain ⟨fs, hfs⟩ := hnext (n' := e + uartHalf s c + 1) (by omega)
        refine ⟨fs, .badStop n e fs hle he hm ?_ hfs⟩
        simp only [StopBitsHigh, not_forall, Bool.not_eq_true] at hstop
        obtain ⟨j, hj, hlow⟩ := hstop
        exact ⟨j, hj, hlow⟩

/-! ## The I2C machine -/

/-- The first eight bits of a byte, and the acknowledge bit, are there or not. -/
theorem bits_cases (s : State) (c k : Chan) (cur : Nat) :
    (¬ ∃ bs, bs.length = 8 ∧ BitsRead s c k cur bs)
      ∨ (∃ bs, bs.length = 8 ∧ BitsRead s c k cur bs ∧ ¬ ∃ a, BitsRead s c k cur (bs ++ [a]))
      ∨ ∃ bs a, bs.length = 8 ∧ BitsRead s c k cur (bs ++ [a]) := by
  by_cases hbits : ∃ bs, bs.length = 8 ∧ BitsRead s c k cur bs
  case neg => exact .inl hbits
  obtain ⟨bs, hlen, hbs⟩ := hbits
  by_cases hack : ∃ a, BitsRead s c k cur (bs ++ [a])
  · obtain ⟨a, ha⟩ := hack
    exact .inr (.inr ⟨bs, a, hlen, ha⟩)
  · exact .inr (.inl ⟨bs, hlen, hbs, hack⟩)

/-- The machine ends: its rank falls with every turn (45_i2c.md R435). -/
theorem exists_i2cScan (s : State) (c k : Chan) (half : Nat) (st : I2cState) (n cur : Nat) (ack : Bool) :
    ∃ ts, I2cScan s c k half st n cur ack ts := by
  induction hrank : i2cRank s c k st n cur using Nat.strong_induction_on generalizing st n cur ack with
  | h rank ih =>
    subst hrank
    have hnext {st' : I2cState} {n' cur' : Nat} (ack' : Bool) (hlt : i2cRank s c k st' n' cur' < i2cRank s c k st n cur) :
        ∃ ts, I2cScan s c k half st' n' cur' ack' ts := ih _ hlt st' n' cur' ack' rfl
    cases st with
    | awaitStart =>
      by_cases hhigh : ∃ p, p ∈ bothHigh s c k n
      case neg => exact ⟨[], .noHigh n cur ack hhigh⟩
      obtain ⟨p, hp⟩ := exists_isLeast hhigh.choose_spec
      by_cases hfall : ∃ f, EdgeFound s c true p f
      case neg => exact ⟨[], .noFall n cur p ack hp hfall⟩
      obtain ⟨f, hf⟩ := hfall
      have hpn : n ≤ p := hp.1.1
      have hb := hf.bounds
      cases hk : s.get k f with
      | true =>
        obtain ⟨ts, hts⟩ := hnext (st' := .readAddress) (n' := n) (cur' := f) ack (by simp only [i2cRank]; omega)
        exact ⟨_, .start n cur p f ack ts hp hf hk hts⟩
      | false =>
        obtain ⟨ts, hts⟩ := hnext (st' := .awaitStart) (n' := f + 1) (cur' := cur) ack (by simp only [i2cRank]; omega)
        exact ⟨_, .lowFall n cur p f ack ts hp hf hk hts⟩
    | readAddress =>
      obtain hcut | ⟨bs, hlen, hbs, hno⟩ | ⟨bs, a, hlen, hbs⟩ := bits_cases s c k cur
      · exact ⟨_, .addressCut n cur ack hcut⟩
      · exact ⟨_, .addressNoAck n cur ack bs hlen hbs hno⟩
      · obtain ⟨_, _, hlt, hend⟩ := bitsRead_ack hlen hbs
        obtain ⟨ts, hts⟩ := hnext (st' := .awaitStop) (n' := n) (cur' := a.fall) (!a.bit) (by simp only [i2cRank]; omega)
        exact ⟨_, .address n cur ack bs a ts hlen hbs hts⟩
    | readByte =>
      obtain hcut | ⟨bs, hlen, hbs, hno⟩ | ⟨bs, a, hlen, hbs⟩ := bits_cases s c k cur
      · exact ⟨_, .byteCut n cur ack hcut⟩
      · exact ⟨_, .byteNoAck n cur ack bs hlen hbs hno⟩
      · obtain ⟨_, _, hlt, hend⟩ := bitsRead_ack hlen hbs
        obtain ⟨ts, hts⟩ := hnext (st' := .awaitStop) (n' := n) (cur' := a.fall) (!a.bit) (by simp only [i2cRank]; omega)
        exact ⟨_, .byte n cur ack bs a ts hlen hbs hts⟩
    | awaitStop =>
      by_cases hstop : ∃ dr q, StopFound s c k half cur dr q
      · obtain ⟨dr, q, hstop⟩ := hstop
        have hb := hstop.bounds
        obtain ⟨ts, hts⟩ := hnext (st' := .awaitStart) (n' := q) (cur' := cur) ack (by simp only [i2cRank]; omega)
        exact ⟨_, .stop n cur dr q ack ts hstop hts⟩
      · cases ack with
        | true =>
          obtain ⟨ts, hts⟩ := hnext (st' := .readByte) (n' := n) (cur' := cur) true (by simp only [i2cRank]; omega)
          exact ⟨_, .more n cur ts hstop hts⟩
        | false =>
          obtain ⟨ts, hts⟩ := hnext (st' := .awaitStart) (n' := cur) (cur' := cur) false (by simp only [i2cRank]; omega)
          exact ⟨_, .error n cur ts hstop hts⟩

theorem exists_i2cRecords (s : State) (c k : Chan) : ∃ ts, I2cRecords s c k ts := by
  by_cases hperiod : ∃ T, PeriodFound s k T
  · obtain ⟨T, hT⟩ := hperiod
    obtain ⟨ts, hts⟩ := exists_i2cScan s c k (T / 2) .awaitStart 0 0 false
    exact ⟨ts, .inr ⟨T, hT, hts⟩⟩
  · exact ⟨[], .inl ⟨hperiod, rfl⟩⟩

/-! ## The SPI edge walk -/

theorem CaptureEdges.unique {before : Bool} {pos : Nat} {es es' : List Nat} (h : CaptureEdges s k before pos es)
    (h' : CaptureEdges s k before pos es') : es = es' := by
  induction es generalizing pos es' with
  | nil =>
    cases es' with
    | nil => rfl
    | cons e' es' => exact absurd ⟨e', h'.1⟩ h
  | cons e es ih =>
    cases es' with
    | nil => exact absurd ⟨e, h.1⟩ h'
    | cons e' es' =>
      obtain ⟨he, hes⟩ := h
      obtain ⟨he', hes'⟩ := h'
      obtain rfl := he.unique he'
      rw [ih hes hes']

theorem exists_captureEdges (s : State) (k : Chan) (before : Bool) (pos : Nat) :
    ∃ es, CaptureEdges s k before pos es := by
  induction hleft : s.len k - pos using Nat.strong_induction_on generalizing pos with
  | h left ih =>
    by_cases hedge : ∃ e, EdgeFound s k before pos e
    · obtain ⟨e, he⟩ := hedge
      have hb := he.bounds
      obtain ⟨es, hes⟩ := ih (s.len k - e) (by omega) e rfl
      exact ⟨e :: es, he, hes⟩
    · exact ⟨[], hedge⟩

/-- Settles O35: each scan exists, as its position moves on, and is one, as each of its searches finds at most one place;
the I2C records are one as they are those of the machine. -/
theorem decodeScansEndInOneWay : Obligations.DecodeScansEndInOneWay := by
  unfold Obligations.DecodeScansEndInOneWay
  intro s c k before
  obtain ⟨fs, hfs⟩ := exists_uartScan s c 0
  obtain ⟨ts, hts⟩ := exists_i2cRecords s c k
  obtain ⟨es, hes⟩ := exists_captureEdges s k before 0
  exact ⟨⟨fs, hfs, fun _ h => h.unique hfs⟩,
    ⟨ts, hts, fun _ h => (i2cTokens_records h).symm.trans (i2cTokens_records hts)⟩,
    ⟨es, hes, fun _ h => h.unique hes⟩⟩

end Sys2Proof.Machine
end

section
/-! The records one decode appends: each is one the engine writes (30_encoding.md R220 to R222), and their STARTs do not
fall (10_state.md R77). O34. -/

namespace Sys2Proof.Machine

/-! ## The arguments of an `emit` that make a record of R220 to R222 -/

/-- The arguments of an `emit` stay within the fields of the record. -/
structure Emit.Sound (e : Emit) : Prop where
  kind : e.kind ≠ .iRstart
  value : e.value ≤ 511
  nbits : if e.kind = .sWord then 1 ≤ e.nbits ∧ e.nbits ≤ 8 else e.nbits = 0
  first : e.first < 2 ^ 32
  last : e.last < 2 ^ 32

theorem Emit.Sound.nbits_le {e : Emit} (h : e.Sound) : e.nbits ≤ 8 := by
  have hn := h.nbits
  split at hn
  · exact hn.2
  · exact hn ▸ Nat.zero_le 8

theorem Kind.code_mem {k : Kind} (h : k ≠ .iRstart) :
    k.code ∈ [0x01, 0x02, 0x03, 0x04, 0x05, 0x06, 0x07, 0x10, 0x12, 0x13, 0x14, 0x15, 0x16, 0x17, 0x18, 0x19, 0x20] := by
  cases k with
  | iRstart => exact absurd rfl h
  | _ => decide

theorem Kind.code_eq_sWord {k : Kind} : k.code = 0x20 ↔ k = .sWord := by cases k <;> decide

/-- The record of a sound `emit` is one the engine writes. -/
theorem Emit.Sound.record_wf {e : Emit} (h : e.Sound) : e.record.wf := by
  obtain ⟨hcode, hnbits, _⟩ := Emit.record_fields h.nbits_le h.value
  have hword := Emit.toNat_record_word0 h.nbits_le h.value
  have hvalue := h.value
  have hle := h.nbits_le
  have hlt := e.kind.code_lt
  refine ⟨?_, rfl, ?_, ?_, ?_, ?_⟩
  · rw [Emit.toNat_record_word1 h.first, Emit.toNat_record_word2 h.first h.last]
    exact Nat.le_max_left _ _
  · refine BitVec.eq_of_toNat_eq ?_
    rw [BitVec.extractLsb'_toNat, hword, Nat.shiftRight_eq_div_pow]
    exact Nat.mod_eq_zero_of_dvd (by omega)
  · refine BitVec.eq_of_toNat_eq ?_
    rw [BitVec.extractLsb'_toNat, hword, Nat.shiftRight_eq_div_pow]
    exact Nat.mod_eq_zero_of_dvd (by omega)
  · rw [hcode]; exact Kind.code_mem h.kind
  · simp only [hcode, hnbits, Kind.code_eq_sWord]; exact h.nbits

/-! ## Lists of `emit`s in rising order -/

/-- Sound `emit`s from the index `lo` on, in order of START. -/
structure Rising (lo : Nat) (ts : List Emit) : Prop where
  sound : ∀ t ∈ ts, t.Sound
  above : ∀ t ∈ ts, lo ≤ t.first
  order : ts.Pairwise fun t u => t.first ≤ u.first

theorem Rising.nil {lo : Nat} : Rising lo [] := ⟨nofun, nofun, List.Pairwise.nil⟩

theorem Rising.mono {lo lo' : Nat} {ts : List Emit} (h : Rising lo ts) (hlo : lo' ≤ lo) : Rising lo' ts :=
  ⟨h.sound, fun t ht => hlo.trans (h.above t ht), h.order⟩

theorem Rising.cons {lo : Nat} {t : Emit} {ts : List Emit} (ht : t.Sound) (hlo : lo ≤ t.first) (h : Rising t.first ts) :
    Rising lo (t :: ts) :=
  ⟨List.forall_mem_cons.2 ⟨ht, h.sound⟩, List.forall_mem_cons.2 ⟨hlo, (h.mono hlo).above⟩,
    List.pairwise_cons.2 ⟨h.above, h.order⟩⟩

theorem Rising.append {lo mid : Nat} {ts us : List Emit} (h : Rising lo ts) (hmid : ∀ t ∈ ts, t.first ≤ mid)
    (hlo : lo ≤ mid) (h' : Rising mid us) : Rising lo (ts ++ us) :=
  ⟨List.forall_mem_append.2 ⟨h.sound, h'.sound⟩, List.forall_mem_append.2 ⟨h.above, (h'.mono hlo).above⟩,
    List.pairwise_append.2 ⟨h.order, h'.order, fun t ht u hu => (hmid t ht).trans (h'.above u hu)⟩⟩

theorem Rising.sublist {lo : Nat} {ts us : List Emit} (h : Rising lo ts) (hus : us.Sublist ts) : Rising lo us :=
  ⟨fun t ht => h.sound t (hus.subset ht), fun t ht => h.above t (hus.subset ht), h.order.sublist hus⟩

/-- The records of rising `emit`s have STARTs that do not fall. -/
theorem Rising.starts {lo : Nat} {ts : List Emit} (h : Rising lo ts) :
    (ts.map Emit.record).Pairwise fun x y => x.word1.toNat ≤ y.word1.toNat := by
  refine List.pairwise_map.2 (h.order.imp_of_mem fun ht hu hle => ?_)
  rwa [Emit.toNat_record_word1 (h.sound _ ht).first, Emit.toNat_record_word1 (h.sound _ hu).first]

/-! ## UART -/

section
variable {u : UartFormat} {e v : Nat}

/-- A token of the frame with left edge `e`, from bit position `i` to `j`. -/
def uartCell (u : UartFormat) (e : Nat) (kind : Kind) (value i j : Nat) : Emit :=
  { kind := kind, nbits := 0, value := value, first := e + i * u.spb, last := e + j * u.spb }

/-- The stop tokens of a frame. -/
def stopTokens (u : UartFormat) (e : Nat) : List Emit :=
  if u.ns = 2 then
    [uartCell u e .uStop1 0 u.stopPos (u.stopPos + 1), uartCell u e .uStop2 0 (u.stopPos + 1) (u.stopPos + 2)]
  else [uartCell u e .uStop 0 u.stopPos (u.stopPos + 1)]

theorem frameTokens_of_noParity (h : u.par = none) (p : Bool) :
    frameTokens u e v p = uartCell u e .uStart 0 0 1 :: uartCell u e .uData v 1 (1 + u.dbits) :: stopTokens u e := by
  simp only [frameTokens, stopTokens, UartFormat.stopPos, h, Nat.add_comm 1 u.dbits]
  rfl

theorem frameTokens_of_parity {mode : Parity} (h : u.par = some mode) (p : Bool) :
    frameTokens u e v p = uartCell u e .uStart 0 0 1 :: uartCell u e .uData v 1 (1 + u.dbits)
      :: uartCell u e (if parityCorrect mode v p then .uParOk else .uParBad) 0 (1 + u.dbits) (2 + u.dbits)
      :: stopTokens u e := by
  simp only [frameTokens, stopTokens, UartFormat.stopPos, h, Nat.add_comm 1 u.dbits, Nat.add_comm 2 u.dbits]
  rfl

/-- A frame has at most 13 bit positions, and all of them lie below 2^32. -/
structure UartFormat.Fits (u : UartFormat) (e : Nat) : Prop where
  dbits : u.dbits ≤ 9
  stops : u.ns = 1 ∨ u.ns = 2
  below : e + 13 * u.spb < 2 ^ 32

theorem UartFormat.Fits.cell (h : u.Fits e) {kind : Kind} {value i j : Nat} (hkind : kind ≠ .iRstart ∧ kind ≠ .sWord)
    (hvalue : value ≤ 511) (hi : i ≤ 13) (hj : j ≤ 13) : (uartCell u e kind value i j).Sound := by
  have hbelow := h.below
  have hfirst := Nat.mul_le_mul_right u.spb hi
  have hlast := Nat.mul_le_mul_right u.spb hj
  exact ⟨hkind.1, hvalue, by rw [if_neg (show ¬ (uartCell u e kind value i j).kind = .sWord from hkind.2)]; rfl,
    show e + i * u.spb < 2 ^ 32 by omega, show e + j * u.spb < 2 ^ 32 by omega⟩

theorem uartCell_first_le {kind kind' : Kind} {value value' i j i' j' : Nat} (h : i ≤ i') :
    (uartCell u e kind value i j).first ≤ (uartCell u e kind' value' i' j').first :=
  Nat.add_le_add_left (Nat.mul_le_mul_right u.spb h) e

theorem UartFormat.Fits.stopPos_le (h : u.Fits e) : u.stopPos ≤ 11 := by
  have hdbits := h.dbits
  unfold UartFormat.stopPos
  split <;> omega

theorem UartFormat.Fits.stopTokens (h : u.Fits e) : Rising (e + u.stopPos * u.spb) (stopTokens u e) := by
  have hpos := h.stopPos_le
  unfold Machine.stopTokens
  split
  · exact .cons (h.cell (by decide) (by decide) (by omega) (by omega)) le_rfl
      (.cons (h.cell (by decide) (by decide) (by omega) (by omega)) (uartCell_first_le (by omega)) .nil)
  · exact .cons (h.cell (by decide) (by decide) (by omega) (by omega)) le_rfl .nil

/-- The tokens of a frame are in order, from its left edge on. -/
theorem UartFormat.Fits.frame (h : u.Fits e) (hv : v ≤ 511) (p : Bool) : Rising e (frameTokens u e v p) := by
  have hdbits := h.dbits
  have hstart : (uartCell u e .uStart 0 0 1).Sound := h.cell (by decide) (by decide) (by omega) (by omega)
  have hdata : (uartCell u e .uData v 1 (1 + u.dbits)).Sound := h.cell (by decide) hv (by omega) (by omega)
  cases hpar : u.par with
  | none =>
    have hpos : u.stopPos = u.dbits + 1 := by rw [UartFormat.stopPos, hpar]; rfl
    rw [frameTokens_of_noParity hpar]
    refine .cons hstart (Nat.le_add_right e _) (.cons hdata (uartCell_first_le (by omega)) (h.stopTokens.mono ?_))
    exact Nat.add_le_add_left (Nat.mul_le_mul_right u.spb (by omega)) e
  | some mode =>
    have hpos : u.stopPos = u.dbits + 2 := by rw [UartFormat.stopPos, hpar]; rfl
    rw [frameTokens_of_parity hpar]
    refine .cons hstart (Nat.le_add_right e _) (.cons hdata (uartCell_first_le (by omega))
      (.cons (h.cell ?_ (by decide) (by omega) (by omega)) (uartCell_first_le (by omega)) (h.stopTokens.mono ?_)))
    · split <;> decide
    · exact Nat.add_le_add_left (Nat.mul_le_mul_right u.spb (by omega)) e

/-- The scan goes on after the START of the last stop bit (44_uart.md R391). -/
theorem UartFormat.Fits.frame_le (h : u.Fits e) (p : Bool) {t : Emit} (ht : t ∈ frameTokens u e v p) :
    t.first ≤ e + (u.stopPos + u.ns - 1) * u.spb := by
  have hns := h.stops
  have hcell {kind : Kind} {value i j : Nat} (hi : i ≤ u.stopPos + u.ns - 1) :
      (uartCell u e kind value i j).first ≤ e + (u.stopPos + u.ns - 1) * u.spb :=
    Nat.add_le_add_left (Nat.mul_le_mul_right u.spb hi) e
  have hstop : ∀ t ∈ Machine.stopTokens u e, t.first ≤ e + (u.stopPos + u.ns - 1) * u.spb := by
    unfold Machine.stopTokens
    split
    · exact List.forall_mem_cons.2 ⟨hcell (by omega), List.forall_mem_singleton.2 (hcell (by omega))⟩
    · exact List.forall_mem_singleton.2 (hcell (by omega))
  revert t
  cases hpar : u.par with
  | none =>
    have hpos : u.stopPos = u.dbits + 1 := by rw [UartFormat.stopPos, hpar]; rfl
    rw [frameTokens_of_noParity hpar]
    exact List.forall_mem_cons.2 ⟨hcell (by omega), List.forall_mem_cons.2 ⟨hcell (by omega), hstop⟩⟩
  | some mode =>
    have hpos : u.stopPos = u.dbits + 2 := by rw [UartFormat.stopPos, hpar]; rfl
    rw [frameTokens_of_parity hpar]
    exact List.forall_mem_cons.2 ⟨hcell (by omega), List.forall_mem_cons.2 ⟨hcell (by omega),
      List.forall_mem_cons.2 ⟨hcell (by omega), hstop⟩⟩⟩

end

section
variable {s : State} {c k : Chan}

/-- The scan finds its frames in rising order; with LEN at most 2^30 each frame's end fits a word. -/
theorem uartScan_rising {u : UartFormat} (hdbits : u.dbits ≤ 9) (hns : u.ns = 1 ∨ u.ns = 2) (hlen : s.len c ≤ 2 ^ 30)
    (fuel n : Nat) : Rising n (s.uartScan c u fuel n).flatten := by
  induction fuel generalizing n with
  | zero => exact .nil
  | succ fuel ih =>
    rw [State.uartScan]
    by_cases hroom : n + 10 * u.spb ≤ s.len c
    · by_cases hedge : ∃ e, EdgeFound s c true n e
      · obtain ⟨e, he⟩ := hedge
        obtain ⟨hlt, helen, _⟩ := he.bounds
        have hfits : u.Fits e := ⟨hdbits, hns, by omega⟩
        cases hmid : s.get c (e + u.half) with
        | true =>
          rw [uartPass_of_glitch hroom he hmid]
          exact (ih _).mono (by omega)
        | false =>
          obtain ⟨hgood, hbad⟩ := uartPass_of_start hns hroom he hmid
          by_cases hstop : StopsHigh s c u e
          · rw [hgood hstop]
            have hv : s.uartData c u e ≤ 511 :=
              Nat.le_of_lt_succ ((lsbFirst_lt _ _).trans_le (Nat.pow_le_pow_right Nat.two_pos hdbits))
            refine Rising.append ((hfits.frame hv _).mono hlt.le) (fun t ht => ?_) ?_ (ih _)
            · exact (hfits.frame_le _ ht).trans (by omega)
            · omega
          · rw [hbad hstop]
            exact (ih _).mono (by omega)
      · rw [uartPass_of_noEdge hedge]
        exact .nil
    · rw [uartPass_of_short (Nat.lt_of_not_le hroom)]
      exact .nil

theorem uartFrames_rising (hlen : s.len c ≤ 2 ^ 30) : Rising 0 (s.uartFrames c).flatten := by
  refine uartScan_rising ?_ (uartFormat_ns_cases s c) hlen _ 0
  rw [uartFormat_dbits, uartDataBits]
  split <;> decide

end

end Sys2Proof.Machine
end

section
/-! The records of the clocked decoders and of a decode command as a whole: they rise as those of the UART do. O34. -/

namespace Sys2Proof.Machine

variable {s : State} {c k : Chan}

theorem State.len_lt (s : State) (c : Chan) : s.len c < 2 ^ 32 := (s.chan c).len.isLt

/-! ## I2C -/

theorem msbFirst_lt (bits : List Bool) : msbFirst bits < 2 ^ bits.length := by
  induction bits using List.reverseRecOn with
  | nil => exact Nat.one_pos
  | append_singleton bits b ih =>
    have hb := Bool.toNat_lt b
    rw [msbFirst_concat, List.length_append, List.length_singleton, Nat.pow_succ]
    omega

theorem i2cValue_le {bs : List I2cBit} (h : bs.length ≤ 8) : i2cValue bs ≤ 511 := by
  have hlt : i2cValue bs < 2 ^ bs.length := by
    have hlt := msbFirst_lt (bs.map I2cBit.bit)
    rwa [List.length_map] at hlt
  have hpow : 2 ^ bs.length ≤ 2 ^ 8 := Nat.pow_le_pow_right Nat.two_pos h
  omega

theorem i2cToken_sound {kind : Kind} {value first last : Nat} (hkind : kind ≠ .iRstart ∧ kind ≠ .sWord)
    (hvalue : value ≤ 511) (hfirst : first < 2 ^ 32) (hlast : last < 2 ^ 32) : (i2cToken kind value first last).Sound :=
  ⟨hkind.1, hvalue, by rw [if_neg (show ¬ (i2cToken kind value first last).kind = .sWord from hkind.2)]; rfl, hfirst, hlast⟩

/-- The index from which the machine reads on. -/
def I2cMachine.floor (m : I2cMachine) : Nat :=
  match m.state with
  | .awaitStart => m.n
  | _ => m.cur

/-- A turn emits in order from the machine's index on, and the machine goes on after what it has emitted. -/
structure I2cTurn.Rises (m : I2cMachine) (t : I2cTurn) : Prop where
  tokens : Rising m.floor t.tokens
  next : ∀ m', t.next = some m' → m.floor ≤ m'.floor ∧ (∀ e ∈ t.tokens, e.first ≤ m'.floor) ∧ m'.cur < 2 ^ 32

section
variable {half : Nat} {m : I2cMachine}

theorem I2cTurn.Rises.last {ts : List Emit} (h : Rising m.floor ts) : I2cTurn.Rises m { tokens := ts, next := none } :=
  ⟨h, nofun⟩

theorem I2cTurn.Rises.goOn {ts : List Emit} {m' : I2cMachine} (h : Rising m.floor ts) (hfloor : m.floor ≤ m'.floor)
    (hle : ∀ e ∈ ts, e.first ≤ m'.floor) (hcur : m'.cur < 2 ^ 32) : I2cTurn.Rises m { tokens := ts, next := some m' } := by
  refine ⟨h, fun m'' h' => ?_⟩
  cases h'
  exact ⟨hfloor, hle, hcur⟩

theorem i2cAwaitStart_rises (hst : m.state = .awaitStart) (hcur : m.cur < 2 ^ 32) :
    (s.i2cAwaitStart c k m).Rises m := by
  have hfloor : m.floor = m.n := by rw [I2cMachine.floor, hst]
  by_cases hhigh : ∃ p, p ∈ bothHigh s c k m.n
  · obtain ⟨p, hp⟩ := exists_isLeast hhigh.choose_spec
    by_cases hfall : ∃ f, EdgeFound s c true p f
    · obtain ⟨f, hf⟩ := hfall
      obtain ⟨hlt, hlen, _⟩ := hf.bounds
      have hn : m.n ≤ p := hp.1.1
      have hf32 := hlen.trans (s.len_lt c)
      rw [i2cAwaitStart_fall hp hf]
      split
      · exact .goOn (.cons (i2cToken_sound (by decide) (by decide) hf32 hf32) (hfloor ▸ hn.trans hlt.le) .nil)
          (hfloor ▸ hn.trans hlt.le) (List.forall_mem_singleton.2 le_rfl) hf32
      · refine .goOn .nil ?_ nofun hcur
        rw [hfloor]
        simp only [I2cMachine.floor, hst]
        omega
    · rw [i2cAwaitStart_noFall hp hfall]
      exact .last .nil
  · rw [i2cAwaitStart_noHigh hhigh]
    exact .last .nil

/-- The acknowledge bit after tokens that do not lie beyond it. -/
theorem i2cAck_rises {cur : Nat} {head : List Emit} (hhead : Rising m.floor head) (hle : ∀ t ∈ head, t.first ≤ cur)
    (hlo : m.floor ≤ cur) : (s.i2cAck c k m cur head).Rises m := by
  by_cases hack : ∃ a, BitsRead s c k cur [a]
  · obtain ⟨a, ha⟩ := hack
    obtain ⟨hrise, hfall, hlen⟩ := ha.bounds (List.cons_ne_nil a [])
    change cur < a.rise at hrise
    change a.rise < a.fall at hfall
    have hfall32 : a.fall < 2 ^ 32 := Nat.lt_trans hlen (s.len_lt k)
    have htoken : (ackToken a).Sound :=
      i2cToken_sound (by split <;> decide) (by decide) (hfall.trans hfall32) hfall32
    rw [i2cAck_some ha]
    refine .goOn (.append hhead hle hlo (.cons htoken hrise.le .nil)) ?_ ?_ hfall32
    · exact hlo.trans (hrise.trans hfall).le
    · exact List.forall_mem_append.2 ⟨fun t ht => (hle t ht).trans (hrise.trans hfall).le,
        List.forall_mem_singleton.2 hfall.le⟩
  · rw [i2cAck_none hack]
    exact .last hhead

theorem i2cReadAddress_rises (hst : m.state = .readAddress) : (s.i2cReadAddress c k m).Rises m := by
  have hfloor : m.floor = m.cur := by rw [I2cMachine.floor, hst]
  by_cases hbits : ∃ bs, bs.length = 8 ∧ BitsRead s c k m.cur bs
  · obtain ⟨bs, hlen, hread⟩ := hbits
    obtain ⟨as, d, rfl, has⟩ := eight_bits_split hlen
    have hne : as ≠ [] := List.length_pos_iff.1 (by omega)
    obtain ⟨hfirst, hd⟩ := (bitsRead_append hne).1 hread
    obtain ⟨h1, h2, h3⟩ := hfirst.bounds hne
    obtain ⟨h4, h5, h6⟩ := hd.bounds (List.cons_ne_nil d [])
    change lastFall as < d.rise at h4
    change d.rise < d.fall at h5
    change d.fall < s.len k at h6
    have hlen32 := s.len_lt k
    rw [i2cReadAddress_bits has hread]
    refine i2cAck_rises (.cons (i2cToken_sound (by decide) (i2cValue_le (by omega)) (by omega) (by omega)) ?_
      (.cons (i2cToken_sound (by split <;> decide) (by decide) (by omega) (by omega)) ?_ .nil)) ?_ ?_
    · rw [hfloor]; exact h1.le
    · exact (h2.trans h4).le
    · exact List.forall_mem_cons.2 ⟨((h2.trans h4).trans h5).le, List.forall_mem_singleton.2 h5.le⟩
    · omega
  · rw [i2cReadAddress_cut hbits]
    exact .last .nil

theorem i2cReadByte_rises (hst : m.state = .readByte) : (s.i2cReadByte c k m).Rises m := by
  have hfloor : m.floor = m.cur := by rw [I2cMachine.floor, hst]
  by_cases hbits : ∃ bs, bs.length = 8 ∧ BitsRead s c k m.cur bs
  · obtain ⟨bs, hlen, hread⟩ := hbits
    obtain ⟨h1, h2, h3⟩ := hread.bounds (List.length_pos_iff.1 (by omega))
    have hlen32 := s.len_lt k
    rw [i2cReadByte_bits hlen hread]
    refine i2cAck_rises (.cons (i2cToken_sound (by decide) (i2cValue_le hlen.le) (by omega) (by omega)) ?_ .nil) ?_ ?_
    · rw [hfloor]; exact h1.le
    · exact List.forall_mem_singleton.2 h2.le
    · omega
  · rw [i2cReadByte_cut hbits]
    exact .last .nil

theorem i2cAwaitStop_rises (hst : m.state = .awaitStop) (hcur : m.cur < 2 ^ 32) :
    (s.i2cAwaitStop c k half m).Rises m := by
  have hfloor : m.floor = m.cur := by rw [I2cMachine.floor, hst]
  by_cases hstop : ∃ dr q, StopFound s c k half m.cur dr q
  · obtain ⟨dr, q, hstop⟩ := hstop
    obtain ⟨h1, h2, h3⟩ := hstop.bounds
    have hdr := h3.trans (s.len_lt c)
    rw [i2cAwaitStop_stop hstop]
    exact .goOn (.cons (i2cToken_sound (by decide) (by decide) hdr hdr) (hfloor ▸ h1.le) .nil) (hfloor ▸ (h1.trans h2).le)
      (List.forall_mem_singleton.2 h2.le) hcur
  · rw [i2cAwaitStop_noStop hstop]
    split
    · exact .goOn .nil hfloor.le nofun hcur
    · exact .goOn (.cons (i2cToken_sound (by decide) (by decide) hcur hcur) hfloor.le .nil) hfloor.le
        (List.forall_mem_singleton.2 le_rfl) hcur

theorem i2cTurn_rises (hcur : m.cur < 2 ^ 32) : (s.i2cTurn c k half m).Rises m := by
  unfold State.i2cTurn
  split
  · next hst => exact i2cAwaitStart_rises hst hcur
  · next hst => exact i2cReadAddress_rises hst
  · next hst => exact i2cReadByte_rises hst
  · next hst => exact i2cAwaitStop_rises hst hcur

theorem i2cRun_rising (half fuel : Nat) (hcur : m.cur < 2 ^ 32) : Rising m.floor (s.i2cRun c k half fuel m) := by
  induction fuel generalizing m with
  | zero => exact .nil
  | succ fuel ih =>
    have hturn := i2cTurn_rises (s := s) (c := c) (k := k) (half := half) hcur
    simp only [State.i2cRun]
    split
    · exact hturn.tokens
    · next m' hm' =>
      obtain ⟨hfloor, hle, hcur'⟩ := hturn.next m' hm'
      exact hturn.tokens.append hle hfloor (ih hcur')

end

theorem i2cTokens_rising : Rising 0 (s.i2cTokens c k) := by
  unfold State.i2cTokens
  split
  · exact .nil
  · exact i2cRun_rising (m := I2cMachine.start) _ _ (by decide)

/-! ## SPI -/

/-- The bits captured so far: at most seven of them, at edges before `pos`. -/
structure SpiAcc.Fits (lo pos : Nat) (a : SpiAcc) : Prop where
  acc : a.acc < 2 ^ a.nb
  first : 0 < a.nb → lo ≤ a.first
  order : a.first ≤ pos
  last : a.last ≤ pos

theorem SpiAcc.fits_empty (pos : Nat) : SpiAcc.empty.Fits pos pos :=
  ⟨by decide, nofun, Nat.zero_le pos, Nat.zero_le pos⟩

theorem SpiAcc.Fits.push {lo pos e : Nat} {a : SpiAcc} (h : a.Fits lo pos) (hlo : lo ≤ pos) (he : pos < e) (b : Bool) :
    (a.push e b).Fits lo e := by
  have hacc := h.acc
  have horder := h.order
  have hb : b.toNat * 2 ^ a.nb ≤ 2 ^ a.nb := mul_le_of_le_one_left (Nat.zero_le _) (Bool.toNat_le b)
  refine ⟨?_, fun _ => ?_, ?_, le_rfl⟩
  · change a.acc + b.toNat * 2 ^ a.nb < 2 ^ (a.nb + 1)
    rw [Nat.pow_succ]; omega
  · change lo ≤ if a.nb = 0 then e else a.first
    split
    · omega
    · next hnb => exact h.first (Nat.pos_of_ne_zero hnb)
  · change (if a.nb = 0 then e else a.first) ≤ e
    split <;> omega

theorem SpiAcc.Fits.word {lo pos : Nat} {a : SpiAcc} (h : a.Fits lo pos) (hpos : pos < 2 ^ 32)
    (hnb : 1 ≤ a.nb ∧ a.nb ≤ 8) : Rising lo [a.word] := by
  have hacc := h.acc
  have hpow : 2 ^ a.nb ≤ 2 ^ 8 := Nat.pow_le_pow_right Nat.two_pos hnb.2
  refine .cons ⟨show Kind.sWord ≠ .iRstart by decide, ?_, ?_, h.order.trans_lt hpos, h.last.trans_lt hpos⟩
    (h.first hnb.1) .nil
  · change a.acc ≤ 511; omega
  · rw [if_pos (show a.word.kind = .sWord from rfl)]; exact hnb

theorem SpiAcc.Fits.flush {lo pos : Nat} {a : SpiAcc} (h : a.Fits lo pos) (hpos : pos < 2 ^ 32) (hnb : a.nb < 8) :
    Rising lo a.flush := by
  unfold SpiAcc.flush
  split
  · exact h.word hpos (by omega)
  · exact .nil

theorem spiWalk_rising {rising : Bool} {lo pos : Nat} {a : SpiAcc} (fuel : Nat) (h : a.Fits lo pos) (hlo : lo ≤ pos)
    (hpos : pos < 2 ^ 32) (hnb : a.nb < 8) : Rising lo (s.spiWalk c k rising fuel pos a) := by
  induction fuel generalizing lo pos a with
  | zero => exact h.flush hpos hnb
  | succ fuel ih =>
    by_cases hedge : ∃ e, EdgeFound s k (!rising) pos e
    · obtain ⟨e, he⟩ := hedge
      obtain ⟨hlt, hlen, _⟩ := he.bounds
      have he32 := hlen.trans (s.len_lt k)
      have hpush := h.push hlo hlt (s.get c e)
      simp only [State.spiWalk, spiSearch_eq, edgeFrom_eq_some.2 he]
      split
      · next hfull =>
        exact Rising.append (hpush.word he32 (by omega)) (List.forall_mem_singleton.2 hpush.order) (hlo.trans hlt.le)
          (ih (SpiAcc.fits_empty e) le_rfl he32 (by decide))
      · next hpart =>
        exact ih hpush (hlo.trans hlt.le) he32 (lt_of_le_of_ne (Nat.succ_le_of_lt hnb) hpart)
    · rw [spiWalk_end hedge]
      exact h.flush hpos hnb

theorem spiTokens_rising : Rising 0 (s.spiTokens c k) :=
  spiWalk_rising _ (SpiAcc.fits_empty 0) le_rfl (by decide) (by decide)

/-! ## A decode command -/

theorem uartPlan_rising (hlen : s.len c ≤ 2 ^ 30) {p : DecodePlan} (h : s.uartPlan c = .ok p) :
    Rising 0 p.frames.flatten := by
  unfold State.uartPlan at h
  split at h
  · cases h; exact uartFrames_rising hlen
  · cases h

theorem clockedPlan_rising {plan : Chan → DecodePlan} (hplan : ∀ k, Rising 0 (plan k).frames.flatten) {p : DecodePlan}
    (h : s.clockedPlan c plan = .ok p) : Rising 0 p.frames.flatten := by
  unfold State.clockedPlan at h
  split at h
  · split at h
    · cases h; exact hplan _
    · cases h
  · cases h

theorem i2cPlan_rising {p : DecodePlan} (h : s.i2cPlan c = .ok p) : Rising 0 p.frames.flatten :=
  clockedPlan_rising (fun k => by rw [flatten_singles]; exact i2cTokens_rising) h

theorem spiPlan_rising {p : DecodePlan} (h : s.spiPlan c = .ok p) : Rising 0 p.frames.flatten :=
  clockedPlan_rising (fun k => by rw [flatten_singles]; exact spiTokens_rising) h

theorem clockPlan_rising {p : DecodePlan} (h : clockPlan = .ok p) : Rising 0 p.frames.flatten := by
  cases h; exact .nil

theorem tagPlan_rising (hlen : s.len c ≤ 2 ^ 30) {p : DecodePlan} (h : s.tagPlan c = .ok p) :
    Rising 0 p.frames.flatten := by
  unfold State.tagPlan at h
  split at h
  · exact uartPlan_rising hlen h
  · exact i2cPlan_rising h
  · exact spiPlan_rising h
  · exact clockPlan_rising h
  · cases h
  · cases h

theorem decodePlan_rising {i : Instr} (hlen : s.len c ≤ 2 ^ 30) {p : DecodePlan} (h : s.decodePlan i c = .ok p) :
    Rising 0 p.frames.flatten := by
  unfold State.decodePlan at h
  split at h
  · exact tagPlan_rising hlen h
  · exact uartPlan_rising hlen h
  · exact i2cPlan_rising h
  · exact spiPlan_rising h
  · exact clockPlan_rising h

end Sys2Proof.Machine
end

section
/-! What a command leaves of the token memories (10_state.md R73, R77). O34. -/

namespace Sys2Proof.Machine

/-! ## The room for records -/

/-- The state a body has got to. -/
def Progress.state : Progress → State
  | .going s => s
  | .aborted s _ => s

/-- TOKCNT stays within TOKCAP (10_state.md R73). -/
theorem emitFrames_tokcnt_le {c : Chan} {fs : List (List Emit)} {s : State} (h : s.tokcnt c ≤ s.params.tokcap) :
    (State.emitFrames c fs s).state.tokcnt c ≤ s.params.tokcap := by
  induction fs generalizing s with
  | nil => exact h
  | cons f fs ih =>
    simp only [State.emitFrames, State.emitFrame]
    by_cases hfull : s.params.tokcap < s.tokcnt c + f.length
    · simp only [if_pos hfull]
      exact h
    · simp only [if_neg hfull]
      rw [emitAll_room c f s (by omega)]
      exact ih (by rw [State.tokcnt_appendTokens_self, List.length_map, State.appendTokens_params]; omega)

/-- The records `us` are a first part of those a decode plans, and do not overflow the token memory. -/
structure Appended (s : State) (c : Chan) (p : DecodePlan) (us : List Emit) : Prop where
  planned : us <+: p.frames.flatten
  room : s.tokcnt c ≤ s.params.tokcap → s.tokcnt c + us.length ≤ s.params.tokcap

/-- How a plan that the checks allow ends. -/
theorem runPlan_ok {c : Chan} {s t : State} {p : DecodePlan} (h : runPlan c s (.ok p) = .next t) :
    ∃ us, Appended s c p us ∧ (t = (s.appendTokens c (us.map Emit.record)).completed false p.low
      ∨ t = (s.appendTokens c (us.map Emit.record)).aborted .etokovf) := by
  obtain ⟨us, hus, hend⟩ := emitFrames_cases c p.frames s
  have hroom (hle : s.tokcnt c ≤ s.params.tokcap) : s.tokcnt c + us.length ≤ s.params.tokcap := by
    have hend' : (State.emitFrames c p.frames s).state = s.appendTokens c (us.map Emit.record) := by
      obtain hgo | hab := hend
      · rw [hgo]; rfl
      · rw [hab]; rfl
    have hkept := emitFrames_tokcnt_le (fs := p.frames) hle
    rwa [hend', State.tokcnt_appendTokens_self, List.length_map] at hkept
  refine ⟨us, ⟨hus, hroom⟩, ?_⟩
  obtain hgo | hab := hend
  · rw [runPlan, hgo] at h
    cases h
    exact .inl rfl
  · rw [runPlan, hab] at h
    cases h
    exact .inr rfl

/-! ## What a command appends -/

/-- The tokens of a channel under a command: emptied by CHRESET of it, as they were, or with records of a decode of it
appended. -/
inductive TokensAfter (i : Instr) (s : State) (d : Chan) : List Token → Prop
  | emptied (ch : BitVec 4) (h : i = .chreset ch) (hd : ch.toNat = d.val) : TokensAfter i s d []
  | kept : TokensAfter i s d (s.chan d).tokens
  | appended (p : DecodePlan) (us : List Emit) (hplan : s.decodePlan i d = .ok p) (hus : Appended s d p us) :
      TokensAfter i s d ((s.chan d).tokens ++ us.map Emit.record)

theorem TokensAfter.of_appendTokens {i : Instr} {s : State} {c : Chan} {p : DecodePlan} {us : List Emit}
    (hplan : s.decodePlan i c = .ok p) (hus : Appended s c p us) (d : Chan) :
    TokensAfter i s d ((s.appendTokens c (us.map Emit.record)).chan d).tokens := by
  rw [State.chan_appendTokens]
  split
  · next hd => subst hd; exact .appended p us hplan hus
  · exact .kept

theorem exec_tokens_of_isDecode {i : Instr} {s t : State} (hdec : isDecode i) (h : exec i s = .next t) (d : Chan) :
    TokensAfter i s d (t.chan d).tokens := by
  obtain ⟨e, he, rfl⟩ | rfl | ⟨c, ts, hc, hend⟩ := (ran_of_exec h).of_isDecode hdec
  · exact .kept
  · exact .kept
  · rw [exec_eq_runPlan hdec hc] at h
    cases hplan : s.decodePlan i c with
    | error e =>
      rw [hplan] at h
      cases h
      exact .kept
    | ok p =>
      rw [hplan] at h
      obtain ⟨us, hus, rfl | rfl⟩ := runPlan_ok h
      · exact .of_appendTokens hplan hus d
      · exact .of_appendTokens hplan hus d

theorem exec_tokens {i : Instr} {s t : State} (h : exec i s = .next t) (d : Chan) :
    TokensAfter i s d (t.chan d).tokens := by
  have hset (c : Chan) {x : Channel} (hx : x.tokens = (s.chan c).tokens) :
      TokensAfter i s d (if d = c then x else s.chan d).tokens := by
    split
    · next hd => subst hd; rw [hx]; exact .kept
    · exact .kept
  cases ran_of_exec h with
  | write ch c n v => rw [State.completed_chan, State.chan_wr]; exact hset c rfl
  | writeRange ch c lo hi v => rw [State.completed_chan, State.chan_wrRange]; exact hset c rfl
  | reset ch c hi hc =>
    rw [State.completed_chan, State.chan_chReset]
    split
    · next hd => subst hd; exact .emptied ch hi hc
    · exact .kept
  | replace ch => rw [State.completed_chan, State.chan_bulkReplace]; exact .kept
  | bulk ch =>
    change TokensAfter i s d ((s.bulkWrite s.blptr.toNat (byteOperand s.engine.a0)).chan d).tokens
    rw [State.chan_bulkWrite]; exact .kept
  | decoded c ts low hdec => exact exec_tokens_of_isDecode hdec h d
  | overflowed c ts hdec => exact exec_tokens_of_isDecode hdec h d
  | _ => exact .kept

/-- The records a decode appends are those of rising `emit`s. -/
theorem Appended.rising {i : Instr} {s : State} {d : Chan} {p : DecodePlan} {us : List Emit} (h : Appended s d p us)
    (hplan : s.decodePlan i d = .ok p) (hlegal : s.params.legal) (hlen : s.len d < s.params.cap) : Rising 0 us :=
  (decodePlan_rising (hlen.le.trans hlegal.1.2) hplan).sublist h.planned.sublist

/-- Settles O34: a command keeps the records, empties its channel, or appends a first part of what its decoder emits, in
rising order. -/
theorem tokensStayInAppendOrder : Obligations.TokensStayInAppendOrder := by
  unfold Obligations.TokensStayInAppendOrder
  intro i s t c hexec
  have hafter := exec_tokens hexec c
  generalize (t.chan c).tokens = us at hafter
  cases hafter with
  | emptied ch hi hc =>
    refine ⟨.inr ⟨⟨ch, hi, hc⟩, rfl⟩, fun ts _ _ hts => ?_⟩
    rw [(List.append_eq_nil_iff.1 hts.symm).2]
    exact .nil
  | kept =>
    refine ⟨.inl (List.prefix_refl _), fun ts _ _ hts => ?_⟩
    rw [List.self_eq_append_right.1 hts]
    exact .nil
  | appended p us hplan hus =>
    refine ⟨.inl (List.prefix_append _ _), fun ts hlegal hlen hts => ?_⟩
    rw [← List.append_cancel_left hts]
    exact (hus.rising hplan hlegal (hlen c)).starts

end Sys2Proof.Machine
end

section
/-! The invariant, in three parts: what the memories hold, the flags with the engine's copies, and the reset state while
`rst_n` is low (`HeldInReset`). O8 and O9. -/

namespace Sys2Proof.Machine

/-! ## The sample store -/

/-- The clauses of the invariant about samples and LEN. -/
structure State.Stored (s : State) : Prop where
  memory : s.samples.wf
  inCap : ∀ p ∈ s.samples, p.1 < s.params.cap
  lenInCap : ∀ c, s.len c < s.params.cap
  quiet : ∀ c i, s.len c < i → s.bit c i = false

theorem State.Stored.of_same {s t : State} (h : s.Stored) (hparams : t.params = s.params) (hsamples : t.samples = s.samples)
    (hlen : ∀ c, t.len c = s.len c) : t.Stored := by
  refine ⟨hsamples ▸ h.memory, ?_, fun c => ?_, fun c i hi => ?_⟩
  · rw [hsamples, hparams]; exact h.inCap
  · rw [hlen, hparams]; exact h.lenInCap c
  · rw [State.bit, hsamples]; exact h.quiet c i (hlen c ▸ hi)

theorem Memory.write_below {m : Memory} {a n : Nat} (h : ∀ p ∈ m, p.1 < n) (ha : a < n) (v : Byte) :
    ∀ p ∈ m.write a v, p.1 < n := by
  intro p hp
  obtain ⟨_, rfl⟩ | ⟨hp, _⟩ := (Memory.mem_write m a v p).1 hp
  · exact ha
  · exact h p hp

theorem Memory.fill_below {m : Memory} {n k lo : Nat} (c : Chan) (v : Bool) (h : ∀ p ∈ m, p.1 < n) (hlo : lo + k ≤ n) :
    ∀ p ∈ Memory.fill c v lo k m, p.1 < n := by
  induction k generalizing lo m with
  | zero => exact h
  | succ k ih => exact ih (Memory.write_below h (by omega) _) (by omega)

/-- What the two writes of SET, CLR, SETR and CLRR have in common: samples up to `n` written, and LEN raised to it. -/
theorem State.Stored.of_extended {s t : State} (h : s.Stored) {c : Chan} {n : Nat} (hn : n < s.params.cap)
    (hparams : t.params = s.params) (hmemory : t.samples.wf) (hcap : ∀ p ∈ t.samples, p.1 < s.params.cap)
    (hlen : ∀ d, t.len d = if d = c then max (s.len c) n else s.len d)
    (hbit : ∀ d i, ¬ (d = c ∧ i ≤ n) → t.bit d i = s.bit d i) : t.Stored := by
  refine ⟨hmemory, hparams ▸ hcap, fun d => ?_, fun d i hi => ?_⟩
  · rw [hlen, hparams]
    split
    · exact Nat.max_lt.2 ⟨h.lenInCap c, hn⟩
    · exact h.lenInCap d
  · rw [hlen] at hi
    by_cases hd : d = c
    · rw [if_pos hd] at hi
      rw [hbit d i fun hle => by omega]
      exact h.quiet d i (hd ▸ (Nat.max_lt.1 hi).1)
    · rw [if_neg hd] at hi
      rw [hbit d i fun hle => hd hle.1]
      exact h.quiet d i hi

theorem State.Stored.wr {s : State} (h : s.Stored) (c : Chan) {n : Nat} (v : Bool) (hn : n < s.params.cap)
    (hw : n < 2 ^ 32) : (s.wr c n v).Stored := by
  refine h.of_extended (c := c) hn rfl (Memory.setSample_wf h.memory c n v) (Memory.write_below h.inCap hn _)
    (fun d => s.len_wr c d v hw) fun d i hi => ?_
  rw [State.bit_wr, if_neg fun heq => hi ⟨heq.1, heq.2.le⟩]

theorem State.Stored.wrRange {s : State} (h : s.Stored) (c : Chan) {lo hi : Nat} (v : Bool) (hle : lo ≤ hi)
    (hn : hi < s.params.cap) (hw : hi < 2 ^ 32) : (s.wrRange c lo hi v).Stored := by
  refine h.of_extended (c := c) hn rfl (Memory.fill_wf c v _ lo h.memory) (Memory.fill_below c v h.inCap (by omega))
    (fun d => s.len_wrRange c d lo v hw) fun d i hi' => ?_
  rw [State.bit_wrRange s c d lo hi i v hle, if_neg fun hin => hi' ⟨hin.1, hin.2.2⟩]

theorem State.Stored.chReset {s : State} (h : s.Stored) (c : Chan) : (s.chReset c).Stored := by
  have hcap (d : Chan) : s.len d < s.params.cap := h.lenInCap d
  refine ⟨Memory.clearChan_wf h.memory c, fun p hp => ?_, fun d => ?_, fun d i hi => ?_⟩
  · obtain ⟨q, hq, hqp, _⟩ := Memory.mem_clearChan hp
    exact hqp ▸ h.inCap q hq
  · rw [State.len_chReset]
    split
    · exact (hcap d).pos
    · exact hcap d
  · rw [State.len_chReset] at hi
    rw [State.bit_chReset s h.memory]
    by_cases hd : d = c
    · rw [if_pos hd]
    · rw [if_neg hd] at hi ⊢
      exact h.quiet d i hi

theorem State.Stored.bulkReplace {s : State} (h : s.Stored) : s.bulkReplace.Stored := by
  refine ⟨⟨List.Pairwise.nil, nofun⟩, nofun, fun d => ?_, fun d i _ => s.bit_bulkReplace d i⟩
  rw [State.len_bulkReplace]
  exact (h.lenInCap d).pos

theorem State.Stored.bulkWrite {s : State} (h : s.Stored) {n : Nat} (x : Byte) (hn : n < s.params.cap) (hw : n < 2 ^ 32) :
    (s.bulkWrite n x).Stored := by
  refine ⟨Memory.write_wf h.memory n x, Memory.write_below h.inCap hn x, fun d => ?_, fun d i hi => ?_⟩
  · rw [State.len_bulkWrite s d x hw]
    exact Nat.max_lt.2 ⟨h.lenInCap d, hn⟩
  · rw [State.len_bulkWrite s d x hw] at hi
    obtain ⟨hlen, hni⟩ := Nat.max_lt.1 hi
    rw [State.bit_bulkWrite, if_neg hni.ne']
    exact h.quiet d i hlen

/-! ## What the memories hold -/

/-- The clauses of the invariant about the build, the memories and BLPTR. -/
structure State.Data (s : State) : Prop where
  legal : s.params.legal
  stored : s.Stored
  room : ∀ c, s.tokcnt c ≤ s.params.tokcap
  tokens : ∀ c, ∀ t ∈ (s.chan c).tokens, t.wf
  bulk : s.blptr.toNat ≤ s.params.cap

/-- The build and what the memories hold are the same. -/
structure SameData (s t : State) : Prop where
  params : t.params = s.params
  samples : t.samples = s.samples
  blptr : t.blptr = s.blptr
  len : ∀ c, (t.chan c).len = (s.chan c).len
  tokens : ∀ c, (t.chan c).tokens = (s.chan c).tokens

theorem SameData.of_chans {s t : State} (hparams : t.params = s.params) (hsamples : t.samples = s.samples)
    (hblptr : t.blptr = s.blptr) (hchans : t.chans = s.chans) : SameData s t :=
  ⟨hparams, hsamples, hblptr, fun c => by rw [State.chan, hchans]; rfl, fun c => by rw [State.chan, hchans]; rfl⟩

theorem State.Data.of_same {s t : State} (hs : s.Data) (h : SameData s t) : t.Data := by
  obtain ⟨hparams, hsamples, hblptr, hlen, htokens⟩ := h
  refine ⟨hparams ▸ hs.legal, hs.stored.of_same hparams hsamples fun c => congrArg zext (hlen c),
    fun c => ?_, fun c => ?_, ?_⟩
  · rw [State.tokcnt, htokens, hparams]; exact hs.room c
  · rw [htokens]; exact hs.tokens c
  · rw [hblptr, hparams]; exact hs.bulk

/-- The host's registers of a channel hold no data. -/
theorem sameData_setChan (s : State) (c : Chan) {x : Channel} (hlen : x.len = (s.chan c).len)
    (htokens : x.tokens = (s.chan c).tokens) : SameData s (s.setChan c x) := by
  refine ⟨rfl, rfl, rfl, fun d => ?_, fun d => ?_⟩ <;> rw [State.chan_setChan] <;> split
  · next hd => rw [hlen, hd]
  · rfl
  · next hd => rw [htokens, hd]
  · rfl

theorem data_resetOf {p : Params} (h : p.legal) : (State.resetOf p).Data := by
  have hlen (c : Chan) : (State.resetOf p).len c = 0 := by rw [State.len, State.chan_resetOf]; rfl
  refine ⟨h, ⟨⟨List.Pairwise.nil, nofun⟩, nofun, fun c => ?_, fun c i _ => ?_⟩, fun c => ?_, fun c => ?_, Nat.zero_le _⟩
  · rw [hlen]; exact h.1.1
  · exact BitVec.getLsbD_zero
  · rw [State.tokcnt, State.chan_resetOf]; exact Nat.zero_le _
  · rw [State.chan_resetOf]; exact nofun

/-- Every reset of a block leaves the reset state of its build. -/
theorem sameData_heldReset (s : State) : SameData (State.resetOf s.params) s.heldReset :=
  .of_chans rfl rfl rfl rfl

/-! ## The data under a command -/

/-- Records fit the token memory, and are ones the engine writes. -/
theorem TokensAfter.fit {i : Instr} {s : State} {d : Chan} {ts : List Token} (h : TokensAfter i s d ts) (hs : s.Data) :
    ts.length ≤ s.params.tokcap ∧ ∀ t ∈ ts, t.wf := by
  cases h with
  | emptied ch => exact ⟨Nat.zero_le _, nofun⟩
  | kept => exact ⟨hs.room d, hs.tokens d⟩
  | appended p us hplan hus =>
    have hrising := hus.rising hplan hs.legal (hs.stored.lenInCap d)
    refine ⟨?_, List.forall_mem_append.2 ⟨hs.tokens d, List.forall_mem_map.2 fun u hu => (hrising.sound u hu).record_wf⟩⟩
    rw [List.length_append, List.length_map]
    exact hus.room (hs.room d)

theorem Ran.stored {i : Instr} {s t : State} (h : Ran i s t) (hs : s.Stored) : t.Stored := by
  have hsame {u : State} (hu : u.Stored) (f l : Bool) : (u.completed f l).Stored := hu.of_same rfl rfl fun _ => rfl
  cases h with
  | write ch c n v h hc hn hw => exact hsame (hs.wr c v hn hw) _ _
  | writeRange ch c lo hi v h hc hle hn hw => exact hsame (hs.wrRange c v hle hn hw) _ _
  | reset ch c => exact hsame (hs.chReset c) _ _
  | replace ch => exact hsame hs.bulkReplace _ _
  | bulk ch h hn =>
    exact (hs.bulkWrite (byteOperand s.engine.a0) hn s.blptr.isLt).of_same rfl rfl fun _ => rfl
  | decoded c ts => exact hs.of_same rfl rfl fun d => s.len_appendTokens c d ts
  | overflowed c ts => exact hs.of_same rfl rfl fun d => s.len_appendTokens c d ts
  | _ => exact hs.of_same rfl rfl fun _ => rfl

/-- BLPTR is kept, cleared, or moved on by one from below CAP (41_sample_buffer.md R297). -/
theorem Ran.blptr_le {i : Instr} {s t : State} (h : Ran i s t) (hs : s.Data) : t.blptr.toNat ≤ s.params.cap := by
  cases h with
  | replace ch => exact Nat.zero_le _
  | bulk ch h hn =>
    have hcap := hs.legal.1.2
    change (storeNat (s.blptr.toNat + 1)).toNat ≤ s.params.cap
    rw [toNat_storeNat (by omega)]
    exact hn
  | _ => exact hs.bulk

theorem exec_data {i : Instr} {s t : State} (h : exec i s = .next t) (hs : s.Data) : t.Data := by
  have hran := ran_of_exec h
  have hfit (d : Chan) := (exec_tokens h d).fit hs
  exact ⟨hran.params ▸ hs.legal, hran.stored hs.stored, fun d => hran.params ▸ (hfit d).1, fun d => (hfit d).2,
    hran.params ▸ hran.blptr_le hs⟩

/-! ## The flags -/

/-- The clauses of the invariant about STATUS and the engine's copies. -/
structure FlagsFit (f : Status) (e : Engine) : Prop where
  running : f.busy = true → f.done = false ∧ f.found = false ∧ f.lowrate = false ∧ f.err = .ok
  idle : f.busy = false → e = Engine.idle
  failed : f.err ≠ .ok → f.found = false ∧ f.lowrate = false

/-- A command's end leaves the flags of R254 or R605. -/
theorem Ran.flagsFit {i : Instr} {s t : State} (h : Ran i s t) : FlagsFit t.status t.engine := by
  refine ⟨fun hbusy => absurd (h.busy.symm.trans hbusy) Bool.noConfusion, fun _ => h.engine, fun herr => ?_⟩
  obtain ⟨ht, _⟩ | ⟨c, ts, _, _, rfl⟩ := h.of_error herr
  · rw [ht]; exact ⟨rfl, rfl⟩
  · exact ⟨rfl, rfl⟩

theorem flagsFit_reset : FlagsFit Status.reset Engine.idle := ⟨nofun, fun _ => rfl, fun _ => ⟨rfl, rfl⟩⟩

/-- The accepted CMD write clears the flags and fills the copies (40_command_cycle.md R250, R251). -/
theorem flagsFit_issue (f : Status) (e : Engine) : FlagsFit f.issue e :=
  ⟨fun _ => ⟨rfl, rfl, rfl, rfl⟩, nofun, fun _ => ⟨rfl, rfl⟩⟩

/-- The STATUS write reaches DONE and COLL alone. -/
theorem FlagsFit.hostWrite {f : Status} {e : Engine} (h : FlagsFit f e) (v : Word) : FlagsFit (f.hostWrite v) e := by
  refine ⟨fun hbusy => ?_, h.idle, h.failed⟩
  obtain ⟨hdone, hrest⟩ := h.running hbusy
  exact ⟨by rw [Status.hostWrite, hdone]; rfl, hrest⟩

/-! ## One input -/

/-- The invariant but for the clause about `rst_n`. -/
structure State.Live (s : State) : Prop where
  data : s.Data
  flags : FlagsFit s.status s.engine

theorem State.inv_iff {s : State} : s.Inv ↔ s.Live ∧ HeldInReset s := by
  constructor
  · intro h
    exact ⟨⟨⟨h.legal, ⟨h.memory, h.inCap, h.lenInCap, h.quiet⟩, h.room, h.tokens, h.bulk⟩, ⟨h.running, h.idle, h.failed⟩⟩,
      h.held⟩
  · rintro ⟨⟨⟨hlegal, ⟨hmemory, hinCap, hlenInCap, hquiet⟩, hroom, htokens, hbulk⟩, ⟨hrunning, hidle, hfailed⟩⟩, hheld⟩
    exact ⟨hlegal, hmemory, hinCap, hlenInCap, hquiet, hroom, htokens, hbulk, hrunning, hidle, hfailed, hheld⟩

theorem live_resetOf {p : Params} (h : p.legal) : (State.resetOf p).Live := ⟨data_resetOf h, flagsFit_reset⟩

theorem State.Live.of_same {s t : State} (h : s.Live) (hdata : SameData s t) (hstatus : t.status = s.status)
    (hengine : t.engine = s.engine) : t.Live :=
  ⟨h.data.of_same hdata, by rw [hstatus, hengine]; exact h.flags⟩

/-- The port and the list of inputs are no part of it. -/
theorem State.Live.of_sameBlock {s t : State} (h : s.Live) (hsame : SameBlock s t) : t.Live := by
  obtain ⟨xs, r, n, rfl⟩ := hsame
  exact h.of_same (.of_chans rfl rfl rfl rfl) rfl rfl

theorem State.Live.heldReset {s : State} (h : s.Live) : s.heldReset.Live :=
  (live_resetOf h.data.legal).of_same (sameData_heldReset s) rfl rfl

theorem State.Live.setRstN {s : State} (h : s.Live) (level : Bool) : (s.setRstN level).Live := by
  unfold State.setRstN
  split
  · exact h
  · exact h.heldReset.of_same (.of_chans rfl rfl rfl rfl) rfl rfl

theorem State.Live.whenIdle {s t : State} (h : s.Live) (ht : t.Live) : (s.whenIdle t).Live := by
  unfold State.whenIdle
  split
  · exact ⟨h.data.of_same (.of_chans rfl rfl rfl rfl), h.flags.running, h.flags.idle, h.flags.failed⟩
  · exact ht

theorem State.Live.writeReg {s : State} (h : s.Live) (r : Reg) (v : Word) : (s.writeReg r v).Live := by
  have hchan (c : Chan) {x : Channel} (hlen : x.len = (s.chan c).len) (htokens : x.tokens = (s.chan c).tokens) :
      (s.setChan c x).Live := h.of_same (sameData_setChan s c hlen htokens) rfl rfl
  cases r with
  | ctrl =>
    rw [State.writeReg]
    split
    · exact h.heldReset.of_same (.of_chans rfl rfl rfl rfl) rfl rfl
    · exact h.of_same (.of_chans rfl rfl rfl rfl) rfl rfl
  | status => exact ⟨h.data.of_same (.of_chans rfl rfl rfl rfl), h.flags.hostWrite v⟩
  | cmd => exact h.whenIdle ⟨h.data.of_same (.of_chans rfl rfl rfl rfl), flagsFit_issue _ _⟩
  | arg0 | arg1 => exact h.whenIdle (h.of_same (.of_chans rfl rfl rfl rfl) rfl rfl)
  | cfg c | baud c | rate c => exact h.whenIdle (hchan c rfl rfl)
  | _ => exact h

theorem State.Live.respond {s : State} (h : s.Live) (r : Response) : (s.respond r).Live :=
  h.of_same (.of_chans rfl rfl rfl rfl) rfl rfl

theorem State.Live.busWrite {s : State} (h : s.Live) (a : Addr) (v : Word) : (s.busWrite a v).Live := by
  cases hr : regAt s.params.tokcap a with
  | error f => rw [busWrite_of_error v hr]; exact h.respond _
  | ok r =>
    rw [busWrite_of_ok v hr]
    split
    · exact h.respond _
    · exact (h.writeReg r v).respond _

theorem State.Live.engineTurn {s t : State} (h : s.Live) (hturn : engineTurn s = .next t) : t.Live := by
  cases hbusy : s.status.busy with
  | false =>
    rw [engineTurn_of_idle hbusy] at hturn
    cases hturn
    exact h
  | true =>
    obtain ⟨i, hexec⟩ | hrefused := engineTurn_of_busy hbusy
    · have hran := hexec.symm.trans hturn
      exact ⟨exec_data hran h.data, (ran_of_exec hran).flagsFit⟩
    · rw [hrefused] at hturn
      cases hturn
      exact ⟨h.data.of_same (.of_chans rfl rfl rfl rfl), nofun, fun _ => rfl, fun _ => ⟨rfl, rfl⟩⟩

theorem State.Live.step {s t : State} (h : s.Live) (hstep : step s = .next t) : t.Live := by
  have htaken (rest : List Input) : State.Live { s with inputs := rest } := h.of_sameBlock ⟨rest, s.resp, s.freeCount, rfl⟩
  cases hrst : s.rstN with
  | false =>
    cases hs : s.inputs with
    | nil =>
      simp only [Machine.step, nextInput, hs, hrst, Bool.false_eq_true, if_false] at hstep
      cases hstep
      exact h.heldReset
    | cons x rest =>
      rw [step_held hrst hs] at hstep
      cases hstep
      exact (live_resetOf h.data.legal).of_same (.of_chans rfl rfl rfl rfl) rfl rfl
  | true =>
    cases hs : s.inputs with
    | nil => exact h.engineTurn ((step_last hrst hs).symm.trans hstep)
    | cons x rest =>
      cases x with
      | read a =>
        rw [step_read ⟨hrst, hs⟩] at hstep
        cases hstep
        exact (htaken rest).of_sameBlock (sameBlock_busRead _ a)
      | write a v =>
        rw [step_write ⟨hrst, hs⟩] at hstep
        cases hstep
        exact (htaken rest).busWrite a v
      | engine => exact (htaken rest).engineTurn ((step_engine ⟨hrst, hs⟩).symm.trans hstep)
      | rstN level =>
        rw [step_rstN ⟨hrst, hs⟩] at hstep
        cases hstep
        exact (htaken rest).setRstN level

/-! ## The obligations -/

theorem inv_resetOf {p : Params} (h : p.legal) : (State.resetOf p).Inv :=
  State.inv_iff.2 ⟨live_resetOf h, heldInReset_of_high rfl⟩

/-- Settles O8: the reset state of a build in range holds no sample, no record and no running command. -/
theorem invariantHoldsAtReset : Obligations.InvariantHoldsAtReset := by
  unfold Obligations.InvariantHoldsAtReset
  exact ⟨inv_resetOf (by decide), fun _ => inv_resetOf⟩

/-- Settles O9: each input keeps the clauses about data and flags, and the pin's clause holds after every step. -/
theorem invariantKeptByStep : Obligations.InvariantKeptByStep := by
  unfold Obligations.InvariantKeptByStep
  intro s t hinv hstep
  obtain ⟨hlive, _⟩ := State.inv_iff.1 hinv
  exact State.inv_iff.2 ⟨hlive.step hstep, heldInReset_step hstep⟩

end Sys2Proof.Machine
end
